-- ==== Sys2Proof/Word.lean ====
section
/-! DEFINITION. The words of the SPI controller: bytes, 32-bit registers and the 16-bit operation word. -/

namespace Sys2Proof

/-- One byte: an 8-bit register, a FIFO cell, a byte of a caller buffer (R12, R21). -/
abbrev Byte := BitVec 8

/-- A 32-bit register: CTRL0, STATUS and the engine's RES (R21, R42). -/
abbrev Word := BitVec 32

/-- The 16-bit operation word `OW` of R81. -/
abbrev OpWord := BitVec 16

end Sys2Proof
end

