-- ==== Sys2Proof/Config.lean ====
section
/-! DEFINITION. What is fixed for one controller: the parameters of R10, the capabilities of R11, and the free values. -/

namespace Sys2Proof

/-- The hardware-version tag of a controller instance (R2); `other` is any tag outside the two known variants. -/
inductive Version where
  | a
  | b
  | other
  deriving DecidableEq, Repr, Inhabited

/-- `POLL_TIMING` of R10 and R161: `loose` (the default) or `exact`. -/
inductive PollTiming where
  | loose
  | exact
  deriving DecidableEq, Repr, Inhabited

/-- The parameters of R10 that are an argument of the machine: fixed at construction, changed by no step (R2, R120). -/
structure Params where
  /-- `VERSION`. -/
  version : Version
  /-- `POLL_TIMING`. -/
  pollTiming : PollTiming
  /-- `RX_GAP_ADMITTED`. -/
  rxGapAdmitted : Bool
  deriving DecidableEq, Repr, Inhabited

/-- `FIFO_CAPACITY`, the bytes of the FIFO (R10). -/
abbrev Config.fifoCapacity : Nat := 70

/-- `FIFO_BASE`, the window offset of the first FIFO cell (R10). -/
abbrev Config.fifoBase : Nat := 0x80

/-- CTRL0's window offset (R21). -/
abbrev Config.ctrl0Offset : Nat := 0x00

/-- CS's window offset (R21). -/
abbrev Config.csOffset : Nat := 0x1D

/-- OPCODE's window offset (R21). -/
abbrev Config.opcodeOffset : Nat := 0x45

/-- TRIGGER's window offset (R21). -/
abbrev Config.triggerOffset : Nat := 0x47

/-- TX_COUNT's window offset (R21). -/
abbrev Config.txCountOffset : Nat := 0x48

/-- RX_COUNT's window offset (R21). -/
abbrev Config.rxCountOffset : Nat := 0x4B

/-- STATUS's window offset (R21). -/
abbrev Config.statusOffset : Nat := 0x4C

/-- EXEC's place in CTRL0 (R21, R23). -/
abbrev Config.execPlace : Nat := 16

/-- FIFO_CLEAR's place in CTRL0 (R21, R24). -/
abbrev Config.fifoClearPlace : Nat := 20

/-- BUSY's place, in CTRL0 in Variant A and in STATUS in Variant B (R21, R25, R31). -/
abbrev Config.busyPlace : Nat := 31

/-- TRIGGER's place in the register of that name (R21, R30); the bits below it are storage. -/
abbrev Config.triggerPlace : Nat := 7

/-- The width of the opcode, CTRL0's low bits in Variant A (R21, R22, R29). -/
abbrev Config.opcodeBits : Nat := 8

/-- `CS_FIELD`, the width of the chip-select field, CS's low bits (R10, R27). -/
abbrev Config.csFieldBits : Nat := 2

/-- `CS_LINES` (R10). -/
abbrev Config.csLines : Nat := 4

/-- `MAX_MESSAGE_BYTES`, exposed upward (R10, R11; C1 of 90_conflicts.md). -/
abbrev Config.maxMessageBytes : Nat := 70

/-- `POLL_INTERVAL`, in time-units (R10). -/
abbrev Config.pollInterval : Nat := 20

/-- `POLL_TIMEOUT`, in time-units (R10). -/
abbrev Config.pollTimeout : Nat := 2000000

/-- `MAX_BUSY_READS = floor(POLL_TIMEOUT / POLL_INTERVAL) + 2` (R10, D26). -/
abbrev Config.maxBusyReads : Nat := Config.pollTimeout / Config.pollInterval + 2

/-- The capabilities the hardware exposes upward (R11). -/
structure Capabilities where
  halfDuplexOnly   : Bool
  csLines          : Nat
  maxMessageBytes  : Nat
  clockModeBits    : Nat
  deriving DecidableEq, Repr

/-- The answer to the host's capability query (R11, R283). -/
def Config.capabilities : Capabilities :=
  { halfDuplexOnly := true
    csLines := Config.csLines
    maxMessageBytes := Config.maxMessageBytes
    clockModeBits := 0 }

/-- `TIME_UNIT`, OPEN (R10, D2): the physical size of a time-unit, in a unit the spec does not name. -/
opaque Config.timeUnit : Nat

/-- How far the mapped window reaches beyond the last FIFO cell, OPEN (R10, R60, D7). -/
opaque Config.windowBeyondFifo : Nat

/-- `WINDOW_SIZE`: OPEN, at least 0xC6, which is one past the last FIFO cell (R10, R60). -/
def Config.windowSize : Nat := Config.fifoBase + Config.fifoCapacity + Config.windowBeyondFifo

/-- The free values behind `draw` (R13): the `n`-th draw of the machine, a value of any type asked for.
It has no body, so nothing can be proved of what it answers (assumption 1). -/
opaque Config.free (α : Type) [Inhabited α] (n : Nat) : α

end Sys2Proof
end

