-- ==== Sys2Proof/Syntax.lean ====
section
/-! DEFINITION. The thirteen operations of R83 with their operands, and the operation word with its operand record (R81). -/

namespace Sys2Proof

/-- The direction of a segment (R46, D37). -/
inductive Dir where
  | send
  | recv
  deriving DecidableEq, Repr, Inhabited

/-- A segment: "a direction (send or receive), a byte buffer, and a length" (R46). -/
structure Segment where
  dir : Dir
  len : Nat
  buf : List Byte
  deriving DecidableEq, Repr, Inhabited

/-- The operations of the engine, one constructor per row of the opcode table (R83).
Offsets, the opcode byte and the chip-select index are the 8-bit `imm8` of the word; the rest comes from the record. -/
inductive Instr where
  /-- RD8 off (R101). -/
  | rd8 (off : BitVec 8)
  /-- WR8 off, v (R102). -/
  | wr8 (off : BitVec 8) (v : Byte)
  /-- RD32 off (R103). -/
  | rd32 (off : BitVec 8)
  /-- WR32 off, v (R104). -/
  | wr32 (off : BitVec 8) (v : Word)
  /-- SC8 off, set, clear (R107). -/
  | sc8 (off : BitVec 8) (setBits clearBits : Byte)
  /-- SC32 off, set, clear (R108). -/
  | sc32 (off : BitVec 8) (setBits clearBits : Word)
  /-- SETUP (R181). -/
  | setup
  /-- SETOP b (R121 to R123). -/
  | setop (b : Byte)
  /-- TRIG (R124 to R126). -/
  | trig
  /-- BWAIT (R160). -/
  | bwait
  /-- CSSEL i (R140). -/
  | cssel (i : BitVec 8)
  /-- CSDESEL i (R141). -/
  | csdesel (i : BitVec 8)
  /-- XFER i, segs (R183). -/
  | xfer (i : BitVec 8) (segs : List Segment)
  deriving DecidableEq, Repr, Inhabited

/-- The operand record that follows an operation word; its shape depends on `op` alone (R81). -/
inductive Record where
  | empty
  | byte (v : Byte)
  | word (v : Word)
  | setClear8 (setBits clearBits : Byte)
  | setClear32 (setBits clearBits : Word)
  | segs (l : List Segment)
  deriving DecidableEq, Repr, Inhabited

/-- One operation as it is handed to the engine: exactly one word plus its operand record (R80, R81). -/
structure Request where
  word   : OpWord
  record : Record
  deriving DecidableEq, Repr, Inhabited

end Sys2Proof
end

