-- ==== Sys2Proof/Machine/State.lean ====
section
/-! DEFINITION. The state of the machine: the device behind the register window (R20 to R40), the engine (R42 to R46), what
the host has handed over and got back (R45, R283), the marks and the free-value source; and the state after reset (R300). -/

namespace Sys2Proof.Machine

/-- The FIFO cells, by window offset (R34): strictly rising offsets, no cell that holds 0.
An unlisted cell reads 0 (assumption 7). -/
abbrev Memory := List Host.Cell

/-- The transaction record captured at an accepted trigger (R39). -/
structure Txn where
  cs      : BitVec Config.csFieldBits
  op      : Byte
  tx      : Nat
  rx      : Nat
  txbytes : List Byte
  deriving DecidableEq, Repr, Inhabited

/-- The device phase (R36); while it is not `idle` the phase carries the transaction record `txn` of R39, which no rule
reads while it is. -/
inductive Phase where
  | idle
  | tx (t : Txn)
  | gap (t : Txn)
  | rx (t : Txn)
  deriving DecidableEq, Repr, Inhabited

/-- An entry of the event log (R231). -/
inductive Event where
  | start (cs : BitVec Config.csFieldBits) (op : Byte) (txbytes : List Byte) (rx : Nat)
  | done (cs : BitVec Config.csFieldBits) (op : Byte) (txbytes : List Byte) (rx : Nat) (rxbytes : List Byte)
  deriving DecidableEq, Repr, Inhabited

/-- The controller behind the register window. STATUS has no storage: bit 31 is busy, the rest are draws (R31). -/
structure Device where
  /-- CTRL0's storage bits; bits 16, 20 and 31 are not storage (R22 to R26). -/
  ctrl0 : Word
  /-- CS (R27, R28). -/
  cs : Byte
  /-- OPCODE, Variant B (R29). -/
  opcode : Byte
  /-- TRIGGER bits 6:0, Variant B; bit 7 is not storage (R30). -/
  trigger : BitVec Config.triggerPlace
  /-- TX_COUNT (R32). -/
  txCount : Byte
  /-- RX_COUNT (R33). -/
  rxCount : Byte
  /-- The 70 FIFO cells (R34). -/
  fifo : Memory
  /-- `phase` and `txn` (R36, R39). -/
  phase : Phase
  /-- `havoc` (R37). -/
  havoc : Bool
  /-- `fifo_ptr_cleared` (R38). -/
  fifoPtrCleared : Bool
  /-- `events` (R40). -/
  events : List Event
  deriving DecidableEq, Repr, Inhabited

/-- The terminal statuses (R260). -/
inductive Status where
  | success
  | invalidArgument
  | unsupportedVersion
  | timeout
  deriving DecidableEq, Repr, Inhabited

/-- The engine's step labels (R43). -/
inductive Label where
  | idle
  | select
  | load
  | prog
  | setop
  | trig
  | wait1
  | wait2
  | drain
  | final
  | notify
  deriving DecidableEq, Repr, Inhabited

/-- The message that occupies the engine: the operand of XFER, with the caller's buffers (R46, R60). -/
structure Message where
  cs   : BitVec 8
  segs : List Segment
  deriving DecidableEq, Repr, Inhabited

/-- The engine's working registers that a rule reads by name (R42). -/
inductive WorkReg where
  | res
  | opc
  | txc
  | rxc
  | cur
  | status
  | actual
  deriving DecidableEq, Repr

/-- The engine. A working register nothing has written since reset, or that NOTIFY has cleared, holds no value (R42, R192):
that is the outer `none` of each `Option`. -/
structure Engine where
  /-- The step label (R43). -/
  pc : Label
  /-- RES (R42). -/
  res : Option Word
  /-- OPC: the spec's `none` is `some none` (R42). -/
  opc : Option (Option Byte)
  /-- TXC (R42). -/
  txc : Option Nat
  /-- RXC (R42). -/
  rxc : Option Nat
  /-- CUR (R42). -/
  cur : Option Nat
  /-- STATUS, the message's terminal status (R42). -/
  status : Option Status
  /-- ACTUAL: the spec's `unset` is `some none` (R42). -/
  actual : Option (Option Nat)
  /-- NPOLL (R42). -/
  npoll : Option Nat
  /-- The message in progress; none when no XFER is (R46, R180). -/
  msg : Option Message
  /-- The elapsed time of the current or the last wait, in time-units (R163). No rule reads it. -/
  elapsed : Nat
  deriving DecidableEq, Repr

/-- A completion record (R45), with the caller's buffers as the engine leaves them (R283). -/
structure Completion where
  status       : Status
  actualLength : Nat
  segs         : List Segment
  deriving DecidableEq, Repr

/-- One port access of the engine: window offset and the value read or written (R65). -/
inductive Access where
  | rd8 (off : Nat) (v : Byte)
  | wr8 (off : Nat) (v : Byte)
  | rd32 (off : Nat) (v : Word)
  | wr32 (off : Nat) (v : Word)
  deriving DecidableEq, Repr

/-- The MODEL'S own source of free choices (R13 `draw`, the schedule of R9, the target oracle of R8): answers already
fixed, next first, and how many have been drawn. With the list empty an answer is `Config.free` (assumption 1). -/
structure Oracle where
  tape : List Nat
  used : Nat
  deriving DecidableEq, Repr

/-- The state of the whole machine. -/
structure State where
  /-- The construction arguments; no step changes them (R2, R10). -/
  params : Params
  /-- The device (agent D of R9). -/
  dev : Device
  /-- The engine (agent E of R9). -/
  eng : Engine
  /-- The operations the host hands over, in order; the engine takes the next one when it is idle (R80, R282). -/
  requests : List Request
  /-- The completion records delivered to the host, oldest first (R45). -/
  completions : List Completion
  /-- The sticky mark `refused` (R47). -/
  refused : Bool
  /-- The free choices (the MODEL'S own field). -/
  oracle : Oracle
  /-- Every port access made so far, oldest first (the MODEL'S own record of R67's order; no rule reads it). -/
  trace : List Access
  deriving DecidableEq, Repr

/-- Why the machine faults. -/
inductive Fault where
  /-- A rule read an engine working register that nothing has written: the fault of R268 itself (R42: such a register "holds
  no value, and a rule that reads one faults"; R300: it is unwritten at reset; D42; U14: "fault"). Raised by the XFER steps
  `Machine.labelStep` runs when it resumes from a malformed state. Safe: no sequence of operations reaches it. -/
  | unwrittenRegister (r : WorkReg)
  /-- OPC is `none` at SETOP, or ACTUAL is `unset` at NOTIFY with Success: written values (R42) with which no rule goes on,
and the model's own fault (assumption 10). Raised by `Machine.stepSetop` and `Machine.deliveredLength` when resumed from a
malformed state. Safe: no sequence of operations reaches it. -/
  | noneInRegister (r : WorkReg)
  /-- The step label is one of XFER's and no message is in the engine (D42: a malformed state). Raised by
  `Machine.readMsg`. Safe. -/
  | noMessage
  /-- A caller-buffer byte that does not exist was to be read or written: no rule gives an effect, and the fault is the
  model's own (assumption 10). Raised by `Machine.loadSegment` and `Machine.storeReceived` for a message that admission (R182)
  refuses, in a state resumed at LOAD or DRAIN. Safe. -/
  | noSuchBufferByte
  deriving DecidableEq, Repr

/-- Why the model gives an input no meaning. (R266's refusals are no stop: they are next states with the mark set.) -/
inductive Refusal where
  /-- An instruction with no meaning yet; raised by no arm of `exec`. Safe. -/
  | notModelled (mnemonic : String)
  /-- An operation handed to `exec` while one is in progress: the engine has no such move (R43, R164, R283). Raised by
  `Machine.startOp`. Safe; no run from reset reaches it. -/
  | operationInProgress
  deriving DecidableEq, Repr

/-- The values the spec leaves to a draw at reset (R300): every storage bit of the device. -/
structure ResetDraws where
  ctrl0   : Word
  cs      : Byte
  opcode  : Byte
  trigger : BitVec Config.triggerPlace
  txCount : Byte
  rxCount : Byte
  fifo    : Memory
  deriving DecidableEq, Repr

/-- The device after reset (R300): idle, no havoc, SETUP not made, no events, storage as drawn. -/
def Device.reset (d : ResetDraws) : Device :=
  { ctrl0 := d.ctrl0, cs := d.cs, opcode := d.opcode, trigger := d.trigger
    txCount := d.txCount, rxCount := d.rxCount, fifo := d.fifo
    phase := .idle, havoc := false, fifoPtrCleared := false, events := [] }

/-- The engine after reset (R300): `IDLE`, every working register unwritten. -/
def Engine.reset : Engine :=
  { pc := .idle, res := none, opc := none, txc := none, rxc := none, cur := none
    status := none, actual := none, npoll := none, msg := none, elapsed := 0 }

/-- Construction with the parameters and the reset draws as arguments, which is the reset of R300 and R280. -/
def State.construct (p : Params) (d : ResetDraws) : State :=
  { params := p, dev := Device.reset d, eng := Engine.reset
    requests := [], completions := [], refused := false
    oracle := { tape := [], used := 0 }, trace := [] }

/-- The named reset draws: every storage bit 0 (assumption 6). -/
def ResetDraws.zero : ResetDraws :=
  { ctrl0 := 0#32, cs := 0#8, opcode := 0#8, trigger := 0#_, txCount := 0#8, rxCount := 0#8, fifo := [] }

/-- The named construction arguments: Variant A, and the defaults of R10 (assumption 5). -/
def Params.named : Params :=
  { version := .a, pollTiming := .loose, rxGapAdmitted := true }

/-- The machine right after reset (R300), at the named construction arguments and the named draws. -/
def State.reset : State := State.construct Params.named ResetDraws.zero

end Sys2Proof.Machine
end

