-- ==== Sys2Proof/Machine/Flags.lean ====
section
/-! DEFINITION. The busy flag (R41), the status codes (R260), the poller's bound (R161) and the version policy's
deassert query (R128). -/

namespace Sys2Proof.Machine

/-- Whether the phase is `IDLE`. -/
def Phase.isIdle : Phase → Bool
  | .idle => true
  | .tx _ => false
  | .gap _ => false
  | .rx _ => false

/-- `busy = (phase = TX) or (phase = RX)` (R41). -/
def Phase.busy : Phase → Bool
  | .idle => false
  | .tx _ => true
  | .gap _ => false
  | .rx _ => true

/-- The transaction record the device holds, absent while it is `IDLE` (R39). -/
def Phase.txn : Phase → Option Txn
  | .idle => none
  | .tx t => some t
  | .gap t => some t
  | .rx t => some t

/-- The source's five engine states (R44). -/
inductive EngineState where
  | idle
  | loaded
  | executing
  | draining
  | finalized
  deriving DecidableEq, Repr

/-- The engine state a step label belongs to (R44): `PROG` is the label of the source's Loaded. -/
def engineState : Label → EngineState
  | .idle => .idle
  | .select => .idle
  | .load => .idle
  | .prog => .loaded
  | .setop => .executing
  | .trig => .executing
  | .wait1 => .executing
  | .wait2 => .draining
  | .drain => .draining
  | .final => .finalized
  | .notify => .finalized

/-- The status codes of R260. -/
def Status.code : Status → Word
  | .success => 0#32
  | .invalidArgument => 1#32
  | .unsupportedVersion => 2#32
  | .timeout => 3#32

/-- The bound as `EXACT` reads it: read `n` happens at `(n-1) × POLL_INTERVAL` and the bound is exceeded (R161). -/
def boundExceeded (n : Nat) : Bool := decide ((n - 1) * Config.pollInterval > Config.pollTimeout)

/-- What a query of the version policy answers: a value, or the status it fails with (R127, R128, R260). -/
abbrev Query (α : Type) := Except Status α

/-- `deassertRequired()` (R128): Variant B requires it, Variant A does not, the query fails for an unknown tag. -/
def deassertRequired : Version → Query Bool
  | .a => .ok false
  | .b => .ok true
  | .other => .error .unsupportedVersion

end Sys2Proof.Machine
end

