-- ==== Sys2Proof/Machine/Operands.lean ====
section
/-! DEFINITION. Operand forms: the register map and the legal ports (R21, R86), the named bits (R87), the set/clear
computation (R100), the chip-select mask (R140), message admission (R182) and placement (R190). -/

namespace Sys2Proof.Machine

/-- The 8-bit registers of the window (R21). -/
inductive Reg8 where
  | cs
  | opcode
  | trigger
  | txCount
  | rxCount
  | fifo (i : Fin Config.fifoCapacity)
  deriving DecidableEq, Repr

/-- The 32-bit registers of the window (R21). -/
inductive Reg32 where
  | ctrl0
  | status
  deriving DecidableEq, Repr

/-- The window offset of an 8-bit register (R21). -/
def Reg8.offset : Reg8 → Nat
  | .cs => Config.csOffset
  | .opcode => Config.opcodeOffset
  | .trigger => Config.triggerOffset
  | .txCount => Config.txCountOffset
  | .rxCount => Config.rxCountOffset
  | .fifo i => Config.fifoBase + i.val

/-- The window offset of a 32-bit register (R21). -/
def Reg32.offset : Reg32 → Nat
  | .ctrl0 => Config.ctrl0Offset
  | .status => Config.statusOffset

/-- The register an 8-bit access at `off` names: the legal pairs of width 8 (R63, R86, R109). -/
def port8 (off : Nat) : Option Reg8 :=
  if off = Config.csOffset then some .cs
  else if off = Config.opcodeOffset then some .opcode
  else if off = Config.triggerOffset then some .trigger
  else if off = Config.txCountOffset then some .txCount
  else if off = Config.rxCountOffset then some .rxCount
  else if h : Config.fifoBase ≤ off ∧ off < Config.fifoBase + Config.fifoCapacity then
    some (.fifo ⟨off - Config.fifoBase, by omega⟩)
  else none

/-- The register a 32-bit access at `off` names: the legal pairs of width 32 (R63, R86, R109). -/
def port32 (off : Nat) : Option Reg32 :=
  if off = Config.ctrl0Offset then some .ctrl0
  else if off = Config.statusOffset then some .status
  else none

/-- EXEC, CTRL0 bit 16 (R23, R87). -/
abbrev execBit : Word := 1#32 <<< Config.execPlace

/-- FIFO_CLEAR, CTRL0 bit 20 (R24, R87). -/
abbrev fifoClearBit : Word := 1#32 <<< Config.fifoClearPlace

/-- BUSY, bit 31 of CTRL0 in Variant A and of STATUS in Variant B (R25, R31, R87). -/
abbrev busyBit : Word := 1#32 <<< Config.busyPlace

/-- TRIGGER_BIT, TRIGGER bit 7 (R30, R87). -/
abbrev triggerBit : Byte := 1#8 <<< Config.triggerPlace

/-- CS_MASK, the chip-select field (R27, R87). -/
abbrev csMask : Byte := (BitVec.allOnes Config.csFieldBits).setWidth 8

/-- OPCODE_MASK, the opcode field of CTRL0 in Variant A (R22, R87). -/
abbrev opcodeMask : Word := (BitVec.allOnes Config.opcodeBits).setWidth 32

/-- The CTRL0 bits that are storage: all but EXEC, FIFO_CLEAR and BUSY (R22 to R26). -/
abbrev ctrl0Storage : Word := ~~~(execBit ||| fifoClearBit ||| busyBit)

/-- The self-clearing bits of an 8-bit register: TRIGGER's (R30). They read 0 while the device is `IDLE`. -/
def Reg8.selfClearing : Reg8 → Byte
  | .trigger => triggerBit
  | .cs | .opcode | .txCount | .rxCount | .fifo _ => 0#8

/-- The self-clearing bits of a 32-bit register: CTRL0's EXEC and FIFO_CLEAR (R23, R24). They read 0 while the device is
`IDLE`. -/
def Reg32.selfClearing : Reg32 → Word
  | .ctrl0 => execBit ||| fifoClearBit
  | .status => 0#32

/-- `(current & ~clearBits) | setBits` (R100): a bit in both ends up 1. -/
def setClear {w : Nat} (current setBits clearBits : BitVec w) : BitVec w :=
  (current &&& ~~~clearBits) ||| setBits

/-- The chip-select index reduced to its low two bits (R82, R140). -/
def csIndex (i : BitVec 8) : Byte := i &&& csMask

/-- The bytes of all segments of one direction together, by their stated lengths (R182). -/
def totalLen (d : Dir) : List Segment → Nat
  | [] => 0
  | seg :: rest => (if seg.dir = d then seg.len else 0) + totalLen d rest

/-- The first send segment of a message, if it has one (R182, R185). -/
def firstSend : List Segment → Option Segment
  | [] => none
  | seg :: rest => if seg.dir = .send then some seg else firstSend rest

/-- The admission check of R182: each segment's length is its buffer's, and a message that has a send segment has an
opcode byte in the first of them and fits the FIFO. A message with no send segment is admitted. -/
def admits (segs : List Segment) : Bool :=
  segs.all (fun seg => seg.len == seg.buf.length) &&
    match firstSend segs with
    | none => true
    | some seg =>
      seg.len != 0 && decide (totalLen .send segs - 1 + totalLen .recv segs ≤ Config.fifoCapacity)

/-- `Place(segs, k)` of R190, counting segments from `t`: the segment and the place in it of received byte `k`. -/
def placeFrom : List Segment → Nat → Nat → Option (Nat × Nat)
  | [], _, _ => none
  | seg :: rest, k, t =>
    match seg.dir with
    | .send => placeFrom rest k (t + 1)
    | .recv => if k < seg.len then some (t, k) else placeFrom rest (k - seg.len) (t + 1)

/-- `Place(segs, k)` of R190. -/
def place (segs : List Segment) (k : Nat) : Option (Nat × Nat) := placeFrom segs k 0

/-- Byte `m` of segment `t`'s buffer exists, so that it can be written (R13, R182). -/
def bufHas (segs : List Segment) (t m : Nat) : Bool :=
  match segs[t]? with
  | some seg => decide (m < seg.buf.length)
  | none => false

/-- `BufWrite(segs[t], m, b)` of R13, for a byte that exists (`bufHas`). -/
def bufWrite (segs : List Segment) (t m : Nat) (b : Byte) : List Segment :=
  segs.modify t (fun seg => { seg with buf := seg.buf.set m b })

end Sys2Proof.Machine
end

