-- ==== Sys2Proof/Machine/Ops.lean ====
section
/-! DEFINITION. The named operations: the free-value source (R13), the FIFO cells (R34), the device's answers, its trigger,
its transitions and its turn (R105, R106, R220 to R233), the engine's port accesses (R65, R67), its port operations
(R101 to R108), the error path and the return from it (R270, R271, R192). -/

namespace Sys2Proof.Machine

/-! ## Free values (R13) -/

/-- The next free choice, and the source after it. -/
def Oracle.next (o : Oracle) : Nat × Oracle :=
  match o.tape with
  | [] => (Config.free Nat o.used, { tape := [], used := o.used + 1 })
  | x :: rest => (x, { tape := rest, used := o.used + 1 })

/-- `draw bits(w)`. -/
def Oracle.bits (w : Nat) (o : Oracle) : BitVec w × Oracle := (BitVec.ofNat w o.next.1, o.next.2)

/-- `draw bit`, as a Bool. -/
def Oracle.flag (o : Oracle) : Bool × Oracle := (o.next.1 % 2 == 1, o.next.2)

/-- `draw list of n bytes`. -/
def Oracle.bytes : Nat → Oracle → List Byte × Oracle
  | 0, o => ([], o)
  | n + 1, o => ((o.bits 8).1 :: (Oracle.bytes n (o.bits 8).2).1, (Oracle.bytes n (o.bits 8).2).2)

/-! ## The FIFO cells (R34), by window offset -/

/-- The byte at a window offset; an unlisted cell reads 0. -/
def Memory.read : Memory → Nat → Byte
  | [], _ => 0#8
  | (x, c) :: rest, a => if a = x then c else Memory.read rest a

/-- Storing a byte at a window offset, keeping the canonical form. -/
def Memory.write : Memory → Nat → Byte → Memory
  | [], a, b => if b = 0#8 then [] else [(a, b)]
  | (x, c) :: rest, a, b =>
    if a < x then (if b = 0#8 then (x, c) :: rest else (a, b) :: (x, c) :: rest)
    else if a = x then (if b = 0#8 then rest else (a, b) :: rest)
    else (x, c) :: Memory.write rest a b

/-- The cells that hold the bytes of a list, from an offset on. -/
def Memory.ofBytes : Nat → List Byte → Memory
  | _, [] => []
  | a, b :: rest => if b = 0#8 then Memory.ofBytes (a + 1) rest else (a, b) :: Memory.ofBytes (a + 1) rest

/-- `n` bytes from an offset on. -/
def Memory.bytes (m : Memory) : Nat → Nat → List Byte
  | _, 0 => []
  | a, n + 1 => m.read a :: Memory.bytes m (a + 1) n

/-- The canonical form: offsets strictly rising and inside the FIFO window, no cell that holds what an unlisted one reads. -/
abbrev Memory.wf (m : Memory) : Prop :=
  m.Pairwise (fun p q => p.1 < q.1) ∧
    ∀ c ∈ m, c.2 ≠ 0#8 ∧ Config.fifoBase ≤ c.1 ∧ c.1 < Config.fifoBase + Config.fifoCapacity

/-- The FIFO cells of any list of cells, in canonical form. -/
def Memory.canon (m : Memory) : Memory :=
  Memory.ofBytes Config.fifoBase (m.bytes Config.fifoBase Config.fifoCapacity)

/-! ## The device (R20 to R40, R105, R106, R220 to R233) -/

/-- Setting the sticky fault bit `havoc` (R37). -/
def Device.setHavoc (d : Device) : Device := { d with havoc := true }

/-- A bit at its place in a 32-bit register. -/
def bitAt (b : Bool) (bit : Word) : Word := if b then bit else 0#32

/-- A read of CTRL0 (R22 to R26, R105): storage, EXEC 0 while `IDLE` and a draw otherwise, FIFO_CLEAR 0, BUSY in Variant A
and a draw in Variant B. -/
def ctrl0Read (p : Params) (d : Device) (o : Oracle) : Word × Oracle :=
  let ex := if d.phase.isIdle then (false, o) else o.flag
  let bu := match p.version with
    | .a => (d.phase.busy, ex.2)
    | .b => ex.2.flag
    | .other => ex.2.flag
  ((d.ctrl0 &&& ctrl0Storage) ||| bitAt ex.1 execBit ||| bitAt bu.1 busyBit, bu.2)

/-- A read of STATUS (R31, R35, R105): BUSY and 31 drawn bits in Variant B, a draw in Variant A. -/
def statusRead (p : Params) (d : Device) (o : Oracle) : Word × Oracle :=
  match p.version with
  | .b => (bitAt d.phase.busy busyBit ||| (o.bits Config.busyPlace).1.setWidth 32, (o.bits Config.busyPlace).2)
  | .a => o.bits 32
  | .other => o.bits 32

/-- A read of TRIGGER (R30, R35, R105): bits 6:0 are storage, bit 7 is 0 while `IDLE` and a draw otherwise; a draw in
Variant A. -/
def triggerRead (p : Params) (d : Device) (o : Oracle) : Byte × Oracle :=
  match p.version with
  | .b =>
    let tr := if d.phase.isIdle then (false, o) else o.flag
    ((if tr.1 then triggerBit else 0#8) ||| d.trigger.setWidth 8, tr.2)
  | .a => o.bits 8
  | .other => o.bits 8

/-- `DevRead(off, 4)` (R105). -/
def devRead32 (p : Params) (d : Device) (r : Reg32) (o : Oracle) : Word × Oracle :=
  if d.havoc || p.version = .other then o.bits 32
  else match r with
    | .ctrl0 => ctrl0Read p d o
    | .status => statusRead p d o

/-- `DevRead(off, 1)` (R105). -/
def devRead8 (p : Params) (d : Device) (r : Reg8) (o : Oracle) : Byte × Oracle :=
  if d.havoc || p.version = .other then o.bits 8
  else match r with
    | .cs => (d.cs, o)
    | .opcode => if p.version = .b then (d.opcode, o) else o.bits 8
    | .trigger => triggerRead p d o
    | .txCount => (d.txCount, o)
    | .rxCount => (d.rxCount, o)
    | .fifo i => if d.phase.isIdle then (d.fifo.read (Config.fifoBase + i.val), o) else o.bits 8

/-- The capture of the transaction from the registers as they stand after the triggering write (R223). -/
def captureTxn (p : Params) (d : Device) : Txn :=
  { cs := d.cs.extractLsb' 0 Config.csFieldBits
    op := if p.version = .a then d.ctrl0.extractLsb' 0 Config.opcodeBits else d.opcode
    tx := d.txCount.toNat
    rx := d.rxCount.toNat
    txbytes := d.fifo.bytes Config.fifoBase d.txCount.toNat }

/-- `Trigger()` (R221): havoc before SETUP or with counts above the FIFO (R222), else the capture (R223), the phase `TX`
and the Start event (R231). -/
def triggerDevice (p : Params) (d : Device) : Device :=
  if !d.fifoPtrCleared || decide (d.txCount.toNat + d.rxCount.toNat > Config.fifoCapacity) then d.setHavoc
  else
    let t := captureTxn p d
    { d with phase := .tx t, events := d.events ++ [.start t.cs t.op t.txbytes t.rx] }

/-- A write of CTRL0 while `IDLE` (R22 to R26, R106): the stores, then FIFO_CLEAR, then the trigger. -/
def ctrl0Write (p : Params) (d : Device) (v : Word) : Device :=
  if v[Config.execPlace] && v[Config.fifoClearPlace] then d.setHavoc
  else
    let d1 := { d with ctrl0 := v &&& ctrl0Storage, fifoPtrCleared := d.fifoPtrCleared || v[Config.fifoClearPlace] }
    if v[Config.execPlace] then
      match p.version with
      | .a => triggerDevice p d1
      | .b => d1.setHavoc
      | .other => d1.setHavoc
    else d1

/-- A write of TRIGGER while `IDLE` (R30, R35, R106). -/
def triggerWrite (p : Params) (d : Device) (v : Byte) : Device :=
  match p.version with
  | .b =>
    let d1 := { d with trigger := v.setWidth Config.triggerPlace }
    if v[Config.triggerPlace] then triggerDevice p d1 else d1
  | .a => d.setHavoc
  | .other => d.setHavoc

/-- `DevWrite(off, 4, v)` (R106). -/
def devWrite32 (p : Params) (d : Device) (r : Reg32) (v : Word) : Device :=
  if p.version = .other then d.setHavoc
  else if d.havoc then d
  else if !d.phase.isIdle then d.setHavoc
  else match r with
    | .ctrl0 => ctrl0Write p d v
    | .status => d.setHavoc

/-- `DevWrite(off, 1, v)` (R106). -/
def devWrite8 (p : Params) (d : Device) (r : Reg8) (v : Byte) : Device :=
  if p.version = .other then d.setHavoc
  else if d.havoc then d
  else if !d.phase.isIdle then d.setHavoc
  else match r with
    | .cs => { d with cs := v }
    | .opcode => if p.version = .b then { d with opcode := v } else d.setHavoc
    | .trigger => triggerWrite p d v
    | .txCount => { d with txCount := v }
    | .rxCount => { d with rxCount := v }
    | .fifo i => { d with fifo := d.fifo.write (Config.fifoBase + i.val) v }

/-- Completion of a transaction (R230): the received bytes land after the transmit data; every other FIFO cell, the counts
and the opcode become draws; the Done event is recorded and the phase is `IDLE`. -/
def completeTxn (p : Params) (t : Txn) (d : Device) (o : Oracle) : Device × Oracle :=
  let rxb := o.bytes t.rx
  let lo := rxb.2.bytes t.tx
  let hi := lo.2.bytes (Config.fifoCapacity - t.tx - t.rx)
  let txn := hi.2.bits 8
  let rxn := txn.2.bits 8
  let opn := rxn.2.bits 8
  ({ d with
      fifo := Memory.ofBytes Config.fifoBase ((lo.1 ++ rxb.1 ++ hi.1).take Config.fifoCapacity)
      txCount := txn.1
      rxCount := rxn.1
      ctrl0 := if p.version = .a then (d.ctrl0 &&& ~~~opcodeMask) ||| opn.1.setWidth 32 else d.ctrl0
      opcode := if p.version = .a then d.opcode else opn.1
      events := d.events ++ [.done t.cs t.op t.txbytes t.rx rxb.1]
      phase := .idle }, opn.2)

/-- One autonomous transition of the device, the scheduler's choice `n` picking among the enabled ones (R220, R225 to R229).
`IDLE` has none. -/
def deviceMove (p : Params) (n : Nat) (d : Device) (o : Oracle) : Device × Oracle :=
  match d.phase with
  | .idle => (d, o)
  | .tx t =>
    if t.rx = 0 then completeTxn p t d o
    else if p.rxGapAdmitted && n % 2 == 0 then ({ d with phase := .gap t }, o)
    else ({ d with phase := .rx t }, o)
  | .gap t => ({ d with phase := .rx t }, o)
  | .rx t => completeTxn p t d o

/-- Up to `k` autonomous transitions: before each the scheduler may stop, by the choice 0 (R68, R232). -/
def deviceMoves (p : Params) : Nat → Device → Oracle → Device × Oracle
  | 0, d, o => (d, o)
  | k + 1, d, o =>
    if d.phase.isIdle then (d, o)
    else if o.next.1 = 0 then (d, o.next.2)
    else
      deviceMoves p k (deviceMove p o.next.1 d o.next.2).1 (deviceMove p o.next.1 d o.next.2).2

/-- What the device may be under havoc: anything, but havoc stays set (R37, R233). The FIFO is put in canonical form and the
CTRL0 bits that are not storage are dropped; neither can be seen. -/
def havocDevice (n : Nat) : Device :=
  let d := Config.free Device n
  { d with havoc := true, fifo := d.fifo.canon, ctrl0 := d.ctrl0 &&& ctrl0Storage }

/-- The device's turn, taken before every engine access: any number of its steps (R68). Three transitions are the longest
chain there is, `TX`, `GAP`, `RX`, `IDLE`. -/
def deviceTurn (p : Params) (d : Device) (o : Oracle) : Device × Oracle :=
  if d.havoc then (havocDevice o.used, { o with used := o.used + 1 })
  else deviceMoves p 3 d o

/-! ## Updates of the state -/

/-- The device's turn, in the whole state. -/
def State.turn (s : State) : State :=
  { s with dev := (deviceTurn s.params s.dev s.oracle).1, oracle := (deviceTurn s.params s.dev s.oracle).2 }

/-- `x[RES] <- v` (R42). -/
def State.setRes (s : State) (v : Word) : State := { s with eng := { s.eng with res := some v } }

/-- `pc <- L` (R13). -/
def State.goto (s : State) (l : Label) : State := { s with eng := { s.eng with pc := l } }

/-- `x[OPC] <- v`, the spec's `none` included (R42). -/
def State.setOpc (s : State) (v : Option Byte) : State := { s with eng := { s.eng with opc := some v } }

/-- `x[TXC] <- n` (R42). -/
def State.setTxc (s : State) (n : Nat) : State := { s with eng := { s.eng with txc := some n } }

/-- `x[RXC] <- n` (R42). -/
def State.setRxc (s : State) (n : Nat) : State := { s with eng := { s.eng with rxc := some n } }

/-- `x[CUR] <- n` (R42). -/
def State.setCur (s : State) (n : Nat) : State := { s with eng := { s.eng with cur := some n } }

/-- `x[STATUS] <- st` (R42). -/
def State.setStatus (s : State) (st : Status) : State := { s with eng := { s.eng with status := some st } }

/-- `x[ACTUAL] <- n` (R42). -/
def State.setActual (s : State) (n : Nat) : State := { s with eng := { s.eng with actual := some (some n) } }

/-- `x[NPOLL] <- n` (R42). -/
def State.setNpoll (s : State) (n : Nat) : State := { s with eng := { s.eng with npoll := some n } }

/-- The elapsed time of the wait (R163). -/
def State.setElapsed (s : State) (n : Nat) : State := { s with eng := { s.eng with elapsed := n } }

/-- The source of free choices after a draw. -/
def State.setOracle (s : State) (o : Oracle) : State := { s with oracle := o }

/-- The caller's buffers of the message in progress (R60). -/
def State.setMsg (s : State) (m : Message) : State := { s with eng := { s.eng with msg := some m } }

/-- A refusal: no access, no completion record, the sticky mark set (R47, R266). -/
def State.refuse (s : State) : State := { s with refused := true }

/-! ## Reads of the engine's working registers (R13, R268) -/

/-- What a step of the engine answers: a state, or the fault of R268. -/
abbrev Run (α : Type) := Except Fault α

/-- `x[NAME]`: a fault where the register holds no value (R42, R268, U14). -/
def readReg {α : Type} (r : WorkReg) (v : Option α) : Run α :=
  match v with
  | some a => .ok a
  | none => .error (.unwrittenRegister r)

/-- The message in progress. -/
def readMsg (s : State) : Run Message :=
  match s.eng.msg with
  | some m => .ok m
  | none => .error .noMessage

/-! ## Port accesses: one atomic step each, in program order, after any steps of the device (R65, R67, R68) -/

/-- `PortRead(off, 1)`. -/
def portRead8 (r : Reg8) (s : State) : Byte × State :=
  let q := devRead8 s.turn.params s.turn.dev r s.turn.oracle
  (q.1, { s.turn with oracle := q.2, trace := s.turn.trace ++ [.rd8 r.offset q.1] })

/-- `PortRead(off, 4)`. -/
def portRead32 (r : Reg32) (s : State) : Word × State :=
  let q := devRead32 s.turn.params s.turn.dev r s.turn.oracle
  (q.1, { s.turn with oracle := q.2, trace := s.turn.trace ++ [.rd32 r.offset q.1] })

/-- `PortWrite(off, 1, v)`. -/
def portWrite8 (r : Reg8) (v : Byte) (s : State) : State :=
  { s.turn with
      dev := devWrite8 s.turn.params s.turn.dev r v
      trace := s.turn.trace ++ [.wr8 r.offset v] }

/-- `PortWrite(off, 4, v)`. -/
def portWrite32 (r : Reg32) (v : Word) (s : State) : State :=
  { s.turn with
      dev := devWrite32 s.turn.params s.turn.dev r v
      trace := s.turn.trace ++ [.wr32 r.offset v] }

/-- What the device takes the value `c` read before for, when a read-modify-write writes it back. The spec contradicts itself
where `c` holds a self-clearing bit, which is stale at an accepted write: R310 says that it has no effect, R23, R24, R30, R106
and R267 that it triggers or sets havoc. A free choice decides between the two (assumption 25). -/
def writtenBack {w : Nat} (c selfClearing : BitVec w) (o : Oracle) : BitVec w × Oracle :=
  if c &&& ~~~selfClearing = c then (c, o)
  else (if o.flag.1 then c else c &&& ~~~selfClearing, o.flag.2)

/-- The write of an 8-bit read-modify-write that read `c`: the value on the port is R107's, and the device takes a stale
self-clearing bit of `c` as `writtenBack` says. -/
def portWriteBack8 (r : Reg8) (c setBits clearBits : Byte) (s : State) : State :=
  let q := writtenBack c r.selfClearing s.turn.oracle
  { portWrite8 r (setClear q.1 setBits clearBits) s with
      oracle := q.2
      trace := s.trace ++ [.wr8 r.offset (setClear c setBits clearBits)] }

/-- The write of a 32-bit read-modify-write that read `c`: the value on the port is R108's, and the device takes a stale
self-clearing bit of `c` as `writtenBack` says. -/
def portWriteBack32 (r : Reg32) (c setBits clearBits : Word) (s : State) : State :=
  let q := writtenBack c r.selfClearing s.turn.oracle
  { portWrite32 r (setClear q.1 setBits clearBits) s with
      oracle := q.2
      trace := s.trace ++ [.wr32 r.offset (setClear c setBits clearBits)] }

/-! ## Port operations: the legality check, then the accesses (R101 to R109) -/

/-- RD8 (R101). -/
def rd8 (off : Nat) (s : State) : State :=
  match port8 off with
  | none => s.refuse
  | some r => (portRead8 r s).2.setRes ((portRead8 r s).1.setWidth 32)

/-- WR8 (R102). -/
def wr8 (off : Nat) (v : Byte) (s : State) : State :=
  match port8 off with
  | none => s.refuse
  | some r => portWrite8 r v s

/-- RD32 (R103). -/
def rd32 (off : Nat) (s : State) : State :=
  match port32 off with
  | none => s.refuse
  | some r => (portRead32 r s).2.setRes (portRead32 r s).1

/-- WR32 (R104). -/
def wr32 (off : Nat) (v : Word) (s : State) : State :=
  match port32 off with
  | none => s.refuse
  | some r => portWrite32 r v s

/-- SC8 (R107): two accesses, RES written between them. -/
def sc8 (off : Nat) (setBits clearBits : Byte) (s : State) : State :=
  match port8 off with
  | none => s.refuse
  | some r =>
    let c := (portRead8 r s).1
    portWriteBack8 r c setBits clearBits ((portRead8 r s).2.setRes (c.setWidth 32))

/-- SC32 (R108): two accesses, RES written between them. -/
def sc32 (off : Nat) (setBits clearBits : Word) (s : State) : State :=
  match port32 off with
  | none => s.refuse
  | some r =>
    let c := (portRead32 r s).1
    portWriteBack32 r c setBits clearBits ((portRead32 r s).2.setRes c)

/-! ## Starting and ending an operation, the error path and the return from it -/

/-- An operation starts only when `pc = IDLE` (R43). -/
def startOp (s : State) (k : State → Host.Outcome State Fault Refusal) : Host.Outcome State Fault Refusal :=
  if s.eng.pc = .idle then k s else .refused .operationInProgress

/-- The outcome of the engine's own steps. -/
def ofRun (r : Run State) : Host.Outcome State Fault Refusal :=
  match r with
  | .ok s => .next s
  | .error f => .fault f

/-- The end of a pseudo-operation: RES holds its status code (R42, R260, C7). -/
def endOp (st : Status) (s : State) : Status × State := (st, s.setRes st.code)

/-- TAKING THE ERROR PATH, `raise Status(s)` (R270): STATUS is written, the label is `FINAL`, and nothing is undone. -/
def raiseStatus (st : Status) (s : State) : State := (s.setStatus st).goto .final

/-- The length a completion record carries: ACTUAL on Success, the host's prior value, a draw, otherwise (R45, R192). On
Success ACTUAL has been set (R191); the fault where it is the spec's `unset` is the model's own (assumption 10). -/
def deliveredLength (st : Status) (s : State) : Run (Nat × Oracle) :=
  match st with
  | .success => do
    let actual ← readReg .actual s.eng.actual
    match actual with
    | some n => return (n, s.oracle)
    | none => .error (.noneInRegister .actual)
  | .invalidArgument => .ok s.oracle.next
  | .unsupportedVersion => .ok s.oracle.next
  | .timeout => .ok s.oracle.next

/-- THE RETURN from the error path and from a message that succeeded: NOTIFY (R192, R271). The record is delivered, OPC, TXC,
RXC, CUR and ACTUAL are cleared, RES holds the status code (assumption 9), and the engine is `IDLE`. -/
def deliver (s : State) : Run State := do
  let st ← readReg .status s.eng.status
  let m ← readMsg s
  let len ← deliveredLength st s
  return {
    s with
      oracle := len.2
      completions := s.completions ++ [{ status := st, actualLength := len.1, segs := m.segs }]
      eng := { s.eng with
                pc := .idle, res := some st.code, opc := none, txc := none, rxc := none, cur := none
                actual := none, msg := none } }

end Sys2Proof.Machine
end

