-- ==== Sys2Proof/Machine/BusyWait.lean ====
section
/-! DEFINITION. The busy-wait poller: BWAIT (43_busy_wait.md). -/

namespace Sys2Proof.Machine

/-- `busyStatusLocation()` (R127): the register whose busy bit is polled; the query fails for an unknown tag. -/
def busyLocation : Version → Query Reg32
  | .a => .ok .ctrl0
  | .b => .ok .status
  | .other => .error .unsupportedVersion

/-- `TimeoutNow(n)` (R161). -/
def timeoutNow (p : Params) (n : Nat) (o : Oracle) : Bool × Oracle :=
  match p.pollTiming with
  | .exact => (boundExceeded n, o)
  | .loose => if n < Config.maxBusyReads then o.flag else (true, o)

/-- `FinalRead()` (R162). -/
def finalRead (p : Params) (o : Oracle) : Bool × Oracle :=
  match p.pollTiming with
  | .exact => (false, o)
  | .loose => o.flag

/-- Time passing between two reads of a wait (R163): `slept` time-units, and under `LOOSE` any number more. -/
def pass (slept : Nat) (s : State) : State :=
  match s.params.pollTiming with
  | .exact => s.setElapsed (s.eng.elapsed + slept)
  | .loose => (s.setElapsed (s.eng.elapsed + slept + s.oracle.next.1)).setOracle s.oracle.next.2

/-- The end of a wait whose bound is exceeded: under `LOOSE` perhaps one more read, which then decides (R160, R162). Between
two reads of a wait lies at least one interval, this read included (R163). -/
def boundReached (r : Reg32) (s : State) : Status × State :=
  let f := finalRead s.params s.oracle
  let s1 := s.setOracle f.2
  if f.1 then
    let q := portRead32 r (pass Config.pollInterval s1)
    if q.1[Config.busyPlace] then (.timeout, q.2) else (.success, q.2)
  else (.timeout, s1)

/-- The poll loop of R160 after `n` busy reads, at most `k` more. `TimeoutNow` holds at the last of `MAX_BUSY_READS` reads, so
`k = 0` is not reached from `bwait`. -/
def pollLoop (r : Reg32) : Nat → Nat → State → Status × State
  | 0, _, s => (.timeout, s)
  | k + 1, n, s =>
    let q := portRead32 r s
    if q.1[Config.busyPlace] then
      let s1 := q.2.setNpoll (n + 1)
      let t := timeoutNow s1.params (n + 1) s1.oracle
      let s2 := s1.setOracle t.2
      if t.1 then boundReached r s2
      else pollLoop r k (n + 1) (pass Config.pollInterval s2)
    else (.success, q.2)

/-- The busy-wait primitive (R160). Where the query fails it ends before NPOLL is set (R160; V-BW-8 of
95_test_vectors.md). -/
def bwait (s : State) : Status × State :=
  match busyLocation s.params.version with
  | .error st => endOp st s
  | .ok r =>
    let w := pollLoop r Config.maxBusyReads 0 ((s.setNpoll 0).setElapsed 0)
    endOp w.1 w.2

/-- BWAIT (R160). -/
def execBwait (s : State) : Host.Outcome State Fault Refusal :=
  startOp s (fun s => .next (bwait s).2)

end Sys2Proof.Machine
end

