-- ==== Sys2Proof/Machine/ChipSelect.lean ====
section
/-! DEFINITION. The chip-select controller: CSSEL and CSDESEL (42_chip_select.md). -/

namespace Sys2Proof.Machine

/-- `selectChip(i)` (R140). -/
def cssel (i : BitVec 8) (s : State) : State :=
  (endOp .success (sc8 Reg8.cs.offset (csIndex i) csMask s)).2

/-- `deselectChip(index)` (R141): RD8 CS, then WR8 of the byte read with the field cleared; the index is ignored. -/
def csdesel (s : State) : State :=
  let c := (portRead8 .cs s).1
  (endOp .success (portWrite8 .cs (c &&& ~~~csMask) ((portRead8 .cs s).2.setRes (c.setWidth 32)))).2

/-- CSSEL i (R140). -/
def execCssel (i : BitVec 8) (s : State) : Host.Outcome State Fault Refusal :=
  startOp s (fun s => .next (cssel i s))

/-- CSDESEL i (R141). -/
def execCsdesel (_i : BitVec 8) (s : State) : Host.Outcome State Fault Refusal :=
  startOp s (fun s => .next (csdesel s))

end Sys2Proof.Machine
end

