-- ==== Sys2Proof/Machine/VersionPolicy.lean ====
section
/-! DEFINITION. The version policy: SETOP and TRIG (41_version_policy.md). Each answers its status, which XFER reads. -/

namespace Sys2Proof.Machine

/-- `setOpcode(b)`: CTRL0's low byte in Variant A (R121), the OPCODE register in Variant B (R122), no access and
UnsupportedVersion otherwise (R123). -/
def setop (b : Byte) (s : State) : Status × State :=
  match s.params.version with
  | .a => endOp .success (sc32 Reg32.ctrl0.offset (b.setWidth 32) opcodeMask s)
  | .b => endOp .success (wr8 Reg8.opcode.offset b s)
  | .other => endOp .unsupportedVersion s

/-- `triggerExecute()`: EXEC in Variant A (R124), TRIGGER bit 7 in Variant B (R125), no access and UnsupportedVersion
otherwise (R126). -/
def trig (s : State) : Status × State :=
  match s.params.version with
  | .a => endOp .success (sc32 Reg32.ctrl0.offset execBit execBit s)
  | .b => endOp .success (sc8 Reg8.trigger.offset triggerBit triggerBit s)
  | .other => endOp .unsupportedVersion s

/-- SETOP b (R121 to R123). -/
def execSetop (b : Byte) (s : State) : Host.Outcome State Fault Refusal :=
  startOp s (fun s => .next (setop b s).2)

/-- TRIG (R124 to R126). -/
def execTrig (s : State) : Host.Outcome State Fault Refusal :=
  startOp s (fun s => .next (trig s).2)

end Sys2Proof.Machine
end

