-- ==== Sys2Proof/Machine/FifoEngine.lean ====
section
/-! DEFINITION. The FIFO transfer engine: SETUP and XFER (44_fifo_engine.md). -/

namespace Sys2Proof.Machine

/-- The setup step (R181): FIFO_CLEAR set by a read-modify-write of CTRL0; RES = 0 in every version. -/
def setup (s : State) : State :=
  (endOp .success (sc32 Reg32.ctrl0.offset fifoClearBit fifoClearBit s)).2

/-- SETUP (R181). -/
def execSetup (s : State) : Host.Outcome State Fault Refusal :=
  startOp s (fun s => .next (setup s))

/-- One transmit byte of LOAD (R185): written at the cursor, which advances with TXC. -/
def loadByte (b : Byte) (s : State) : Run State := do
  let cur ← readReg .cur s.eng.cur
  let txc ← readReg .txc s.eng.txc
  return ((wr8 (Config.fifoBase + cur) b s).setCur (cur + 1)).setTxc (txc + 1)

/-- The transmit bytes of one segment, in order (R72, R185). -/
def loadBytes : List Byte → State → Run State
  | [], s => .ok s
  | b :: rest, s => do
    let s1 ← loadByte b s
    loadBytes rest s1

/-- One segment of LOAD (R185): the first send segment gives up its first byte as the opcode, a receive segment only counts.
A send segment whose buffer is shorter than its length, or that has no byte for the opcode, is one admission (R182) refuses:
the fault at it is the model's own (assumption 10). -/
def loadSegment (seg : Segment) (s : State) : Run State :=
  match seg.dir with
  | .recv => do
    let rxc ← readReg .rxc s.eng.rxc
    return s.setRxc (rxc + seg.len)
  | .send => if seg.buf.length < seg.len then .error .noSuchBufferByte else do
    let opc ← readReg .opc s.eng.opc
    match opc, seg.buf.take seg.len with
    | none, [] => .error .noSuchBufferByte
    | none, b :: rest => loadBytes rest (s.setOpc (some b))
    | some _, bs => loadBytes bs s

/-- `Load(segs)` (R185). -/
def loadSegments : List Segment → State → Run State
  | [], s => .ok s
  | seg :: rest, s => do
    let s1 ← loadSegment seg s
    loadSegments rest s1

/-- `BufWrite(segs[t], m, RES[7:0])` at the place of received byte `k` (R189, R190). A message with no such place, or with a
buffer shorter than its segment's length there, is one admission (R182) refuses: the fault is the model's own (assumption
10). -/
def storeReceived (k : Nat) (b : Byte) (s : State) : Run State := do
  let m ← readMsg s
  match place m.segs k with
  | none => .error .noSuchBufferByte
  | some tm =>
    if bufHas m.segs tm.1 tm.2 then .ok (s.setMsg { m with segs := bufWrite m.segs tm.1 tm.2 b })
    else .error .noSuchBufferByte

/-- `Drain(segs)` (R189): `count` bytes from received byte `k` on. -/
def drainBytes (txc : Nat) : Nat → Nat → State → Run State
  | 0, _, s => .ok s
  | count + 1, k, s => do
    let s1 := rd8 (Config.fifoBase + txc + k) s
    let res ← readReg .res s1.eng.res
    let s2 ← storeReceived k (res.extractLsb' 0 8) s1
    drainBytes txc count (k + 1) s2

/-- The end of the success path: STATUS and ACTUAL are set, and FINAL is next (R183, R191). -/
def succeed (s : State) : Run State := do
  let txc ← readReg .txc s.eng.txc
  let rxc ← readReg .rxc s.eng.rxc
  return ((s.setStatus .success).setActual (txc + rxc + 1)).goto .final

/-- What follows an operation inside XFER: on Success the next label, else the error path (R183, R264, R270). -/
def continueWith (r : Status × State) (l : Label) : Run State :=
  match r.1 with
  | .success => .ok (r.2.goto l)
  | .invalidArgument => .ok (raiseStatus .invalidArgument r.2)
  | .unsupportedVersion => .ok (raiseStatus .unsupportedVersion r.2)
  | .timeout => .ok (raiseStatus .timeout r.2)

/-- SELECT (R184). -/
def stepSelect (s : State) : Run State := do
  let m ← readMsg s
  return (cssel m.cs s).goto .load

/-- LOAD and the check of R186. -/
def stepLoad (s : State) : Run State := do
  let m ← readMsg s
  let s1 ← loadSegments m.segs s
  let opc ← readReg .opc s1.eng.opc
  match opc with
  | none => return raiseStatus .invalidArgument s1
  | some _ => return s1.goto .prog

/-- PROG (R187): TX_COUNT, then RX_COUNT. -/
def stepProg (s : State) : Run State := do
  let txc ← readReg .txc s.eng.txc
  let rxc ← readReg .rxc s.eng.rxc
  return (wr8 Reg8.rxCount.offset (BitVec.ofNat 8 rxc)
    (wr8 Reg8.txCount.offset (BitVec.ofNat 8 txc) s)).goto .setop

/-- SETOP inside XFER (R188). LOAD has left an opcode, or the error path was taken (R186); the fault where OPC is the
spec's `none` is the model's own (assumption 10). -/
def stepSetop (s : State) : Run State := do
  let opc ← readReg .opc s.eng.opc
  match opc with
  | none => .error (.noneInRegister .opc)
  | some b => continueWith (setop b s) .trig

/-- TRIG inside XFER (R188). -/
def stepTrig (s : State) : Run State := continueWith (trig s) .wait1

/-- WAIT1 (R188): on Success the second wait if bytes are expected, else the end of the success path. -/
def stepWait1 (s : State) : Run State := do
  let rxc ← readReg .rxc s.eng.rxc
  let s1 ← continueWith (bwait s) .wait2
  if s1.eng.pc = .wait2 ∧ rxc = 0 then succeed s1 else return s1

/-- WAIT2 (R189). -/
def stepWait2 (s : State) : Run State := continueWith (bwait s) .drain

/-- DRAIN (R189), then the end of the success path. -/
def stepDrain (s : State) : Run State := do
  let txc ← readReg .txc s.eng.txc
  let rxc ← readReg .rxc s.eng.rxc
  let s1 ← drainBytes txc rxc 0 s
  succeed s1

/-- The deassertion at the end of a message, where the version requires it; where the query fails there is none and the
status stands (R128, R191). -/
def finalized (s : State) : State :=
  match deassertRequired s.params.version with
  | .ok true => csdesel s
  | .ok false => s
  | .error _ => s

/-- FINAL (R191): the deassertion, on every path. -/
def stepFinal (s : State) : Run State := .ok ((finalized s).goto .notify)

/-- One labelled step of the engine (R43, R183). -/
def labelStep (s : State) : Run State :=
  match s.eng.pc with
  | .idle => .ok s
  | .select => stepSelect s
  | .load => stepLoad s
  | .prog => stepProg s
  | .setop => stepSetop s
  | .trig => stepTrig s
  | .wait1 => stepWait1 s
  | .wait2 => stepWait2 s
  | .drain => stepDrain s
  | .final => stepFinal s
  | .notify => deliver s

/-- The engine's steps until it is `IDLE`, at most `n` labels. -/
def runLabels : Nat → State → Run State
  | 0, s => .ok s
  | n + 1, s => do
    let s1 ← labelStep s
    runLabels n s1

/-- The labels XFER passes through before it is `IDLE` again (R43): ten on its longest path. -/
abbrev labelCount : Nat := 10

/-- The working registers at the start of an XFER (R42, R183), the message in the engine and the label `SELECT`. -/
def startXfer (i : BitVec 8) (segs : List Segment) (s : State) : State :=
  { s with eng := { s.eng with
      pc := .select, opc := some none, txc := some 0, rxc := some 0, cur := some 0
      status := some .success, actual := some none, msg := some { cs := i, segs := segs } } }

/-- XFER i, segs (R183): admission (R182), then the engine's steps through NOTIFY. -/
def execXfer (i : BitVec 8) (segs : List Segment) (s : State) : Host.Outcome State Fault Refusal :=
  startOp s (fun s =>
    if admits segs then ofRun (runLabels labelCount (startXfer i segs s)) else .next s.refuse)

end Sys2Proof.Machine
end

