-- ==== Sys2Proof/Machine/RegisterAccess.lean ====
section
/-! DEFINITION. The register access layer: RD8, WR8, RD32, WR32, SC8, SC32 (40_register_access.md). -/

namespace Sys2Proof.Machine

/-- RD8 off (R101). -/
def execRd8 (off : BitVec 8) (s : State) : Host.Outcome State Fault Refusal :=
  startOp s (fun s => .next (rd8 off.toNat s))

/-- WR8 off, v (R102). -/
def execWr8 (off : BitVec 8) (v : Byte) (s : State) : Host.Outcome State Fault Refusal :=
  startOp s (fun s => .next (wr8 off.toNat v s))

/-- RD32 off (R103). -/
def execRd32 (off : BitVec 8) (s : State) : Host.Outcome State Fault Refusal :=
  startOp s (fun s => .next (rd32 off.toNat s))

/-- WR32 off, v (R104). -/
def execWr32 (off : BitVec 8) (v : Word) (s : State) : Host.Outcome State Fault Refusal :=
  startOp s (fun s => .next (wr32 off.toNat v s))

/-- SC8 off, set, clear (R107). -/
def execSc8 (off : BitVec 8) (setBits clearBits : Byte) (s : State) : Host.Outcome State Fault Refusal :=
  startOp s (fun s => .next (sc8 off.toNat setBits clearBits s))

/-- SC32 off, set, clear (R108). -/
def execSc32 (off : BitVec 8) (setBits clearBits : Word) (s : State) : Host.Outcome State Fault Refusal :=
  startOp s (fun s => .next (sc32 off.toNat setBits clearBits s))

end Sys2Proof.Machine
end

