-- ==== Sys2Proof/Machine/Dispatch.lean ====
section
/-! DEFINITION. One arm per operation, each a direct call of its meaning. -/

namespace Sys2Proof.Machine

def exec (i : Instr) (s : State) : Host.Outcome State Fault Refusal :=
  match i with
  | .rd8 off => Sys2Proof.Machine.execRd8 off s
  | .wr8 off v => Sys2Proof.Machine.execWr8 off v s
  | .rd32 off => Sys2Proof.Machine.execRd32 off s
  | .wr32 off v => Sys2Proof.Machine.execWr32 off v s
  | .sc8 off setBits clearBits => Sys2Proof.Machine.execSc8 off setBits clearBits s
  | .sc32 off setBits clearBits => Sys2Proof.Machine.execSc32 off setBits clearBits s
  | .setup => Sys2Proof.Machine.execSetup s
  | .setop b => Sys2Proof.Machine.execSetop b s
  | .trig => Sys2Proof.Machine.execTrig s
  | .bwait => Sys2Proof.Machine.execBwait s
  | .cssel i1 => Sys2Proof.Machine.execCssel i1 s
  | .csdesel i1 => Sys2Proof.Machine.execCsdesel i1 s
  | .xfer i1 segs => Sys2Proof.Machine.execXfer i1 segs s

end Sys2Proof.Machine
end

