-- ==== Sys2Proof/WellFormed.lean ====
section
/-! DEFINITION. Which operations the rules give a meaning: a port operation at a legal offset and width (R86), a message
that is admitted (R182). Every other operation is well-formed as it stands. (R85 calls a port operation at an illegal
offset "well-formed as a word": that is `decode` answering an instruction; executing it is refused.) -/

namespace Sys2Proof

/-- The check of R86 and R182; an operation that fails it is refused when executed (R266). -/
def Instr.wellFormed : Instr → Bool
  | .rd8 off => (Machine.port8 off.toNat).isSome
  | .wr8 off _ => (Machine.port8 off.toNat).isSome
  | .rd32 off => (Machine.port32 off.toNat).isSome
  | .wr32 off _ => (Machine.port32 off.toNat).isSome
  | .sc8 off _ _ => (Machine.port8 off.toNat).isSome
  | .sc32 off _ _ => (Machine.port32 off.toNat).isSome
  | .setup => true
  | .setop _ => true
  | .trig => true
  | .bwait => true
  | .cssel _ => true
  | .csdesel _ => true
  | .xfer _ segs => Machine.admits segs

end Sys2Proof
end

