-- ==== Sys2Proof/Decode.lean ====
section
/-! DEFINITION. The decoder of the operation word and its operand record (R81 to R84), total, rejecting by name; then the
encoder, and the same decoder read from the bits of spec/opcode_table.json. -/

namespace Sys2Proof

/-- Why a word and its record spell no operation (R84). -/
inductive DecodeError where
  /-- `op` is 0x6, 0x7 or 0xF. -/
  | reservedOp (op : BitVec 4)
  /-- The reserved field `z` is not zero. -/
  | reservedField (z : BitVec 4)
  /-- A SETUP, TRIG or BWAIT word with `imm8` not zero. -/
  | immediateNotZero (imm : BitVec 8)
  /-- The record is not of the shape `op` calls for (R81). R84 does not list the case: refusing it is the model's choice
(assumption 24). -/
  | recordShape
  deriving DecidableEq, Repr

/-- `op`, bits 15:12 (R81). -/
def opField (w : OpWord) : BitVec 4 := w.extractLsb' 12 4

/-- `z`, bits 11:8 (R81). -/
def zField (w : OpWord) : BitVec 4 := w.extractLsb' 8 4

/-- `imm8`, bits 7:0 (R81). -/
def immField (w : OpWord) : BitVec 8 := w.extractLsb' 0 8

/-- The operation of a SETUP, TRIG or BWAIT word: its `imm8` must be 0 (R81, R84). -/
def decodePlain (imm : BitVec 8) (r : Record) (i : Instr) : Except DecodeError Instr :=
  match r with
  | .empty => if imm = 0#8 then .ok i else .error (.immediateNotZero imm)
  | _ => .error .recordShape

/-- The operation a word and its record spell, by the `op` field (R83, R84). -/
def decodeOp (op : BitVec 4) (imm : BitVec 8) (r : Record) : Except DecodeError Instr :=
  match op.toNat with
  | 0x0 => match r with | .empty => .ok (.rd8 imm) | _ => .error .recordShape
  | 0x1 => match r with | .byte v => .ok (.wr8 imm v) | _ => .error .recordShape
  | 0x2 => match r with | .empty => .ok (.rd32 imm) | _ => .error .recordShape
  | 0x3 => match r with | .word v => .ok (.wr32 imm v) | _ => .error .recordShape
  | 0x4 => match r with | .setClear8 a c => .ok (.sc8 imm a c) | _ => .error .recordShape
  | 0x5 => match r with | .setClear32 a c => .ok (.sc32 imm a c) | _ => .error .recordShape
  | 0x8 => decodePlain imm r .setup
  | 0x9 => match r with | .empty => .ok (.setop imm) | _ => .error .recordShape
  | 0xA => decodePlain imm r .trig
  | 0xB => decodePlain imm r .bwait
  | 0xC => match r with | .empty => .ok (.cssel imm) | _ => .error .recordShape
  | 0xD => match r with | .empty => .ok (.csdesel imm) | _ => .error .recordShape
  | 0xE => match r with | .segs l => .ok (.xfer imm l) | _ => .error .recordShape
  | _ => .error (.reservedOp op)

/-- The decoder: total, and refusing every word of R84. -/
def decode (q : Request) : Except DecodeError Instr :=
  if zField q.word = 0#4 then decodeOp (opField q.word) (immField q.word) q.record
  else .error (.reservedField (zField q.word))

/-- The operation word with `z = 0` (R81). -/
def opWord (op : BitVec 4) (imm : BitVec 8) : OpWord := (op ++ 0#4 ++ imm : BitVec 16)

/-- The encoder, from the same map (R81, R83). -/
def encode : Instr → Request
  | .rd8 off => ⟨opWord 0x0#4 off, .empty⟩
  | .wr8 off v => ⟨opWord 0x1#4 off, .byte v⟩
  | .rd32 off => ⟨opWord 0x2#4 off, .empty⟩
  | .wr32 off v => ⟨opWord 0x3#4 off, .word v⟩
  | .sc8 off a c => ⟨opWord 0x4#4 off, .setClear8 a c⟩
  | .sc32 off a c => ⟨opWord 0x5#4 off, .setClear32 a c⟩
  | .setup => ⟨opWord 0x8#4 0#8, .empty⟩
  | .setop b => ⟨opWord 0x9#4 b, .empty⟩
  | .trig => ⟨opWord 0xA#4 0#8, .empty⟩
  | .bwait => ⟨opWord 0xB#4 0#8, .empty⟩
  | .cssel i => ⟨opWord 0xC#4 i, .empty⟩
  | .csdesel i => ⟨opWord 0xD#4 i, .empty⟩
  | .xfer i segs => ⟨opWord 0xE#4 i, .segs segs⟩

/-- The operand record read from the bits above the word, lowest operand first (assumption 11). The spec lays a segment
list out in no bits, so XFER reads the empty list. -/
def recordOfBits (op : BitVec 4) (rest : Nat) : Record :=
  match op.toNat with
  | 0x1 => .byte (BitVec.ofNat 8 rest)
  | 0x3 => .word (BitVec.ofNat 32 rest)
  | 0x4 => .setClear8 (BitVec.ofNat 8 rest) (BitVec.ofNat 8 (rest / 2 ^ 8))
  | 0x5 => .setClear32 (BitVec.ofNat 32 rest) (BitVec.ofNat 32 (rest / 2 ^ 32))
  | 0xE => .segs []
  | _ => .empty

/-- The request whose bits are the low `nbits` bits of `w`, every bit above them 0. -/
def requestOfBits (nbits w : Nat) : Request :=
  let bits := w % 2 ^ nbits
  let word := BitVec.ofNat 16 bits
  { word := word, record := recordOfBits (opField word) (bits / 2 ^ 16) }

/-- The instruction the decoder reads from a row of the opcode table. -/
def decodeTableWord (nbits w : Nat) : Option Instr :=
  match decode (requestOfBits nbits w) with
  | .ok i => some i
  | .error _ => none

end Sys2Proof
end

