-- ==== Sys2Proof/Machine/Fetch.lean ====
section
/-! DEFINITION. Where the engine's next operation comes from: the host's requests (R80, R282), and the continuation of an
operation in progress. -/

namespace Sys2Proof.Machine

/-- What an idle engine finds. -/
inductive Fetched where
  /-- The host has handed over nothing. -/
  | nothing
  /-- A word that spells no operation, and the state without it (R84). -/
  | illegal (s : State)
  /-- An operation, and the state without its request. -/
  | operation (i : Instr) (s : State)
  deriving DecidableEq, Repr

/-- The host's next request taken and decoded (R80). -/
def fetch (s : State) : Fetched :=
  match s.requests with
  | [] => .nothing
  | q :: rest =>
    match decode q with
    | .ok i => .operation i { s with requests := rest }
    | .error _ => .illegal { s with requests := rest }

/-- An operation in progress goes on from its label (R43). -/
def resume (s : State) : Host.Outcome State Fault Refusal := ofRun (runLabels labelCount s)

/-- A request handed over before those that wait, to an engine that is idle. -/
def handOver (q : Request) (s : State) : State :=
  { s.goto .idle with requests := q :: s.requests }

end Sys2Proof.Machine
end

