-- ==== Sys2Proof/Machine/Step.lean ====
section
/-! DEFINITION. One step of the machine: an idle engine runs the host's next operation, or lets the device step when there is
none; an operation in progress goes on from its label. -/

namespace Sys2Proof.Machine

/-- One step (R43, R80): with no request the device alone may step (R220); a word that spells no operation is refused (R84);
an operation is run whole. -/
def step (s : State) : Host.Outcome State Fault Refusal :=
  if s.eng.pc = .idle then
    match fetch s with
    | .nothing => .next s.turn
    | .illegal s1 => .next s1.refuse
    | .operation i s1 => exec i s1
  else resume s

/-- The instruction of the opcode table's bits handed over as the host's next request. -/
def State.withFetchWord (s : State) (nbits w : Nat) : State := handOver (requestOfBits nbits w) s

end Sys2Proof.Machine
end

