-- ==== Sys2Proof/Safety.lean ====
section
/-! DEFINITION. The terms claims use: a run that met neither a refusal nor havoc, the state between operations, and the
machine's invariant. -/

namespace Sys2Proof.Machine

/-- The premise of R37 and R47: no refusal and no havoc so far. -/
abbrev State.clean (s : State) : Prop := s.refused = false ∧ s.dev.havoc = false

/-- The engine is between operations and the device is at rest, of a known variant, with no havoc: no step of the device is
enabled (R43, R220). -/
abbrev State.quiet (s : State) : Prop :=
  s.eng.pc = .idle ∧ s.dev.havoc = false ∧ s.dev.phase = .idle ∧ s.params.version ≠ .other

/-- The end of a run of one operation (R284): the engine is `IDLE` again. It says nothing of the device. -/
abbrev State.engineDone (s : State) : Prop := s.eng.pc = .idle

/-- The run is over for the device too (R284): no transaction is in progress. -/
abbrev State.deviceDone (s : State) : Prop := s.eng.pc = .idle ∧ s.dev.phase = .idle

/-- The bytes of a message's send segments, in order: the opcode, then the transmit bytes (R185, R195). -/
def sentBytes : List Segment → List Byte
  | [] => []
  | seg :: rest => (if seg.dir = .send then seg.buf else []) ++ sentBytes rest

/-- The bytes of a message's receive buffers, in the order of R190. -/
def receivedBytes : List Segment → List Byte
  | [] => []
  | seg :: rest => (if seg.dir = .recv then seg.buf else []) ++ receivedBytes rest

/-- What of a message the engine never changes: each segment's direction and length, its buffer's length, and the send
buffers' bytes (R46). -/
def messageFrame (segs : List Segment) : List (Dir × Nat × Nat × List Byte) :=
  segs.map (fun seg => (seg.dir, seg.len, seg.buf.length, if seg.dir = .send then seg.buf else []))

/-- A captured transaction fits the FIFO and carries as many bytes as it counts (R39, R222). -/
abbrev Txn.fits (t : Txn) : Prop :=
  t.tx = t.txbytes.length ∧ t.tx + t.rx ≤ Config.fifoCapacity

/-- What holds of the device in every run: the FIFO is in canonical form (R34); the CTRL0 bits that are not storage hold
nothing (R23 to R25); and without havoc a transaction in progress fits the FIFO and was triggered after SETUP on a known
variant (R39, R222). -/
structure Device.Ok (p : Params) (d : Device) : Prop where
  fifo_wf : d.fifo.wf
  ctrl0_storage : d.ctrl0 &&& ctrl0Storage = d.ctrl0
  txn_fits : d.havoc = false → ∀ t, d.phase.txn = some t →
    t.fits ∧ d.fifoPtrCleared = true ∧ p.version ≠ .other

/-- The machine's invariant: between operations the engine is `IDLE` and holds no message (R43, R180), and the device is as
`Device.Ok` says. -/
structure State.Inv (s : State) : Prop where
  pc_idle : s.eng.pc = .idle
  no_msg : s.eng.msg = none
  dev_ok : s.dev.Ok s.params

end Sys2Proof.Machine
end

