-- ==== Sys2Proof/Certificates/Slice0/Obligations.lean ====
section
/-! DEFINITION. The statements for the provers. Each docstring names the rules of spec/ the statement formalises; the helpers
of Sys2Proof.Claim are the statements' own words, written from the rules and not from the meanings. Where a statement names
`trace`, it is the model's own record of the accesses the rules list (log entry 15). -/

open Sys2Proof Sys2Proof.Machine

/-! ## The statements' own words -/

/-- A word that spells no operation (R84): `op` 0x6, 0x7 or 0xF; `z` not 0; `imm8` not 0 in SETUP, TRIG or BWAIT. -/
def Sys2Proof.Claim.reserved (w : OpWord) : Prop :=
  w.toNat / 4096 = 0x6 ∨ w.toNat / 4096 = 0x7 ∨ w.toNat / 4096 = 0xF ∨ w.toNat / 256 % 16 ≠ 0 ∨
    ((w.toNat / 4096 = 0x8 ∨ w.toNat / 4096 = 0xA ∨ w.toNat / 4096 = 0xB) ∧ w.toNat % 256 ≠ 0)

/-- The legal offsets of width 8 (R86). -/
def Sys2Proof.Claim.legal8 (off : BitVec 8) : Prop :=
  off = 0x1D#8 ∨ off = 0x45#8 ∨ off = 0x47#8 ∨ off = 0x48#8 ∨ off = 0x4B#8 ∨ (0x80#8 ≤ off ∧ off ≤ 0xC5#8)

/-- The legal offsets of width 32 (R86). -/
def Sys2Proof.Claim.legal32 (off : BitVec 8) : Prop := off = 0x00#8 ∨ off = 0x4C#8

/-- The state after an operation that read the accesses' last value into RES: RES and the trace, and nothing else, changed. -/
def Sys2Proof.Claim.afterRead (s : State) (res : Word) (l : List Access) : State :=
  { s with eng := { s.eng with res := some res }, trace := s.trace ++ l }

/-- The state after a write: the device and the trace, and nothing else, changed. -/
def Sys2Proof.Claim.afterWrite (s : State) (d : Device) (l : List Access) : State :=
  { s with dev := d, trace := s.trace ++ l }

/-- The state after an operation that read and wrote: the device, RES and the trace, and nothing else, changed. -/
def Sys2Proof.Claim.afterBoth (s : State) (d : Device) (res : Word) (l : List Access) : State :=
  { s with dev := d, eng := { s.eng with res := some res }, trace := s.trace ++ l }

/-- The state after a refusal (R266): the mark, and nothing else, changed. -/
def Sys2Proof.Claim.afterRefusal (s : State) : State := { s with refused := true }

/-- The self-clearing bits of the 8-bit register at `off`: bit 7 of TRIGGER (R30). -/
def Sys2Proof.Claim.selfClearing8 (off : BitVec 8) : Byte := if off = 0x47#8 then 0x80#8 else 0#8

/-- The self-clearing bits of the 32-bit register at `off`: bits 16 and 20 of CTRL0 (R23, R24). -/
def Sys2Proof.Claim.selfClearing32 (off : BitVec 8) : Word := if off = 0x00#8 then 0x00110000#32 else 0#32

/-- CTRL0 as Variant A reads it while `IDLE`: bits 16, 20 and 31 are 0 (R22 to R26). -/
def Sys2Proof.Claim.ctrl0Idle (d : Device) : Word := d.ctrl0 &&& 0x7FEEFFFF#32

/-- The device after an accepted trigger with opcode `op` (R221, R223, R231). -/
def Sys2Proof.Claim.triggered (d : Device) (op : Byte) : Device :=
  let bytes := (List.range d.txCount.toNat).map (fun j => d.fifo.read (0x80 + j))
  { d with
      phase := .tx { cs := BitVec.ofNat 2 d.cs.toNat, op := op, tx := d.txCount.toNat, rx := d.rxCount.toNat, txbytes := bytes }
      events := d.events ++ [.start (BitVec.ofNat 2 d.cs.toNat) op bytes d.rxCount.toNat] }

/-- What a trigger needs to be accepted (R222): SETUP made, and the counts within the FIFO. -/
def Sys2Proof.Claim.canTrigger (d : Device) : Prop :=
  d.fifoPtrCleared = true ∧ d.txCount.toNat + d.rxCount.toNat ≤ 70

/-- The transmit bytes of a message after its opcode, counted (R182). -/
def Sys2Proof.Claim.txLen (segs : List Segment) : Nat := (sentBytes segs).length - 1

/-- The receive bytes of a message, counted (R182). -/
def Sys2Proof.Claim.rxLen (segs : List Segment) : Nat :=
  ((segs.filter (fun seg => decide (seg.dir = .recv))).map (fun seg => seg.len)).sum

/-- The message has a send segment (R186). -/
def Sys2Proof.Claim.hasSend (segs : List Segment) : Prop := ∃ seg ∈ segs, seg.dir = .send

/-- The three grounds of R182 for refusing a message. -/
def Sys2Proof.Claim.inadmissible (segs : List Segment) : Prop :=
  (∃ pre seg post, segs = pre ++ seg :: post ∧ seg.dir = .send ∧ seg.len = 0 ∧
    ∀ x ∈ pre, x.dir = .send → x.len = 0) ∨
  (Claim.hasSend segs ∧
    ((segs.filter (fun seg => decide (seg.dir = .send))).map (fun seg => seg.len)).sum - 1 + Claim.rxLen segs > 70) ∨
  (∃ seg ∈ segs, seg.len ≠ seg.buf.length)

/-! ## Encoding and decoding (30_encoding.md) -/

/-- The message of R89's last row: S[0x03, 0xAA, 0xBB], R[2]. -/
def Sys2Proof.Claim.workedMessage : List Segment :=
  [⟨.send, 3, [0x03#8, 0xAA#8, 0xBB#8]⟩, ⟨.recv, 2, [0#8, 0#8]⟩]

/-- R89: the worked encodings, decoded and encoded. R89 is the spec's own inference. -/
def Obligations.WorkedEncodingsDecodeAndEncode : Prop :=
  (decode ⟨0x1080#16, .byte 0xAA#8⟩ = .ok (.wr8 0x80#8 0xAA#8) ∧
    encode (.wr8 0x80#8 0xAA#8) = ⟨0x1080#16, .byte 0xAA#8⟩) ∧
  (decode ⟨0x204C#16, .empty⟩ = .ok (.rd32 0x4C#8) ∧ encode (.rd32 0x4C#8) = ⟨0x204C#16, .empty⟩) ∧
  (decode ⟨0x401D#16, .setClear8 0x01#8 0x03#8⟩ = .ok (.sc8 0x1D#8 0x01#8 0x03#8) ∧
    encode (.sc8 0x1D#8 0x01#8 0x03#8) = ⟨0x401D#16, .setClear8 0x01#8 0x03#8⟩) ∧
  (decode ⟨0x5000#16, .setClear32 0x00010000#32 0x00010000#32⟩ = .ok (.sc32 0x00#8 0x00010000#32 0x00010000#32) ∧
    encode (.sc32 0x00#8 0x00010000#32 0x00010000#32) = ⟨0x5000#16, .setClear32 0x00010000#32 0x00010000#32⟩) ∧
  (decode ⟨0x8000#16, .empty⟩ = .ok .setup ∧ encode .setup = ⟨0x8000#16, .empty⟩) ∧
  (decode ⟨0x9003#16, .empty⟩ = .ok (.setop 0x03#8) ∧ encode (.setop 0x03#8) = ⟨0x9003#16, .empty⟩) ∧
  (decode ⟨0xE001#16, .segs Claim.workedMessage⟩ = .ok (.xfer 0x01#8 Claim.workedMessage) ∧
    encode (.xfer 0x01#8 Claim.workedMessage) = ⟨0xE001#16, .segs Claim.workedMessage⟩)

/-- R84: the decoder refuses every reserved word, and the machine that is handed one sets the mark and nothing else. Rests on
the spec's own decision D30. That a step takes the word from a list of requests, and that the refusal is a next state, are
the model's (log entries 4, 12). -/
def Obligations.ReservedWordsAreRefused : Prop :=
  ∀ q : Request, Claim.reserved q.word →
    (∃ e, decode q = .error e) ∧
    ∀ (s : State) (rest : List Request), s.eng.pc = .idle → s.requests = q :: rest →
      step s = .next { s with requests := rest, refused := true }

/-- R81 to R83: every operation, at every operand, is what its own word and record decode to. Rests on the spec's own
decision D30. -/
def Obligations.DecodeOfEncodeIsIdentity : Prop := ∀ i : Instr, decode (encode i) = .ok i

/-- R81 to R84: a word and record that decode are the encoding of what they decode to, so no two spell one operation. Rests
on the spec's own decision D30. That a word handed over with a record of another shape than R81 gives its operation does not
decode is the model's choice (log entry 24): R84 and R266 do not refuse such a pair. -/
def Obligations.EncodeOfDecodeIsIdentity : Prop := ∀ (q : Request) (i : Instr), decode q = .ok i → encode i = q

/-- R80, R43: an idle engine that is handed an operation runs it, with the request taken and nothing else changed. Rests on
the spec's own decisions D30, D42. That one step runs the whole operation, and that it is taken from a list of requests, are
the model's choice (log entries 3, 12). -/
def Obligations.StepRunsTheDecodedOperation : Prop :=
  ∀ (s : State) (q : Request) (rest : List Request) (i : Instr),
    s.eng.pc = .idle → s.requests = q :: rest → decode q = .ok i →
    step s = exec i { s with requests := rest }

/-- R43, R220: with nothing handed over only the device may move, and a device at rest does not. Rests on the spec's own
decisions D13, D14, D35, D42. The list of requests and the device's turn are the model's (log entries 2, 12). -/
def Obligations.StepWithoutRequestMovesOnlyTheDevice : Prop :=
  ∀ s : State, s.eng.pc = .idle → s.requests = [] →
    ∃ d o, step s = .next { s with dev := d, oracle := o } ∧
      (s.dev.havoc = false → s.dev.phase = .idle → d = s.dev ∧ o = s.oracle)

/-- R43, R164, R272: no operation starts while one is in progress. Rests on the spec's own decision D42. That the model
answers the refusal `operationInProgress` there is its own choice (log entry 13): the rules give no such move. -/
def Obligations.NoOperationStartsDuringAnother : Prop :=
  ∀ (i : Instr) (s : State), s.eng.pc ≠ .idle → exec i s = .refused .operationInProgress

/-! ## Register access (40_register_access.md, 10_state.md) -/

/-- R109, R266: outside the legal pairs each port operation sets the mark and nothing else; at a legal pair it is not
refused. Rests on the spec's own decisions D5, D6, D7, D24, D25, D30. That a refusal is a next state is the model's choice
(log entry 4). -/
def Obligations.PortLegality : Prop :=
  ∀ (s : State) (off : BitVec 8) (v a c : Byte) (v' a' c' : Word), s.eng.pc = .idle →
    (¬ Claim.legal8 off →
      exec (.rd8 off) s = .next (Claim.afterRefusal s) ∧
      exec (.wr8 off v) s = .next (Claim.afterRefusal s) ∧
      exec (.sc8 off a c) s = .next (Claim.afterRefusal s)) ∧
    (¬ Claim.legal32 off →
      exec (.rd32 off) s = .next (Claim.afterRefusal s) ∧
      exec (.wr32 off v') s = .next (Claim.afterRefusal s) ∧
      exec (.sc32 off a' c') s = .next (Claim.afterRefusal s)) ∧
    (Claim.legal8 off →
      (∃ t, exec (.rd8 off) s = .next t ∧ t.refused = s.refused) ∧
      (∃ t, exec (.wr8 off v) s = .next t ∧ t.refused = s.refused) ∧
      (∃ t, exec (.sc8 off a c) s = .next t ∧ t.refused = s.refused)) ∧
    (Claim.legal32 off →
      (∃ t, exec (.rd32 off) s = .next t ∧ t.refused = s.refused) ∧
      (∃ t, exec (.wr32 off v') s = .next t ∧ t.refused = s.refused) ∧
      (∃ t, exec (.sc32 off a' c') s = .next t ∧ t.refused = s.refused))

/-- R101, R105: what RD8 reads of a device at rest, register by register; nothing but RES and the trace changes. Rests on the
spec's own decisions D8, D9, D10, D15, D18, D20, D38, D39. -/
def Obligations.ReadByteOfAQuietDevice : Prop :=
  ∀ s : State, s.quiet →
    exec (.rd8 0x1D#8) s = .next (Claim.afterRead s (s.dev.cs.setWidth 32) [.rd8 0x1D s.dev.cs]) ∧
    exec (.rd8 0x48#8) s = .next (Claim.afterRead s (s.dev.txCount.setWidth 32) [.rd8 0x48 s.dev.txCount]) ∧
    exec (.rd8 0x4B#8) s = .next (Claim.afterRead s (s.dev.rxCount.setWidth 32) [.rd8 0x4B s.dev.rxCount]) ∧
    (∀ k < 70, exec (.rd8 (BitVec.ofNat 8 (0x80 + k))) s =
      .next (Claim.afterRead s ((s.dev.fifo.read (0x80 + k)).setWidth 32)
        [.rd8 (0x80 + k) (s.dev.fifo.read (0x80 + k))])) ∧
    (s.params.version = .b →
      exec (.rd8 0x45#8) s = .next (Claim.afterRead s (s.dev.opcode.setWidth 32) [.rd8 0x45 s.dev.opcode]) ∧
      exec (.rd8 0x47#8) s =
        .next (Claim.afterRead s (s.dev.trigger.setWidth 32) [.rd8 0x47 (s.dev.trigger.setWidth 8)]))

/-- R66, R101, R103, R105, R110: at every legal pair, whatever the version, the phase and havoc, RD8 and RD32 complete; the
device is as its own turn leaves it, RES holds the value read, zero-extended, and the trace records the access. Rests on the
spec's own decisions D8, D9, D10, D15, D18, D20, D27, D38, D39. The free choices and the device's turn are the model's (log
entry 2). -/
def Obligations.ReadsChangeNoDeviceState : Prop :=
  ∀ (s : State) (off : BitVec 8), s.eng.pc = .idle →
    (Claim.legal8 off → ∃ v o, exec (.rd8 off) s =
      .next { s with dev := s.turn.dev, oracle := o, eng := { s.eng with res := some (v.setWidth 32) }
                     trace := s.trace ++ [.rd8 off.toNat v] }) ∧
    (Claim.legal32 off → ∃ v o, exec (.rd32 off) s =
      .next { s with dev := s.turn.dev, oracle := o, eng := { s.eng with res := some v }
                     trace := s.trace ++ [.rd32 off.toNat v] })

/-- R22 to R26, R103, R105: what RD32 CTRL0 reads on a known variant without havoc, in every phase: FIFO_CLEAR 0, EXEC 0
while `IDLE`, the storage bits as stored, and in Variant A BUSY as the phase is after the device's turn (R41); of a Variant A
device at rest it reads the storage bits and 0 elsewhere, and only RES and the trace change. Rests on the spec's own
decisions D8, D9, D10, D15, D16, D18, D19, D20, D38, D39, D40. The free choices and the device's turn are the model's (log
entry 2). -/
def Obligations.ReadControlRegister : Prop :=
  ∀ s : State, s.eng.pc = .idle → s.params.version ≠ .other → s.turn.dev.havoc = false →
    (∃ (v : Word) (t : State), exec (.rd32 0x00#8) s = .next t ∧ t.eng.res = some v ∧ t.dev = s.turn.dev ∧
      v &&& 0x7FEEFFFF#32 = s.turn.dev.ctrl0 &&& 0x7FEEFFFF#32 ∧ v[20] = false ∧
      (s.turn.dev.phase = .idle → v[16] = false) ∧
      (s.params.version = .a → v[31] = s.turn.dev.phase.busy)) ∧
    (s.params.version = .a → s.quiet →
      exec (.rd32 0x00#8) s = .next (Claim.afterRead s (Claim.ctrl0Idle s.dev) [.rd32 0x00 (Claim.ctrl0Idle s.dev)]))

/-- R31, R41, R103: in Variant B without havoc, RD32 STATUS reads busy at bit 31, in every phase, and the device is as its
own turn leaves it. Rests on the spec's own decision D16. The free choices and the device's turn are the model's (log entry
2). -/
def Obligations.ReadStatusRegister : Prop :=
  ∀ s : State, s.eng.pc = .idle → s.params.version = .b → s.turn.dev.havoc = false →
    ∃ (v : Word) (t : State), exec (.rd32 0x4C#8) s = .next t ∧ t.eng.res = some v ∧ t.dev = s.turn.dev ∧
      v[31] = s.turn.dev.phase.busy

/-- R13, R34, R35, R37, R105, D17: a drawn read may give any value: under havoc, with an unknown version tag, of a FIFO cell
while the phase is not `IDLE`, and of OPCODE or TRIGGER in Variant A, for every byte there are free choices with which RD8
reads it. Rests on the spec's own decisions D8, D9, D10, D15, D16, D18, D20, D31, D38, D39. The free choices and the device's
turn are the model's (log entries 1, 2). -/
def Obligations.DrawnReadMayBeAnyByte : Prop :=
  ∀ (s : State) (off : BitVec 8) (b : Byte), s.eng.pc = .idle → Claim.legal8 off →
    (s.dev.havoc = true ∨ s.params.version = .other ∨ (s.dev.phase ≠ .idle ∧ 0x80#8 ≤ off) ∨
      (s.params.version = .a ∧ (off = 0x45#8 ∨ off = 0x47#8))) →
    ∃ tape t, exec (.rd8 off) { s with oracle := { s.oracle with tape := tape } } = .next t ∧
      t.eng.res = some (b.setWidth 32)

/-- R102, R106: what WR8 stores in a device at rest, register by register; nothing but that register and the trace changes. A
write of OPCODE or TRIGGER in Variant A sets havoc (R35). Rests on the spec's own decisions D9, D10, D16, D18, D19, D36, D40.
-/
def Obligations.WriteByteOfAQuietDevice : Prop :=
  ∀ (s : State) (v : Byte), s.quiet →
    exec (.wr8 0x1D#8 v) s = .next (Claim.afterWrite s { s.dev with cs := v } [.wr8 0x1D v]) ∧
    exec (.wr8 0x48#8 v) s = .next (Claim.afterWrite s { s.dev with txCount := v } [.wr8 0x48 v]) ∧
    exec (.wr8 0x4B#8 v) s = .next (Claim.afterWrite s { s.dev with rxCount := v } [.wr8 0x4B v]) ∧
    (∀ k < 70, ∃ m : Memory,
      exec (.wr8 (BitVec.ofNat 8 (0x80 + k)) v) s =
        .next (Claim.afterWrite s { s.dev with fifo := m } [.wr8 (0x80 + k) v]) ∧
      (∀ a, a ≠ 0x80 + k → m.read a = s.dev.fifo.read a) ∧
      (s.dev.fifo.wf → m.read (0x80 + k) = v)) ∧
    (s.params.version = .b →
      exec (.wr8 0x45#8 v) s = .next (Claim.afterWrite s { s.dev with opcode := v } [.wr8 0x45 v]) ∧
      (v[7] = false → exec (.wr8 0x47#8 v) s =
        .next (Claim.afterWrite s { s.dev with trigger := BitVec.ofNat 7 v.toNat } [.wr8 0x47 v]))) ∧
    (s.params.version = .a →
      exec (.wr8 0x45#8 v) s = .next (Claim.afterWrite s { s.dev with havoc := true } [.wr8 0x45 v]) ∧
      exec (.wr8 0x47#8 v) s = .next (Claim.afterWrite s { s.dev with havoc := true } [.wr8 0x47 v]))

/-- R30, R102, R221 to R223, R231: in Variant B a WR8 of TRIGGER with bit 7 set starts the transaction the registers
describe, or sets havoc before SETUP or with counts above 70; bits 6:0 are stored on both. Rests on the spec's own decisions
D1, D9, D11, D13, D19, D25, D36. -/
def Obligations.WriteTriggerRegister : Prop :=
  ∀ (s : State) (v : Byte), s.quiet → s.params.version = .b → v[7] = true →
    (Claim.canTrigger s.dev → exec (.wr8 0x47#8 v) s =
      .next (Claim.afterWrite s (Claim.triggered { s.dev with trigger := BitVec.ofNat 7 v.toNat } s.dev.opcode)
        [.wr8 0x47 v])) ∧
    (¬ Claim.canTrigger s.dev → exec (.wr8 0x47#8 v) s =
      .next (Claim.afterWrite s { s.dev with trigger := BitVec.ofNat 7 v.toNat, havoc := true } [.wr8 0x47 v]))

/-- R22 to R26, R31, R104, R106: what WR32 does to a device at rest when it starts nothing: CTRL0 stores its storage bits and
bit 20 clears the cursor; bits 16 and 20 together set havoc, so does bit 16 in Variant B, and so does any STATUS write. Rests
on the spec's own decisions D9, D10, D16, D18, D19, D36, D39, D40. -/
def Obligations.WriteWordOfAQuietDevice : Prop :=
  ∀ (s : State) (v : Word), s.quiet →
    (v[16] = false → exec (.wr32 0x00#8 v) s =
      .next (Claim.afterWrite s
        { s.dev with ctrl0 := v &&& 0x7FEEFFFF#32, fifoPtrCleared := s.dev.fifoPtrCleared || v[20] } [.wr32 0x00 v])) ∧
    (v[16] = true → v[20] = true →
      exec (.wr32 0x00#8 v) s = .next (Claim.afterWrite s { s.dev with havoc := true } [.wr32 0x00 v])) ∧
    (v[16] = true → v[20] = false → s.params.version = .b → exec (.wr32 0x00#8 v) s =
      .next (Claim.afterWrite s { s.dev with ctrl0 := v &&& 0x7FEEFFFF#32, havoc := true } [.wr32 0x00 v])) ∧
    exec (.wr32 0x4C#8 v) s = .next (Claim.afterWrite s { s.dev with havoc := true } [.wr32 0x4C v])

/-- R23, R104, R106, R221 to R223: in Variant A a WR32 of CTRL0 with bit 16 set and bit 20 clear starts a transaction whose
opcode is that write's own low byte, or sets havoc before SETUP or with counts above 70. Rests on the spec's own decisions
D9, D10, D11, D13, D16, D18, D19, D25, D36, D40. -/
def Obligations.WriteControlRegisterTriggers : Prop :=
  ∀ (s : State) (v : Word), s.quiet → s.params.version = .a → v[16] = true → v[20] = false →
    (Claim.canTrigger s.dev → exec (.wr32 0x00#8 v) s =
      .next (Claim.afterWrite s
        (Claim.triggered { s.dev with ctrl0 := v &&& 0x7FEEFFFF#32 } (BitVec.ofNat 8 v.toNat)) [.wr32 0x00 v])) ∧
    (¬ Claim.canTrigger s.dev → exec (.wr32 0x00#8 v) s =
      .next (Claim.afterWrite s { s.dev with ctrl0 := v &&& 0x7FEEFFFF#32, havoc := true } [.wr32 0x00 v]))

/-- R100, R107: what SC8 does to the plain byte registers of a device at rest: RES holds the value read, and `(current & ~clear) | set` is
stored. -/
def Obligations.SetClearByteOfAQuietDevice : Prop :=
  ∀ (s : State) (a c : Byte), s.quiet →
    exec (.sc8 0x1D#8 a c) s =
      .next (Claim.afterBoth s { s.dev with cs := (s.dev.cs &&& ~~~c) ||| a } (s.dev.cs.setWidth 32)
        [.rd8 0x1D s.dev.cs, .wr8 0x1D ((s.dev.cs &&& ~~~c) ||| a)]) ∧
    exec (.sc8 0x48#8 a c) s =
      .next (Claim.afterBoth s { s.dev with txCount := (s.dev.txCount &&& ~~~c) ||| a } (s.dev.txCount.setWidth 32)
        [.rd8 0x48 s.dev.txCount, .wr8 0x48 ((s.dev.txCount &&& ~~~c) ||| a)]) ∧
    exec (.sc8 0x4B#8 a c) s =
      .next (Claim.afterBoth s { s.dev with rxCount := (s.dev.rxCount &&& ~~~c) ||| a } (s.dev.rxCount.setWidth 32)
        [.rd8 0x4B s.dev.rxCount, .wr8 0x4B ((s.dev.rxCount &&& ~~~c) ||| a)]) ∧
    (s.params.version = .b → exec (.sc8 0x45#8 a c) s =
      .next (Claim.afterBoth s { s.dev with opcode := (s.dev.opcode &&& ~~~c) ||| a } (s.dev.opcode.setWidth 32)
        [.rd8 0x45 s.dev.opcode, .wr8 0x45 ((s.dev.opcode &&& ~~~c) ||| a)])) ∧
    (∀ k < 70, ∃ m : Memory,
      exec (.sc8 (BitVec.ofNat 8 (0x80 + k)) a c) s =
        .next (Claim.afterBoth s { s.dev with fifo := m } ((s.dev.fifo.read (0x80 + k)).setWidth 32)
          [.rd8 (0x80 + k) (s.dev.fifo.read (0x80 + k)),
           .wr8 (0x80 + k) ((s.dev.fifo.read (0x80 + k) &&& ~~~c) ||| a)]) ∧
      (∀ x, x ≠ 0x80 + k → m.read x = s.dev.fifo.read x) ∧
      (s.dev.fifo.wf → m.read (0x80 + k) = (s.dev.fifo.read (0x80 + k) &&& ~~~c) ||| a))

/-- R100, R108: what SC32 does to CTRL0 of a Variant A device at rest when the value it writes has bit 16 clear. -/
def Obligations.SetClearWordOfAQuietDevice : Prop :=
  ∀ (s : State) (a c : Word), s.quiet → s.params.version = .a → a[16] = false →
    exec (.sc32 0x00#8 a c) s =
      .next (Claim.afterBoth s
        { s.dev with
            ctrl0 := ((Claim.ctrl0Idle s.dev &&& ~~~c) ||| a) &&& 0x7FEEFFFF#32
            fifoPtrCleared := s.dev.fifoPtrCleared || a[20] }
        (Claim.ctrl0Idle s.dev)
        [.rd32 0x00 (Claim.ctrl0Idle s.dev), .wr32 0x00 ((Claim.ctrl0Idle s.dev &&& ~~~c) ||| a)])

/-- R71, R100, R107, R108, R111: at every legal pair, and whatever the device does between the two accesses, SC8 is RD8 and
then a write of `(value read & ~clear) | set`, and SC32 is RD32 and then such a write; the value read stays in RES. Where the
value read holds no self-clearing bit the write is a WR8 or WR32 of that value. Where it holds one, the device is left as the
WR8 or WR32 leaves it, either of that value or of it without the self-clearing bits that only the value read supplies: R310,
the spec's own inference, says that such a bit has no effect, R23, R24, R30, R106 and R267 that it has, and that either may
happen is the model's choice (log entry 25), as is the trace (log entry 15). Rests on the spec's own decisions D9, D39. -/
def Obligations.ReadModifyWriteUsesTheValueRead : Prop :=
  ∀ (s : State) (off : BitVec 8), s.eng.pc = .idle →
    (∀ a c : Byte, Claim.legal8 off → ∃ (v : Byte) (t u : State), exec (.rd8 off) s = .next t ∧
      t.eng.res = some (v.setWidth 32) ∧ exec (.sc8 off a c) s = .next u ∧
      u.eng = t.eng ∧ u.trace = s.trace ++ [.rd8 off.toNat v, .wr8 off.toNat ((v &&& ~~~c) ||| a)] ∧
      (v &&& Claim.selfClearing8 off = 0#8 → exec (.wr8 off ((v &&& ~~~c) ||| a)) t = .next u) ∧
      ∃ (e : Byte) (w : State), (e = v ∨ e = v &&& ~~~Claim.selfClearing8 off) ∧
        exec (.wr8 off ((e &&& ~~~c) ||| a)) t = .next w ∧ u = { w with trace := u.trace, oracle := u.oracle }) ∧
    (∀ a c : Word, Claim.legal32 off → ∃ (v : Word) (t u : State), exec (.rd32 off) s = .next t ∧
      t.eng.res = some v ∧ exec (.sc32 off a c) s = .next u ∧
      u.eng = t.eng ∧ u.trace = s.trace ++ [.rd32 off.toNat v, .wr32 off.toNat ((v &&& ~~~c) ||| a)] ∧
      (v &&& Claim.selfClearing32 off = 0#32 → exec (.wr32 off ((v &&& ~~~c) ||| a)) t = .next u) ∧
      ∃ (e : Word) (w : State), (e = v ∨ e = v &&& ~~~Claim.selfClearing32 off) ∧
        exec (.wr32 off ((e &&& ~~~c) ||| a)) t = .next w ∧ u = { w with trace := u.trace, oracle := u.oracle })

/-- R68, R232, the model's reading of log entry 2: an access finds the device as its turn leaves it. Where the turn leaves it
at rest, the access does what it does to a device that was at rest from the start. Rests on the spec's own decisions D27,
D35. -/
def Obligations.AccessActsAfterTheDevicesTurn : Prop :=
  ∀ (s : State) (off : BitVec 8) (v : Byte) (w : Word), s.turn.dev.phase = .idle → s.turn.dev.havoc = false →
    (Claim.legal8 off → exec (.rd8 off) s = exec (.rd8 off) s.turn ∧ exec (.wr8 off v) s = exec (.wr8 off v) s.turn) ∧
    (Claim.legal32 off → exec (.rd32 off) s = exec (.rd32 off) s.turn ∧ exec (.wr32 off w) s = exec (.wr32 off w) s.turn)

/-- R106, R307: a write that finds the device in a transaction, or of an unknown kind, sets havoc and has no other effect on
the device; a write that finds havoc has none at all (R37). Rests on the spec's own decisions D9, D10, D16, D18, D19, D36,
D40. The free choices and the device's turn are the model's (log entry 2). -/
def Obligations.WriteWhileBusySetsHavoc : Prop :=
  ∀ (s : State) (off : BitVec 8), s.eng.pc = .idle →
    (s.turn.dev.phase ≠ .idle ∨ s.params.version = .other ∨ s.turn.dev.havoc = true) →
    (∀ v : Byte, Claim.legal8 off → exec (.wr8 off v) s =
      .next (Claim.afterWrite s.turn { s.turn.dev with havoc := true } [.wr8 off.toNat v])) ∧
    (∀ v : Word, Claim.legal32 off → exec (.wr32 off v) s =
      .next (Claim.afterWrite s.turn { s.turn.dev with havoc := true } [.wr32 off.toNat v]))

/-! ## Version policy (41_version_policy.md) -/

/-- R121: SETOP in Variant A is op 0x9 with the opcode byte in imm8; on a device at rest it replaces CTRL0's low byte and keeps
bits 31:8, by one read and one write, so it starts nothing and clears no cursor; a write that finds the device not `IDLE` sets
havoc; RES is 0 in both cases. R68, R310: where the device is in a transaction at the start and `IDLE` at the write, the write
is accepted and stores the opcode byte and the bits read, and nothing starts. Where EXEC was read as 1 while the device was
not `IDLE`, R310, the spec's own inference, says that writing it back has no effect, R23 and R106 that it triggers: that either
may happen is the model's choice (log entry 25). Rests on the spec's own decisions D9, D27. The device's turn is the model's
(log entry 2). -/
def Obligations.SetopInVariantA : Prop :=
  ∀ (s : State) (b : Byte), s.params.version = .a →
    (encode (.setop b)).word.toNat = 0x9000 + b.toNat ∧ (encode (.setop b)).record = .empty ∧
    (s.quiet → s.dev.Ok s.params → ∃ w : Word,
      exec (.setop b) s =
        .next (Claim.afterBoth s { s.dev with ctrl0 := w } 0#32 [.rd32 0x00 s.dev.ctrl0, .wr32 0x00 w]) ∧
      BitVec.ofNat 8 w.toNat = b ∧ ∀ k, 8 ≤ k → w.getLsbD k = s.dev.ctrl0.getLsbD k) ∧
    (s.eng.pc = .idle → (portRead32 .ctrl0 s).2.turn.dev.phase ≠ .idle →
      ∃ t, exec (.setop b) s = .next t ∧ t.dev.havoc = true ∧ t.eng = { s.eng with res := some 0#32 }) ∧
    (s.eng.pc = .idle → s.dev.havoc = false → ∀ d : Device, (portRead32 .ctrl0 s).2.turn.dev = d → d.phase = .idle →
      ∃ (v w : Word) (t : State), exec (.setop b) s = .next t ∧ t.eng = { s.eng with res := some 0#32 } ∧
        t.trace = s.trace ++ [.rd32 0x00 v, .wr32 0x00 w] ∧
        BitVec.ofNat 8 w.toNat = b ∧ (∀ k, 8 ≤ k → w.getLsbD k = v.getLsbD k) ∧ v[20] = false ∧
        (∀ k, 8 ≤ k → k ≠ 16 → k ≠ 20 → k ≠ 31 → v.getLsbD k = s.dev.ctrl0.getLsbD k) ∧
        (t.dev = { d with ctrl0 := w &&& 0x7FEEFFFF#32 } ∨
          v[16] = true ∧ Claim.canTrigger d ∧ t.dev = Claim.triggered { d with ctrl0 := w &&& 0x7FEEFFFF#32 } b ∨
          v[16] = true ∧ ¬ Claim.canTrigger d ∧ t.dev = { d with ctrl0 := w &&& 0x7FEEFFFF#32, havoc := true }))

/-- R122: SETOP in Variant B is op 0x9 with the opcode byte in imm8; on a device at rest it writes the OPCODE register, by one
access, and CTRL0 is not accessed; a write that finds the device not `IDLE` sets havoc; RES is 0 in both cases. R68, R310: so
it stores where the device comes to `IDLE` before the write. Rests on the spec's own decision D27. The device's turn is the
model's (log entry 2). R310 is the spec's own inference. -/
def Obligations.SetopInVariantB : Prop :=
  ∀ (s : State) (b : Byte), s.params.version = .b →
    (encode (.setop b)).word.toNat = 0x9000 + b.toNat ∧ (encode (.setop b)).record = .empty ∧
    (s.quiet → exec (.setop b) s = .next (Claim.afterBoth s { s.dev with opcode := b } 0#32 [.wr8 0x45 b])) ∧
    (s.eng.pc = .idle → s.turn.dev.phase ≠ .idle →
      exec (.setop b) s = .next (Claim.afterBoth s.turn { s.turn.dev with havoc := true } 0#32 [.wr8 0x45 b])) ∧
    (s.eng.pc = .idle → s.turn.dev.phase = .idle → s.turn.dev.havoc = false →
      exec (.setop b) s = .next (Claim.afterBoth s.turn { s.turn.dev with opcode := b } 0#32 [.wr8 0x45 b]))

/-- R124, R221 to R223, R231: TRIG in Variant A sets EXEC by one read and one write and starts the transaction the registers
describe, its opcode CTRL0's low byte; before SETUP or with counts above 70 it sets havoc and starts nothing; a write that finds
the device not `IDLE` sets havoc too (R66, R307). RES is 0. R68, R310: it starts one too where the device is in a transaction
at the start and `IDLE` at the write, with the bits read. Rests on the spec's own decisions D1, D11, D13, D16, D25, D36. The
device's turn is the model's (log entry 2). R310 is the spec's own inference. -/
def Obligations.TrigInVariantA : Prop :=
  ∀ s : State, s.params.version = .a →
    (s.quiet → s.dev.Ok s.params →
      (Claim.canTrigger s.dev → exec .trig s =
        .next (Claim.afterBoth s (Claim.triggered s.dev (BitVec.ofNat 8 s.dev.ctrl0.toNat)) 0#32
          [.rd32 0x00 s.dev.ctrl0, .wr32 0x00 (s.dev.ctrl0 ||| 0x00010000#32)])) ∧
      (¬ Claim.canTrigger s.dev → exec .trig s =
        .next (Claim.afterBoth s { s.dev with havoc := true } 0#32
          [.rd32 0x00 s.dev.ctrl0, .wr32 0x00 (s.dev.ctrl0 ||| 0x00010000#32)]))) ∧
    (s.eng.pc = .idle → (portRead32 .ctrl0 s).2.turn.dev.phase ≠ .idle →
      ∃ t, exec .trig s = .next t ∧ t.dev.havoc = true ∧ t.eng = { s.eng with res := some 0#32 }) ∧
    (s.eng.pc = .idle → s.dev.havoc = false → ∀ d : Device, (portRead32 .ctrl0 s).2.turn.dev = d → d.phase = .idle →
      ∃ (v : Word) (t : State), exec .trig s = .next t ∧ t.eng = { s.eng with res := some 0#32 } ∧
        t.trace = s.trace ++ [.rd32 0x00 v, .wr32 0x00 (v ||| 0x00010000#32)] ∧ v[20] = false ∧
        (∀ k, 8 ≤ k → k ≠ 16 → k ≠ 20 → k ≠ 31 → v.getLsbD k = s.dev.ctrl0.getLsbD k) ∧
        (Claim.canTrigger d →
          t.dev = Claim.triggered { d with ctrl0 := v &&& 0x7FEEFFFF#32 } (BitVec.ofNat 8 v.toNat)) ∧
        (¬ Claim.canTrigger d → t.dev = { d with ctrl0 := v &&& 0x7FEEFFFF#32, havoc := true }))

/-- R125, R221 to R223, R231: TRIG in Variant B sets TRIGGER bit 7 by one read and one write, bits 6:0 written back, and
starts the transaction with the OPCODE register's opcode; before SETUP or with counts above 70 it sets havoc; a write that finds
the device not `IDLE` sets havoc too (R66, R307). RES is 0. R68, R310: it starts one too where the device is in a transaction
at the start and `IDLE` at the write. Rests on the spec's own decisions D1, D9, D11, D13, D16, D25, D36. The device's turn is
the model's (log entry 2). R310 is the spec's own inference. -/
def Obligations.TrigInVariantB : Prop :=
  ∀ s : State, s.params.version = .b →
    (s.quiet →
      (Claim.canTrigger s.dev → exec .trig s =
        .next (Claim.afterBoth s (Claim.triggered s.dev s.dev.opcode) 0#32
          [.rd8 0x47 (s.dev.trigger.setWidth 8), .wr8 0x47 (s.dev.trigger.setWidth 8 ||| 0x80#8)])) ∧
      (¬ Claim.canTrigger s.dev → exec .trig s =
        .next (Claim.afterBoth s { s.dev with havoc := true } 0#32
          [.rd8 0x47 (s.dev.trigger.setWidth 8), .wr8 0x47 (s.dev.trigger.setWidth 8 ||| 0x80#8)]))) ∧
    (s.eng.pc = .idle → (portRead8 .trigger s).2.turn.dev.phase ≠ .idle →
      ∃ t, exec .trig s = .next t ∧ t.dev.havoc = true ∧ t.eng = { s.eng with res := some 0#32 }) ∧
    (s.eng.pc = .idle → s.dev.havoc = false → ∀ d : Device, (portRead8 .trigger s).2.turn.dev = d → d.phase = .idle →
      ∃ (v : Byte) (t : State), exec .trig s = .next t ∧ t.eng = { s.eng with res := some 0#32 } ∧
        t.trace = s.trace ++ [.rd8 0x47 v, .wr8 0x47 (v ||| 0x80#8)] ∧ BitVec.ofNat 7 v.toNat = s.dev.trigger ∧
        (Claim.canTrigger d → t.dev = Claim.triggered { d with trigger := s.dev.trigger } d.opcode) ∧
        (¬ Claim.canTrigger d → t.dev = { d with trigger := s.dev.trigger, havoc := true }))

/-- R123, R126: with an unknown version tag SETOP and TRIG make no access and leave 2 in RES and nothing else changed; inside
XFER they raise UnsupportedVersion, which goes to FINAL. BWAIT likewise leaves 2 in RES and nothing else changed. -/
def Obligations.UnknownVersionMakesNoAccess : Prop :=
  ∀ (s : State) (b : Byte), s.params.version = .other →
    (s.eng.pc = .idle →
      exec (.setop b) s = .next (Claim.afterRead s 2#32 []) ∧
      exec .trig s = .next (Claim.afterRead s 2#32 []) ∧
      exec .bwait s = .next (Claim.afterRead s 2#32 [])) ∧
    (s.eng.pc = .setop → s.eng.opc = some (some b) → labelStep s =
      .ok { s with eng := { s.eng with res := some 2#32, status := some .unsupportedVersion, pc := .final } }) ∧
    (s.eng.pc = .trig → labelStep s =
      .ok { s with eng := { s.eng with res := some 2#32, status := some .unsupportedVersion, pc := .final } })

/-! ## Chip select (42_chip_select.md) -/

/-- R140: CSSEL is op 0xC with the index in imm8, and no index is refused; on a device at rest it puts the index modulo 4 in CS
bits 1:0 and keeps bits 7:2, by one read and one write; a write that finds the device not `IDLE` sets havoc; RES is 0. R68,
R310: it stores the same where a device of a known variant is in a transaction at the start and `IDLE` at the write. Rests on
the spec's own decision D27. The device's turn is the model's (log entry 2). R310 is the spec's own inference. -/
def Obligations.CsselSelectsTheIndexModuloFour : Prop :=
  ∀ (s : State) (i : BitVec 8), s.eng.pc = .idle →
    (encode (.cssel i)).word.toNat = 0xC000 + i.toNat ∧ (encode (.cssel i)).record = .empty ∧
    (∃ t, exec (.cssel i) s = .next t ∧ t.refused = s.refused ∧ t.eng = { s.eng with res := some 0#32 } ∧
      ((portRead8 .cs s).2.turn.dev.phase ≠ .idle → t.dev.havoc = true)) ∧
    (s.quiet → ∃ w : Byte,
      exec (.cssel i) s = .next (Claim.afterBoth s { s.dev with cs := w } 0#32 [.rd8 0x1D s.dev.cs, .wr8 0x1D w]) ∧
      w.toNat % 4 = i.toNat % 4 ∧ w.toNat / 4 = s.dev.cs.toNat / 4) ∧
    (s.params.version ≠ .other → s.dev.havoc = false → ∀ d : Device, (portRead8 .cs s).2.turn.dev = d → d.phase = .idle →
      ∃ (w : Byte) (t : State), exec (.cssel i) s = .next t ∧ t.dev = { d with cs := w } ∧
        t.trace = s.trace ++ [.rd8 0x1D s.dev.cs, .wr8 0x1D w] ∧
        w.toNat % 4 = i.toNat % 4 ∧ w.toNat / 4 = s.dev.cs.toNat / 4)

/-- R141: CSDESEL is op 0xD; whatever its index, on a device at rest it clears CS bits 1:0 and keeps bits 7:2, by one read
and one write; a write that finds the device not `IDLE` sets havoc; RES is 0. R68, R310: it stores the same where a device of
a known variant is in a transaction at the start and `IDLE` at the write. Rests on the spec's own decisions D27, D29. The
device's turn is the model's (log entry 2). R310 is the spec's own inference. -/
def Obligations.CsdeselClearsTheField : Prop :=
  ∀ (s : State) (i : BitVec 8), s.eng.pc = .idle →
    (encode (.csdesel i)).word.toNat = 0xD000 + i.toNat ∧ (encode (.csdesel i)).record = .empty ∧
    (∃ t, exec (.csdesel i) s = .next t ∧ t.refused = s.refused ∧ t.eng = { s.eng with res := some 0#32 } ∧
      ((portRead8 .cs s).2.turn.dev.phase ≠ .idle → t.dev.havoc = true)) ∧
    (s.quiet → ∃ w : Byte,
      exec (.csdesel i) s = .next (Claim.afterBoth s { s.dev with cs := w } 0#32 [.rd8 0x1D s.dev.cs, .wr8 0x1D w]) ∧
      w.toNat % 4 = 0 ∧ w.toNat / 4 = s.dev.cs.toNat / 4) ∧
    (s.params.version ≠ .other → s.dev.havoc = false → ∀ d : Device, (portRead8 .cs s).2.turn.dev = d → d.phase = .idle →
      ∃ (w : Byte) (t : State), exec (.csdesel i) s = .next t ∧ t.dev = { d with cs := w } ∧
        t.trace = s.trace ++ [.rd8 0x1D s.dev.cs, .wr8 0x1D w] ∧
        w.toNat % 4 = 0 ∧ w.toNat / 4 = s.dev.cs.toNat / 4)

/-! ## Busy-wait (43_busy_wait.md) -/

/-- R160: BWAIT on a device at rest succeeds at its first read: RES 0, NPOLL 0, the device as it was, one word read. That
`elapsed` is 0, under `LOOSE` as well, is the model's record (log entries 15, 16). -/
def Obligations.BwaitSucceedsAtOnceWhenIdle : Prop :=
  ∀ s : State, s.quiet →
    ∃ (off : Nat) (v : Word) (t : State), exec .bwait s = .next t ∧
      off = (if s.params.version = .a then 0x00 else 0x4C) ∧ v[31] = false ∧
      t.trace = s.trace ++ [.rd32 off v] ∧ t.dev = s.dev ∧
      t.eng = { s.eng with res := some 0#32, npoll := some 0, elapsed := 0 } ∧
      t.completions = s.completions ∧ t.refused = s.refused

/-- R166: BWAIT always ends, whatever the device does, after at most MAX_BUSY_READS + 1 reads, and it only reads. R166 is the
spec's own inference. -/
def Obligations.BwaitIsBounded : Prop :=
  ∀ s : State, s.eng.pc = .idle →
    ∃ (t : State) (l : List Access), exec .bwait s = .next t ∧ t.trace = s.trace ++ l ∧ l.length ≤ 100002 + 1 ∧
      ∀ x ∈ l, ∃ off v, x = .rd32 off v

/-- R127, R160, R264: on a known variant BWAIT polls the version's busy register: every read but the last saw bit 31 set, the
last decides (Success, RES 0, when it saw it clear, and NPOLL counts the others; else Timeout, RES 3); it sets no havoc and
leaves every other register of the engine but NPOLL and the elapsed time as it was. R163: the wait took 20 time-units for each
read but the first, exactly under `EXACT` and at least under `LOOSE`. Rests on the spec's own decisions D2, D26. The record
`elapsed` is the model's (log entries 15, 16). -/
def Obligations.BwaitDecidesByTheLastRead : Prop :=
  ∀ s : State, s.eng.pc = .idle → s.params.version ≠ .other →
    ∃ (t : State) (n off : Nat) (l : List Access) (v : Word), exec .bwait s = .next t ∧
      off = (if s.params.version = .a then 0x00 else 0x4C) ∧ t.trace = s.trace ++ l ++ [.rd32 off v] ∧
      (∀ x ∈ l, ∃ w : Word, x = .rd32 off w ∧ w[31] = true) ∧
      t.eng = { s.eng with res := some (if v[31] then 3#32 else 0#32), npoll := some n, elapsed := t.eng.elapsed } ∧
      n ≤ 100002 ∧ (v[31] = false → n = l.length) ∧
      20 * l.length ≤ t.eng.elapsed ∧ (s.params.pollTiming = .exact → t.eng.elapsed = 20 * l.length) ∧
      t.dev.havoc = s.dev.havoc ∧ t.completions = s.completions ∧ t.refused = s.refused

/-- R160, R161, R163: under `EXACT`, a Variant A device whose scheduler takes no step for as long as the wait lasts is polled
100,002 times; the wait then ends in Timeout after 2,000,020 time-units. Rests on the spec's own decisions D2, D26. The free
choices, the device's turn and the record `elapsed` are the model's (log entries 1, 2, 15, 16). -/
def Obligations.BwaitTimesOutExactly : Prop :=
  ∀ (s : State) (x : Txn), s.eng.pc = .idle → s.params.version = .a → s.params.pollTiming = .exact →
    s.dev.havoc = false → s.dev.phase = .tx x → s.oracle.tape = List.replicate (2 * 100002) 0 →
    ∃ t : State, exec .bwait s = .next t ∧ t.dev = s.dev ∧ t.trace.length = s.trace.length + 100002 ∧
      t.eng = { s.eng with res := some 3#32, npoll := some 100002, elapsed := 2000020 }

/-! ## FIFO engine (44_fifo_engine.md) -/

/-- R24, R181: SETUP on a device at rest clears the FIFO cursor and changes no other state of the device; RES is 0. R68, R310:
where a device of a known variant is in a transaction at the start and `IDLE` at the write, SETUP clears the cursor and writes
the storage bits read back. Where EXEC was read as 1 while the device was not `IDLE`, R310, the spec's own inference, says that
writing it back has no effect, R24 and R267 that the write sets havoc, bit 20 being 1 as well: that either may happen is the
model's choice (log entry 25). Rests on the spec's own decisions D10, D11, D16. The device's turn is the model's (log entry
2). -/
def Obligations.SetupClearsTheFifoCursor : Prop :=
  ∀ s : State,
    (s.quiet → s.dev.Ok s.params → ∃ (v : Word) (o : Oracle),
      exec .setup s = .next { Claim.afterBoth s { s.dev with fifoPtrCleared := true } 0#32
        [.rd32 0x00 v, .wr32 0x00 (v ||| 0x00100000#32)] with oracle := o } ∧
      v &&& 0x7FEEFFFF#32 = s.dev.ctrl0 ∧ v[16] = false ∧ v[20] = false) ∧
    (s.eng.pc = .idle → s.params.version ≠ .other → s.dev.havoc = false →
      ∀ d : Device, (portRead32 .ctrl0 s).2.turn.dev = d → d.phase = .idle →
      ∃ (v : Word) (t : State), exec .setup s = .next t ∧ t.eng = { s.eng with res := some 0#32 } ∧
        t.trace = s.trace ++ [.rd32 0x00 v, .wr32 0x00 (v ||| 0x00100000#32)] ∧
        (∀ k, 8 ≤ k → k ≠ 16 → k ≠ 20 → k ≠ 31 → v.getLsbD k = s.dev.ctrl0.getLsbD k) ∧
        (t.dev = { d with ctrl0 := v &&& 0x7FEEFFFF#32, fifoPtrCleared := true } ∨
          v[16] = true ∧ t.dev = { d with havoc := true }))

/-- R20, R181: with an unknown version tag SETUP sets havoc and RES is still 0; so it is when the write finds the device in a
transaction. Rests on the spec's own decisions D10, D11, D20. The free choices and the device's turn are the model's (log
entry 2). -/
def Obligations.SetupElsewhereSetsHavoc : Prop :=
  ∀ s : State, s.eng.pc = .idle → (s.params.version = .other ∨ (portRead32 .ctrl0 s).2.turn.dev.phase ≠ .idle) →
    ∃ t : State, exec .setup s = .next t ∧ t.dev.havoc = true ∧ t.eng = { s.eng with res := some 0#32 }

/-- R182, R266: a message refused on one of the three grounds makes no access, delivers nothing and sets the mark. Rests on
the spec's own decisions D5, D24, D25, D30. That a refusal is a next state is the model's choice (log entry 4). -/
def Obligations.XferRefusesInadmissibleMessages : Prop :=
  ∀ (s : State) (i : BitVec 8) (segs : List Segment), s.eng.pc = .idle → Claim.inadmissible segs →
    exec (.xfer i segs) s = .next (Claim.afterRefusal s)

/-- R183, R192, R193: an admitted XFER always comes to NOTIFY, whatever the device does: exactly one record is delivered, the
engine is `IDLE` and holds nothing of the message, and the marks and the host's other state are as they were. Rests on the
spec's own decisions D23, D33. R193 is the spec's own inference. The list of records is the model's (log entry 14). -/
def Obligations.XferDeliversExactlyOneRecord : Prop :=
  ∀ (s : State) (i : BitVec 8) (segs : List Segment), s.eng.pc = .idle → ¬ Claim.inadmissible segs →
    ∃ (t : State) (c : Completion), exec (.xfer i segs) s = .next t ∧
      t.completions = s.completions ++ [c] ∧ t.eng.status = some c.status ∧
      t.eng.pc = .idle ∧ t.eng.msg = none ∧ t.eng.opc = none ∧ t.eng.txc = none ∧ t.eng.rxc = none ∧
      t.eng.cur = none ∧ t.eng.actual = none ∧
      t.params = s.params ∧ t.requests = s.requests ∧ t.refused = s.refused

/-- R186, R188, R260, R269: which status an admitted message can end in: InvalidArgument exactly without a send segment,
UnsupportedVersion exactly with a send segment on an unknown version tag, and otherwise Success or Timeout. Rests on the spec's own
decisions D21, D22. R269 is the spec's own inference. -/
def Obligations.XferStatusByCause : Prop :=
  ∀ (s t : State) (i : BitVec 8) (segs : List Segment) (c : Completion), ¬ Claim.inadmissible segs →
    exec (.xfer i segs) s = .next t → t.completions = s.completions ++ [c] →
    (c.status = .invalidArgument ↔ ¬ Claim.hasSend segs) ∧
    (c.status = .unsupportedVersion ↔ Claim.hasSend segs ∧ s.params.version = .other)

/-- R191, L1-1: on Success the record carries the transmit bytes plus the receive bytes plus one. -/
def Obligations.XferActualLength : Prop :=
  ∀ (s t : State) (i : BitVec 8) (segs : List Segment) (c : Completion), ¬ Claim.inadmissible segs →
    exec (.xfer i segs) s = .next t → t.completions = s.completions ++ [c] → c.status = .success →
    c.actualLength = Claim.txLen segs + Claim.rxLen segs + 1

/-- R46, R194: the engine hands back the caller's segments with their directions, lengths and send bytes as they were; and on
every status but Success no receive byte has been written. Rests on the spec's own decision D32. -/
def Obligations.XferBuffersOnFailure : Prop :=
  ∀ (s t : State) (i : BitVec 8) (segs : List Segment) (c : Completion), ¬ Claim.inadmissible segs →
    exec (.xfer i segs) s = .next t → t.completions = s.completions ++ [c] →
    messageFrame c.segs = messageFrame segs ∧ (c.status ≠ .success → c.segs = segs)

/-- R184, R186, R191, R261, P3: a message with no send segment, on a device at rest: CS is selected, and in Variant B
deselected; no other register and no FIFO cell is accessed. -/
def Obligations.XferInvalidArgumentTouchesOnlyCs : Prop :=
  ∀ (s : State) (i : BitVec 8) (segs : List Segment), s.quiet → ¬ Claim.hasSend segs →
    (∀ seg ∈ segs, seg.len = seg.buf.length) →
    ∃ (t : State) (n : Nat) (w w0 : Byte), exec (.xfer i segs) s = .next t ∧
      t.completions = s.completions ++ [⟨.invalidArgument, n, segs⟩] ∧
      w.toNat % 4 = i.toNat % 4 ∧ w.toNat / 4 = s.dev.cs.toNat / 4 ∧ w0.toNat = w.toNat / 4 * 4 ∧
      (s.params.version = .a → t.dev = { s.dev with cs := w } ∧
        t.trace = s.trace ++ [.rd8 0x1D s.dev.cs, .wr8 0x1D w]) ∧
      (s.params.version = .b → t.dev = { s.dev with cs := w0 } ∧
        t.trace = s.trace ++ [.rd8 0x1D s.dev.cs, .wr8 0x1D w, .rd8 0x1D w, .wr8 0x1D w0])

/-- R184, R185, R187, R188, R197, R262, R267: with an unknown version tag a message that has a send segment makes the accesses
of SELECT, LOAD and PROG and no other (V-EN-12): a read and a write of CS with the index modulo 4 in its field, the sent bytes
after the opcode in order from 0x80 on, the transmit count and the receive count; it ends in UnsupportedVersion and leaves
havoc set. Rests on the spec's own decisions D16, D20, D22. R197 is the spec's own inference. -/
def Obligations.XferUnknownVersionAccesses : Prop :=
  ∀ (s : State) (i : BitVec 8) (segs : List Segment), s.eng.pc = .idle → s.params.version = .other →
    ¬ Claim.inadmissible segs → Claim.hasSend segs →
    ∃ (t : State) (n : Nat) (v w op : Byte) (tx : List Byte), exec (.xfer i segs) s = .next t ∧
      sentBytes segs = op :: tx ∧
      t.trace = s.trace ++ [.rd8 0x1D v, .wr8 0x1D w] ++ tx.mapIdx (fun k b => Access.wr8 (0x80 + k) b) ++
        [.wr8 0x48 (BitVec.ofNat 8 tx.length), .wr8 0x4B (BitVec.ofNat 8 (Claim.rxLen segs))] ∧
      w.toNat % 4 = i.toNat % 4 ∧ w.toNat / 4 = v.toNat / 4 ∧
      t.completions = s.completions ++ [⟨.unsupportedVersion, n, segs⟩] ∧ t.dev.havoc = true

/-- R195, R198, R223, R231, R234: what goes out on the bus: on a device at rest after SETUP, a message with a send segment
that ends without havoc has recorded one Start, with the index modulo 4, the first sent byte as the opcode, the other sent
bytes in order and the receive count, and after it nothing or the one Done of the same transaction. Rests on the spec's own
decisions D1, D36, D37, D41. R195, R198 are the spec's own inference. -/
def Obligations.XferRecordsOneTransaction : Prop :=
  ∀ (s t : State) (i : BitVec 8) (segs : List Segment) (op : Byte) (tx : List Byte), s.quiet → s.dev.Ok s.params →
    s.dev.fifoPtrCleared = true → ¬ Claim.inadmissible segs → sentBytes segs = op :: tx →
    exec (.xfer i segs) s = .next t → t.dev.havoc = false →
    ∃ rest, t.dev.events = s.dev.events ++ .start (BitVec.ofNat 2 i.toNat) op tx (Claim.rxLen segs) :: rest ∧
      (rest = [] ∨ ∃ rxb : List Byte, rxb.length = Claim.rxLen segs ∧
        rest = [.done (BitVec.ofNat 2 i.toNat) op tx (Claim.rxLen segs) rxb])

/-- R189, R190, R230, R306, R308: with no gap admitted, a message that ends in Success on a device that was at rest after
SETUP has completed its transaction without havoc, and the receive buffers hold the target's bytes in order. Rests on the
spec's own decisions D12, D14, D15, D17. R306 is the spec's own inference. -/
def Obligations.XferReceivesTheTargetsBytes : Prop :=
  ∀ (s t : State) (i : BitVec 8) (segs : List Segment) (op : Byte) (tx : List Byte) (c : Completion),
    s.quiet → s.dev.Ok s.params → s.dev.fifoPtrCleared = true → s.params.rxGapAdmitted = false →
    ¬ Claim.inadmissible segs → sentBytes segs = op :: tx →
    exec (.xfer i segs) s = .next t → t.completions = s.completions ++ [c] → c.status = .success →
    t.dev.havoc = false ∧ t.dev.phase = .idle ∧
    t.dev.events = s.dev.events ++
      [.start (BitVec.ofNat 2 i.toNat) op tx (Claim.rxLen segs),
       .done (BitVec.ofNat 2 i.toNat) op tx (Claim.rxLen segs) (receivedBytes c.segs)]

/-- R26, R28, R30, R191, R196, R311: after a message that ends without havoc CS bits 7:2, TRIGGER, the CTRL0 bits above the
opcode field and the cleared cursor are as they were; CS bits 1:0 hold the index modulo 4 in Variant A and 0 in Variant B;
the opcode place of the other variant is as it was. Rests on the spec's own decisions D9, D19. -/
def Obligations.XferLeavesTheOtherRegisters : Prop :=
  ∀ (s t : State) (i : BitVec 8) (segs : List Segment), s.quiet → s.dev.Ok s.params → ¬ Claim.inadmissible segs →
    exec (.xfer i segs) s = .next t → t.dev.havoc = false →
    t.dev.cs.toNat / 4 = s.dev.cs.toNat / 4 ∧ t.dev.trigger = s.dev.trigger ∧
    t.dev.fifoPtrCleared = s.dev.fifoPtrCleared ∧ (∀ k, 8 ≤ k → t.dev.ctrl0.getLsbD k = s.dev.ctrl0.getLsbD k) ∧
    (s.params.version = .a → t.dev.cs.toNat % 4 = i.toNat % 4 ∧ t.dev.opcode = s.dev.opcode) ∧
    (s.params.version = .b → t.dev.cs.toNat % 4 = 0 ∧ t.dev.ctrl0 = s.dev.ctrl0)

/-- R188, R189, R194, L1-6: on every status but Success no FIFO byte is read back. Rests on the spec's own decisions D22,
D32. -/
def Obligations.XferFailureReadsNoFifoByte : Prop :=
  ∀ (s t : State) (i : BitVec 8) (segs : List Segment) (c : Completion) (l : List Access), ¬ Claim.inadmissible segs →
    exec (.xfer i segs) s = .next t → t.completions = s.completions ++ [c] → t.trace = s.trace ++ l →
    c.status ≠ .success → ∀ off v, Access.rd8 off v ∈ l → off = 0x1D ∨ off = 0x47

/-- R197, R318: an admitted XFER makes at most 200,156 port accesses, whatever the device does. R197, R318 are the spec's own
inference. -/
def Obligations.XferAccessBound : Prop :=
  ∀ (s : State) (i : BitVec 8) (segs : List Segment), s.eng.pc = .idle → ¬ Claim.inadmissible segs →
    ∃ (t : State) (l : List Access), exec (.xfer i segs) s = .next t ∧ t.trace = s.trace ++ l ∧ l.length ≤ 200156

/-- R42, C7, the model's choice of log entry 9: XFER, a pseudo-operation of R88, leaves its status code in RES. Rests on the
spec's own decisions D11, D31, D42. -/
def Obligations.XferLeavesItsStatusCode : Prop :=
  ∀ (s t : State) (i : BitVec 8) (segs : List Segment) (c : Completion), ¬ Claim.inadmissible segs →
    exec (.xfer i segs) s = .next t → t.completions = s.completions ++ [c] →
    t.eng.res = some (match c.status with
      | .success => 0#32 | .invalidArgument => 1#32 | .unsupportedVersion => 2#32 | .timeout => 3#32)

/-! ## The device agent (45_device_agent.md) -/

/-- R220, R225 to R229: the enabled transitions, and no other: from `IDLE` none; from `TX` without receive bytes to `IDLE`;
from `TX` with receive bytes to `GAP` where it is admitted, or to `RX`; from `GAP` to `RX`; from `RX` to `IDLE`; each by some
choice. Rests on the spec's own decisions D13, D14, D35. -/
def Obligations.DeviceTransitions : Prop :=
  ∀ (p : Params) (d : Device) (o : Oracle),
    (d.phase = .idle → ∀ n, deviceMove p n d o = (d, o)) ∧
    (∀ x, d.phase = .tx x → x.rx = 0 → ∀ n, (deviceMove p n d o).1.phase = .idle) ∧
    (∀ x, d.phase = .tx x → 0 < x.rx →
      (∀ n, deviceMove p n d o = ({ d with phase := .rx x }, o) ∨
        p.rxGapAdmitted = true ∧ deviceMove p n d o = ({ d with phase := .gap x }, o)) ∧
      (∃ n, n ≠ 0 ∧ deviceMove p n d o = ({ d with phase := .rx x }, o)) ∧
      (p.rxGapAdmitted = true → ∃ n, n ≠ 0 ∧ deviceMove p n d o = ({ d with phase := .gap x }, o))) ∧
    (∀ x, d.phase = .gap x → ∀ n, deviceMove p n d o = ({ d with phase := .rx x }, o)) ∧
    (∀ x, d.phase = .rx x → ∀ n, (deviceMove p n d o).1.phase = .idle)

/-- R230, R231: what a completed transaction leaves: the received bytes in the FIFO after the transmit data and in the Done
event; CS, TRIGGER, the cleared cursor, havoc and the CTRL0 bits above the opcode field as they were. Rests on the spec's own
decisions D1, D12, D15, D17. -/
def Obligations.CompletionOfATransaction : Prop :=
  ∀ (p : Params) (d : Device) (o : Oracle) (n : Nat) (x : Txn), x.fits →
    (d.phase = .rx x ∨ d.phase = .tx x ∧ x.rx = 0) →
    ∃ (rxb : List Byte) (d' : Device), (deviceMove p n d o).1 = d' ∧ rxb.length = x.rx ∧
      (∀ k (h : k < rxb.length), d'.fifo.read (0x80 + x.tx + k) = rxb[k]) ∧
      d'.events = d.events ++ [.done x.cs x.op x.txbytes x.rx rxb] ∧ d'.phase = .idle ∧
      d'.cs = d.cs ∧ d'.trigger = d.trigger ∧ d'.fifoPtrCleared = d.fifoPtrCleared ∧ d'.havoc = d.havoc ∧
      (∀ k, 8 ≤ k → d'.ctrl0.getLsbD k = d.ctrl0.getLsbD k) ∧
      (p.version = .b → d'.ctrl0 = d.ctrl0) ∧ (p.version = .a → d'.opcode = d.opcode)

/-- R8, R230, D17: the target may answer any bytes: for every list of the length expected there are free choices with which
the transaction completes with it. Rests on the spec's own decisions D12, D15, D17. The free choices and the device's turn
are the model's (log entry 1). -/
def Obligations.TargetMayAnswerAnyBytes : Prop :=
  ∀ (p : Params) (d : Device) (o : Oracle) (n : Nat) (x : Txn) (rxb : List Byte),
    d.phase = .rx x → rxb.length = x.rx →
    ∃ tape, (deviceMove p n d { o with tape := tape }).1.events =
      d.events ++ [.done x.cs x.op x.txbytes x.rx rxb]

/-! ## Reset (70_reset_and_hazards.md) and the whole machine -/

/-- R300: the state after construction, for every parameter and every reset draw. Rests on the spec's own decisions D19, D34.
-/
def Obligations.ConstructionIsTheResetState : Prop :=
  ∀ (p : Params) (d : ResetDraws),
    let s := State.construct p d
    s.params = p ∧ s.dev.phase = .idle ∧ s.dev.phase.txn = none ∧ s.dev.phase.busy = false ∧ s.dev.havoc = false ∧
    s.dev.fifoPtrCleared = false ∧ s.dev.events = [] ∧ s.eng.pc = .idle ∧ s.refused = false ∧
    s.eng.res = none ∧ s.eng.opc = none ∧ s.eng.txc = none ∧ s.eng.rxc = none ∧ s.eng.cur = none ∧
    s.eng.status = none ∧ s.eng.actual = none ∧ s.eng.npoll = none ∧
    s.dev.ctrl0 = d.ctrl0 ∧ s.dev.cs = d.cs ∧ s.dev.opcode = d.opcode ∧ s.dev.trigger = d.trigger ∧
    s.dev.txCount = d.txCount ∧ s.dev.rxCount = d.rxCount ∧ s.dev.fifo = d.fifo

/-- R300: the invariant holds after construction with draws of the FIFO's cells and of CTRL0's storage bits, and at
`State.reset`, whose arguments are the model's choice (log entries 5, 6). Rests on the spec's own decisions D19, D34. -/
def Obligations.ConstructionMeetsTheInvariant : Prop :=
  (∀ (p : Params) (d : ResetDraws), d.fifo.wf → d.ctrl0 &&& 0x7FEEFFFF#32 = d.ctrl0 → (State.construct p d).Inv) ∧
    State.reset.Inv

/-- R34, R39, R43, R180, R222: every step keeps the invariant. Rests on the spec's own decisions D11, D15, D16, D25, D36,
D42. That the engine is `IDLE` after every step, and the canonical form of the FIFO's list, under havoc too, are the model's
choice (log entries 3, 7, 8). -/
def Obligations.StepKeepsTheInvariant : Prop :=
  ∀ s t : State, s.Inv → step s = .next t → t.Inv

/-- R268, R193, R110: from a state that meets the invariant a step always answers a next state: no fault and no stop is
reached. Rests on the spec's own decisions D27, D42. R193 is the spec's own inference. That a refused operation is no stop is
the model's choice (log entry 4). -/
def Obligations.StepNeverStops : Prop :=
  ∀ s : State, s.Inv → ∃ t, step s = .next t

/-- R2, R120, R300: no step changes the version tag or any other construction argument. Rests on the spec's own decisions
D19, D34. -/
def Obligations.StepKeepsTheParameters : Prop :=
  ∀ s t : State, step s = .next t → t.params = s.params

/-- R37, R38, R40, R47, R301: what no step undoes: havoc and the refused mark stay set, and while there is no havoc the
cleared cursor stays cleared and the event log only grows. Rests on the spec's own decisions D1, D10, D11, D16, D25. -/
def Obligations.StepKeepsWhatIsSticky : Prop :=
  ∀ s t : State, step s = .next t →
    (s.dev.havoc = true → t.dev.havoc = true) ∧ (s.refused = true → t.refused = true) ∧
    (t.dev.havoc = false →
      (s.dev.fifoPtrCleared = true → t.dev.fifoPtrCleared = true) ∧ ∃ l, t.dev.events = s.dev.events ++ l)

/-- R45, R192, R266: only a message delivers a record: every operation but XFER leaves the records and the message registers
as they were. Rests on the spec's own decisions D5, D23, D24, D25, D30, D33. -/
def Obligations.OnlyXferDeliversARecord : Prop :=
  ∀ (i : Instr) (s t : State), (∀ k segs, i ≠ .xfer k segs) → exec i s = .next t →
    t.completions = s.completions ∧ t.requests = s.requests ∧
    t.eng = { s.eng with res := t.eng.res, npoll := t.eng.npoll, elapsed := t.eng.elapsed }

/-- R45, R67, the model's records of them: every step only adds accesses to `trace` and records to `completions`. Both lists
are the model's own (log entries 14, 15). Rests on the spec's own decisions D23, D27. -/
def Obligations.StepOnlyAddsToTheRecord : Prop :=
  ∀ s t : State, step s = .next t →
    (∃ l, t.trace = s.trace ++ l) ∧ (∃ l, t.completions = s.completions ++ l)

/-- R228: `GAP -> RX`: the device re-asserts busy, which reads 1 again: busy is 0 in `GAP`, the device's one transition from it
is to `RX`, and there the register each variant polls reads 1 at bit 31. -/
def Obligations.GapReassertsBusy : Prop :=
  ∀ (p : Params) (d : Device) (o : Oracle) (n : Nat) (x : Txn), d.phase = .gap x → d.havoc = false →
    d.phase.busy = false ∧ deviceMove p n d o = ({ d with phase := .rx x }, o) ∧
    ∀ o' : Oracle,
      (p.version = .a → (devRead32 p (deviceMove p n d o).1 .ctrl0 o').1[31] = true) ∧
      (p.version = .b → (devRead32 p (deviceMove p n d o).1 .status o').1[31] = true)
end

