-- ==== Sys2Proof/Laws/Memory.lean ====
section
/-! SUPPORT. The FIFO cells: reading after writing, and the canonical form kept by every operation. -/

namespace Sys2Proof.Machine

theorem Memory.read_write_same (m : Memory) (a : Nat) (b : Byte) (h : m.Pairwise (fun p q => p.1 < q.1)) :
    (m.write a b).read a = b := by
  induction m with
  | nil => by_cases hb : b = 0#8 <;> simp [Memory.write, Memory.read, hb]
  | cons p rest ih =>
    obtain ⟨x, c⟩ := p
    have hrest := (List.pairwise_cons.1 h).1
    have absent : ∀ (l : Memory), (∀ q ∈ l, a < q.1) → l.read a = 0#8 := by
      intro l hl
      induction l with
      | nil => rfl
      | cons q t iht =>
        have := hl q (by simp)
        simp only [Memory.read]
        rw [if_neg (by omega)]
        exact iht (fun q hq => hl q (by simp [hq]))
    rcases Nat.lt_trichotomy a x with hlt | rfl | hgt
    · by_cases hb : b = 0#8
      · simp only [Memory.write, hlt, hb, if_true]
        exact absent _ (by
          intro q hq
          rcases List.mem_cons.1 hq with rfl | hq
          · exact hlt
          · exact Nat.lt_trans hlt (hrest q hq))
      · simp [Memory.write, Memory.read, hlt, hb]
    · by_cases hb : b = 0#8
      · simp only [Memory.write, Nat.lt_irrefl, hb, if_true, if_false]
        exact absent _ hrest
      · simp [Memory.write, Memory.read, hb]
    · have h1 : ¬ a < x := by omega
      have h2 : a ≠ x := by omega
      simp only [Memory.write, h1, h2, if_false, Memory.read]
      exact ih (List.pairwise_cons.1 h).2

theorem Memory.read_write_other (m : Memory) (a a' : Nat) (b : Byte) (h : a' ≠ a) :
    (m.write a b).read a' = m.read a' := by
  induction m with
  | nil => by_cases hb : b = 0#8 <;> simp [Memory.write, Memory.read, hb, h]
  | cons p rest ih =>
    obtain ⟨x, c⟩ := p
    by_cases h1 : a < x
    · by_cases hb : b = 0#8 <;> simp [Memory.write, Memory.read, h1, hb, h]
    · by_cases h2 : a = x
      · subst h2
        by_cases hb : b = 0#8 <;> simp [Memory.write, Memory.read, hb, h]
      · simp [Memory.write, Memory.read, h1, h2, ih]

theorem Memory.mem_write {m : Memory} {a : Nat} {b : Byte} {c : Host.Cell} (h : c ∈ m.write a b) :
    c = (a, b) ∧ b ≠ 0#8 ∨ c ∈ m := by
  induction m with
  | nil =>
    by_cases hb : b = 0#8 <;> simp_all [Memory.write]
  | cons p rest ih =>
    obtain ⟨x, v⟩ := p
    simp only [Memory.write] at h
    split at h
    · split at h <;> simp_all
    · split at h
      · split at h <;> simp_all
        tauto
      · rcases List.mem_cons.1 h with rfl | h
        · simp
        · rcases ih h with h | h
          · exact .inl h
          · exact .inr (by simp [h])

theorem Memory.write_wf {m : Memory} {a : Nat} {b : Byte} (h : m.wf)
    (ha : Config.fifoBase ≤ a ∧ a < Config.fifoBase + Config.fifoCapacity) : (m.write a b).wf := by
  refine ⟨?_, fun c hc => ?_⟩
  · have hp := h.1
    clear h ha
    induction m with
    | nil => by_cases hb : b = 0#8 <;> simp [Memory.write, hb]
    | cons p rest ih =>
      obtain ⟨x, v⟩ := p
      have ⟨h1, h2⟩ := List.pairwise_cons.1 hp
      simp only [Memory.write]
      split
      · split
        · exact hp
        · refine List.pairwise_cons.2 ⟨fun q hq => ?_, hp⟩
          rcases List.mem_cons.1 hq with rfl | hq
          · assumption
          · exact Nat.lt_trans ‹_› (h1 q hq)
      · split
        · split
          · exact h2
          · subst x
            exact List.pairwise_cons.2 ⟨h1, h2⟩
        · refine List.pairwise_cons.2 ⟨fun q hq => ?_, ih h2⟩
          rcases Memory.mem_write hq with ⟨rfl, _⟩ | hq
          · simp only; omega
          · exact h1 q hq
  · rcases Memory.mem_write hc with ⟨rfl, hb⟩ | hc
    · exact ⟨hb, ha⟩
    · exact h.2 c hc

theorem Memory.mem_ofBytes {l : List Byte} {a : Nat} {c : Host.Cell} (h : c ∈ Memory.ofBytes a l) :
    c.2 ≠ 0#8 ∧ a ≤ c.1 ∧ c.1 < a + l.length := by
  induction l generalizing a with
  | nil => simp [Memory.ofBytes] at h
  | cons b rest ih =>
    simp only [Memory.ofBytes] at h
    split at h
    · have := ih h
      simp only [List.length_cons]
      exact ⟨this.1, by omega, by omega⟩
    · rcases List.mem_cons.1 h with rfl | h
      · simp only [List.length_cons]
        exact ⟨by assumption, by omega, by omega⟩
      · have := ih h
        simp only [List.length_cons]
        exact ⟨this.1, by omega, by omega⟩

theorem Memory.ofBytes_pairwise (l : List Byte) (a : Nat) :
    (Memory.ofBytes a l).Pairwise (fun p q => p.1 < q.1) := by
  induction l generalizing a with
  | nil => simp [Memory.ofBytes]
  | cons b rest ih =>
    simp only [Memory.ofBytes]
    split
    · exact ih _
    · refine List.pairwise_cons.2 ⟨fun q hq => ?_, ih _⟩
      have := Memory.mem_ofBytes hq
      simp only; omega

theorem Memory.ofBytes_wf (l : List Byte) (h : l.length ≤ Config.fifoCapacity) :
    (Memory.ofBytes Config.fifoBase l).wf := by
  refine ⟨Memory.ofBytes_pairwise _ _, fun c hc => ?_⟩
  have := Memory.mem_ofBytes hc
  simp only [Config.fifoBase, Config.fifoCapacity] at *
  exact ⟨this.1, by omega, by omega⟩

theorem Memory.bytes_length (m : Memory) (a n : Nat) : (m.bytes a n).length = n := by
  induction n generalizing a with
  | zero => rfl
  | succ n ih => simp [Memory.bytes, ih]

theorem Memory.bytes_getElem (m : Memory) (a n k : Nat) (h : k < (m.bytes a n).length) :
    (m.bytes a n)[k] = m.read (a + k) := by
  induction n generalizing a k with
  | zero => simp [Memory.bytes] at h
  | succ n ih =>
    cases k with
    | zero => simp [Memory.bytes]
    | succ k =>
      simp only [Memory.bytes, List.getElem_cons_succ]
      rw [ih]
      congr 1
      omega

theorem Memory.canon_wf (m : Memory) : m.canon.wf :=
  Memory.ofBytes_wf _ (by rw [Memory.bytes_length])

theorem Memory.read_below_ofBytes (l : List Byte) (a x : Nat) (h : x < a) : (Memory.ofBytes a l).read x = 0#8 := by
  induction l generalizing a with
  | nil => rfl
  | cons b rest ih =>
    simp only [Memory.ofBytes]
    split
    · exact ih _ (by omega)
    · simp only [Memory.read]
      rw [if_neg (by omega)]
      exact ih _ (by omega)

/-- What the cells made of a list of bytes read: the bytes, from the offset on. -/
theorem Memory.read_ofBytes (l : List Byte) (a k : Nat) (h : k < l.length) :
    (Memory.ofBytes a l).read (a + k) = l[k] := by
  induction l generalizing a k with
  | nil => simp at h
  | cons b rest ih =>
    cases k with
    | zero =>
      simp only [Memory.ofBytes, Nat.add_zero, List.getElem_cons_zero]
      split
      · rw [Memory.read_below_ofBytes _ _ _ (by omega)]
        simp_all
      · simp [Memory.read]
    | succ k =>
      have := ih (a + 1) k (by simpa using h)
      rw [show a + (k + 1) = a + 1 + k by omega]
      simp only [Memory.ofBytes, List.getElem_cons_succ]
      split
      · exact this
      · simp only [Memory.read]
        rw [if_neg (by omega)]
        exact this

end Sys2Proof.Machine
end

