-- ==== Sys2Proof/Laws/State.lean ====
section
/-! SUPPORT. One lemma per field per update of the state, all true by definition. -/

namespace Sys2Proof.Machine

/-! ### `setRes` -/

@[simp] theorem State.setRes_params (s : State) (v : Word) : (s.setRes v).params = s.params := rfl
@[simp] theorem State.setRes_dev (s : State) (v : Word) : (s.setRes v).dev = s.dev := rfl
@[simp] theorem State.setRes_requests (s : State) (v : Word) : (s.setRes v).requests = s.requests := rfl
@[simp] theorem State.setRes_completions (s : State) (v : Word) : (s.setRes v).completions = s.completions := rfl
@[simp] theorem State.setRes_refused (s : State) (v : Word) : (s.setRes v).refused = s.refused := rfl
@[simp] theorem State.setRes_oracle (s : State) (v : Word) : (s.setRes v).oracle = s.oracle := rfl
@[simp] theorem State.setRes_trace (s : State) (v : Word) : (s.setRes v).trace = s.trace := rfl
@[simp] theorem State.setRes_eng_pc (s : State) (v : Word) : (s.setRes v).eng.pc = s.eng.pc := rfl
@[simp] theorem State.setRes_eng_res (s : State) (v : Word) : (s.setRes v).eng.res = some v := rfl
@[simp] theorem State.setRes_eng_opc (s : State) (v : Word) : (s.setRes v).eng.opc = s.eng.opc := rfl
@[simp] theorem State.setRes_eng_txc (s : State) (v : Word) : (s.setRes v).eng.txc = s.eng.txc := rfl
@[simp] theorem State.setRes_eng_rxc (s : State) (v : Word) : (s.setRes v).eng.rxc = s.eng.rxc := rfl
@[simp] theorem State.setRes_eng_cur (s : State) (v : Word) : (s.setRes v).eng.cur = s.eng.cur := rfl
@[simp] theorem State.setRes_eng_status (s : State) (v : Word) : (s.setRes v).eng.status = s.eng.status := rfl
@[simp] theorem State.setRes_eng_actual (s : State) (v : Word) : (s.setRes v).eng.actual = s.eng.actual := rfl
@[simp] theorem State.setRes_eng_npoll (s : State) (v : Word) : (s.setRes v).eng.npoll = s.eng.npoll := rfl
@[simp] theorem State.setRes_eng_msg (s : State) (v : Word) : (s.setRes v).eng.msg = s.eng.msg := rfl
@[simp] theorem State.setRes_eng_elapsed (s : State) (v : Word) : (s.setRes v).eng.elapsed = s.eng.elapsed := rfl

/-! ### `goto` -/

@[simp] theorem State.goto_params (s : State) (l : Label) : (s.goto l).params = s.params := rfl
@[simp] theorem State.goto_dev (s : State) (l : Label) : (s.goto l).dev = s.dev := rfl
@[simp] theorem State.goto_requests (s : State) (l : Label) : (s.goto l).requests = s.requests := rfl
@[simp] theorem State.goto_completions (s : State) (l : Label) : (s.goto l).completions = s.completions := rfl
@[simp] theorem State.goto_refused (s : State) (l : Label) : (s.goto l).refused = s.refused := rfl
@[simp] theorem State.goto_oracle (s : State) (l : Label) : (s.goto l).oracle = s.oracle := rfl
@[simp] theorem State.goto_trace (s : State) (l : Label) : (s.goto l).trace = s.trace := rfl
@[simp] theorem State.goto_eng_pc (s : State) (l : Label) : (s.goto l).eng.pc = l := rfl
@[simp] theorem State.goto_eng_res (s : State) (l : Label) : (s.goto l).eng.res = s.eng.res := rfl
@[simp] theorem State.goto_eng_opc (s : State) (l : Label) : (s.goto l).eng.opc = s.eng.opc := rfl
@[simp] theorem State.goto_eng_txc (s : State) (l : Label) : (s.goto l).eng.txc = s.eng.txc := rfl
@[simp] theorem State.goto_eng_rxc (s : State) (l : Label) : (s.goto l).eng.rxc = s.eng.rxc := rfl
@[simp] theorem State.goto_eng_cur (s : State) (l : Label) : (s.goto l).eng.cur = s.eng.cur := rfl
@[simp] theorem State.goto_eng_status (s : State) (l : Label) : (s.goto l).eng.status = s.eng.status := rfl
@[simp] theorem State.goto_eng_actual (s : State) (l : Label) : (s.goto l).eng.actual = s.eng.actual := rfl
@[simp] theorem State.goto_eng_npoll (s : State) (l : Label) : (s.goto l).eng.npoll = s.eng.npoll := rfl
@[simp] theorem State.goto_eng_msg (s : State) (l : Label) : (s.goto l).eng.msg = s.eng.msg := rfl
@[simp] theorem State.goto_eng_elapsed (s : State) (l : Label) : (s.goto l).eng.elapsed = s.eng.elapsed := rfl

/-! ### `setOpc` -/

@[simp] theorem State.setOpc_params (s : State) (v : Option Byte) : (s.setOpc v).params = s.params := rfl
@[simp] theorem State.setOpc_dev (s : State) (v : Option Byte) : (s.setOpc v).dev = s.dev := rfl
@[simp] theorem State.setOpc_requests (s : State) (v : Option Byte) : (s.setOpc v).requests = s.requests := rfl
@[simp] theorem State.setOpc_completions (s : State) (v : Option Byte) : (s.setOpc v).completions = s.completions := rfl
@[simp] theorem State.setOpc_refused (s : State) (v : Option Byte) : (s.setOpc v).refused = s.refused := rfl
@[simp] theorem State.setOpc_oracle (s : State) (v : Option Byte) : (s.setOpc v).oracle = s.oracle := rfl
@[simp] theorem State.setOpc_trace (s : State) (v : Option Byte) : (s.setOpc v).trace = s.trace := rfl
@[simp] theorem State.setOpc_eng_pc (s : State) (v : Option Byte) : (s.setOpc v).eng.pc = s.eng.pc := rfl
@[simp] theorem State.setOpc_eng_res (s : State) (v : Option Byte) : (s.setOpc v).eng.res = s.eng.res := rfl
@[simp] theorem State.setOpc_eng_opc (s : State) (v : Option Byte) : (s.setOpc v).eng.opc = some v := rfl
@[simp] theorem State.setOpc_eng_txc (s : State) (v : Option Byte) : (s.setOpc v).eng.txc = s.eng.txc := rfl
@[simp] theorem State.setOpc_eng_rxc (s : State) (v : Option Byte) : (s.setOpc v).eng.rxc = s.eng.rxc := rfl
@[simp] theorem State.setOpc_eng_cur (s : State) (v : Option Byte) : (s.setOpc v).eng.cur = s.eng.cur := rfl
@[simp] theorem State.setOpc_eng_status (s : State) (v : Option Byte) : (s.setOpc v).eng.status = s.eng.status := rfl
@[simp] theorem State.setOpc_eng_actual (s : State) (v : Option Byte) : (s.setOpc v).eng.actual = s.eng.actual := rfl
@[simp] theorem State.setOpc_eng_npoll (s : State) (v : Option Byte) : (s.setOpc v).eng.npoll = s.eng.npoll := rfl
@[simp] theorem State.setOpc_eng_msg (s : State) (v : Option Byte) : (s.setOpc v).eng.msg = s.eng.msg := rfl
@[simp] theorem State.setOpc_eng_elapsed (s : State) (v : Option Byte) : (s.setOpc v).eng.elapsed = s.eng.elapsed := rfl

/-! ### `setTxc` -/

@[simp] theorem State.setTxc_params (s : State) (n : Nat) : (s.setTxc n).params = s.params := rfl
@[simp] theorem State.setTxc_dev (s : State) (n : Nat) : (s.setTxc n).dev = s.dev := rfl
@[simp] theorem State.setTxc_requests (s : State) (n : Nat) : (s.setTxc n).requests = s.requests := rfl
@[simp] theorem State.setTxc_completions (s : State) (n : Nat) : (s.setTxc n).completions = s.completions := rfl
@[simp] theorem State.setTxc_refused (s : State) (n : Nat) : (s.setTxc n).refused = s.refused := rfl
@[simp] theorem State.setTxc_oracle (s : State) (n : Nat) : (s.setTxc n).oracle = s.oracle := rfl
@[simp] theorem State.setTxc_trace (s : State) (n : Nat) : (s.setTxc n).trace = s.trace := rfl
@[simp] theorem State.setTxc_eng_pc (s : State) (n : Nat) : (s.setTxc n).eng.pc = s.eng.pc := rfl
@[simp] theorem State.setTxc_eng_res (s : State) (n : Nat) : (s.setTxc n).eng.res = s.eng.res := rfl
@[simp] theorem State.setTxc_eng_opc (s : State) (n : Nat) : (s.setTxc n).eng.opc = s.eng.opc := rfl
@[simp] theorem State.setTxc_eng_txc (s : State) (n : Nat) : (s.setTxc n).eng.txc = some n := rfl
@[simp] theorem State.setTxc_eng_rxc (s : State) (n : Nat) : (s.setTxc n).eng.rxc = s.eng.rxc := rfl
@[simp] theorem State.setTxc_eng_cur (s : State) (n : Nat) : (s.setTxc n).eng.cur = s.eng.cur := rfl
@[simp] theorem State.setTxc_eng_status (s : State) (n : Nat) : (s.setTxc n).eng.status = s.eng.status := rfl
@[simp] theorem State.setTxc_eng_actual (s : State) (n : Nat) : (s.setTxc n).eng.actual = s.eng.actual := rfl
@[simp] theorem State.setTxc_eng_npoll (s : State) (n : Nat) : (s.setTxc n).eng.npoll = s.eng.npoll := rfl
@[simp] theorem State.setTxc_eng_msg (s : State) (n : Nat) : (s.setTxc n).eng.msg = s.eng.msg := rfl
@[simp] theorem State.setTxc_eng_elapsed (s : State) (n : Nat) : (s.setTxc n).eng.elapsed = s.eng.elapsed := rfl

/-! ### `setRxc` -/

@[simp] theorem State.setRxc_params (s : State) (n : Nat) : (s.setRxc n).params = s.params := rfl
@[simp] theorem State.setRxc_dev (s : State) (n : Nat) : (s.setRxc n).dev = s.dev := rfl
@[simp] theorem State.setRxc_requests (s : State) (n : Nat) : (s.setRxc n).requests = s.requests := rfl
@[simp] theorem State.setRxc_completions (s : State) (n : Nat) : (s.setRxc n).completions = s.completions := rfl
@[simp] theorem State.setRxc_refused (s : State) (n : Nat) : (s.setRxc n).refused = s.refused := rfl
@[simp] theorem State.setRxc_oracle (s : State) (n : Nat) : (s.setRxc n).oracle = s.oracle := rfl
@[simp] theorem State.setRxc_trace (s : State) (n : Nat) : (s.setRxc n).trace = s.trace := rfl
@[simp] theorem State.setRxc_eng_pc (s : State) (n : Nat) : (s.setRxc n).eng.pc = s.eng.pc := rfl
@[simp] theorem State.setRxc_eng_res (s : State) (n : Nat) : (s.setRxc n).eng.res = s.eng.res := rfl
@[simp] theorem State.setRxc_eng_opc (s : State) (n : Nat) : (s.setRxc n).eng.opc = s.eng.opc := rfl
@[simp] theorem State.setRxc_eng_txc (s : State) (n : Nat) : (s.setRxc n).eng.txc = s.eng.txc := rfl
@[simp] theorem State.setRxc_eng_rxc (s : State) (n : Nat) : (s.setRxc n).eng.rxc = some n := rfl
@[simp] theorem State.setRxc_eng_cur (s : State) (n : Nat) : (s.setRxc n).eng.cur = s.eng.cur := rfl
@[simp] theorem State.setRxc_eng_status (s : State) (n : Nat) : (s.setRxc n).eng.status = s.eng.status := rfl
@[simp] theorem State.setRxc_eng_actual (s : State) (n : Nat) : (s.setRxc n).eng.actual = s.eng.actual := rfl
@[simp] theorem State.setRxc_eng_npoll (s : State) (n : Nat) : (s.setRxc n).eng.npoll = s.eng.npoll := rfl
@[simp] theorem State.setRxc_eng_msg (s : State) (n : Nat) : (s.setRxc n).eng.msg = s.eng.msg := rfl
@[simp] theorem State.setRxc_eng_elapsed (s : State) (n : Nat) : (s.setRxc n).eng.elapsed = s.eng.elapsed := rfl

/-! ### `setCur` -/

@[simp] theorem State.setCur_params (s : State) (n : Nat) : (s.setCur n).params = s.params := rfl
@[simp] theorem State.setCur_dev (s : State) (n : Nat) : (s.setCur n).dev = s.dev := rfl
@[simp] theorem State.setCur_requests (s : State) (n : Nat) : (s.setCur n).requests = s.requests := rfl
@[simp] theorem State.setCur_completions (s : State) (n : Nat) : (s.setCur n).completions = s.completions := rfl
@[simp] theorem State.setCur_refused (s : State) (n : Nat) : (s.setCur n).refused = s.refused := rfl
@[simp] theorem State.setCur_oracle (s : State) (n : Nat) : (s.setCur n).oracle = s.oracle := rfl
@[simp] theorem State.setCur_trace (s : State) (n : Nat) : (s.setCur n).trace = s.trace := rfl
@[simp] theorem State.setCur_eng_pc (s : State) (n : Nat) : (s.setCur n).eng.pc = s.eng.pc := rfl
@[simp] theorem State.setCur_eng_res (s : State) (n : Nat) : (s.setCur n).eng.res = s.eng.res := rfl
@[simp] theorem State.setCur_eng_opc (s : State) (n : Nat) : (s.setCur n).eng.opc = s.eng.opc := rfl
@[simp] theorem State.setCur_eng_txc (s : State) (n : Nat) : (s.setCur n).eng.txc = s.eng.txc := rfl
@[simp] theorem State.setCur_eng_rxc (s : State) (n : Nat) : (s.setCur n).eng.rxc = s.eng.rxc := rfl
@[simp] theorem State.setCur_eng_cur (s : State) (n : Nat) : (s.setCur n).eng.cur = some n := rfl
@[simp] theorem State.setCur_eng_status (s : State) (n : Nat) : (s.setCur n).eng.status = s.eng.status := rfl
@[simp] theorem State.setCur_eng_actual (s : State) (n : Nat) : (s.setCur n).eng.actual = s.eng.actual := rfl
@[simp] theorem State.setCur_eng_npoll (s : State) (n : Nat) : (s.setCur n).eng.npoll = s.eng.npoll := rfl
@[simp] theorem State.setCur_eng_msg (s : State) (n : Nat) : (s.setCur n).eng.msg = s.eng.msg := rfl
@[simp] theorem State.setCur_eng_elapsed (s : State) (n : Nat) : (s.setCur n).eng.elapsed = s.eng.elapsed := rfl

/-! ### `setStatus` -/

@[simp] theorem State.setStatus_params (s : State) (st : Status) : (s.setStatus st).params = s.params := rfl
@[simp] theorem State.setStatus_dev (s : State) (st : Status) : (s.setStatus st).dev = s.dev := rfl
@[simp] theorem State.setStatus_requests (s : State) (st : Status) : (s.setStatus st).requests = s.requests := rfl
@[simp] theorem State.setStatus_completions (s : State) (st : Status) : (s.setStatus st).completions = s.completions := rfl
@[simp] theorem State.setStatus_refused (s : State) (st : Status) : (s.setStatus st).refused = s.refused := rfl
@[simp] theorem State.setStatus_oracle (s : State) (st : Status) : (s.setStatus st).oracle = s.oracle := rfl
@[simp] theorem State.setStatus_trace (s : State) (st : Status) : (s.setStatus st).trace = s.trace := rfl
@[simp] theorem State.setStatus_eng_pc (s : State) (st : Status) : (s.setStatus st).eng.pc = s.eng.pc := rfl
@[simp] theorem State.setStatus_eng_res (s : State) (st : Status) : (s.setStatus st).eng.res = s.eng.res := rfl
@[simp] theorem State.setStatus_eng_opc (s : State) (st : Status) : (s.setStatus st).eng.opc = s.eng.opc := rfl
@[simp] theorem State.setStatus_eng_txc (s : State) (st : Status) : (s.setStatus st).eng.txc = s.eng.txc := rfl
@[simp] theorem State.setStatus_eng_rxc (s : State) (st : Status) : (s.setStatus st).eng.rxc = s.eng.rxc := rfl
@[simp] theorem State.setStatus_eng_cur (s : State) (st : Status) : (s.setStatus st).eng.cur = s.eng.cur := rfl
@[simp] theorem State.setStatus_eng_status (s : State) (st : Status) : (s.setStatus st).eng.status = some st := rfl
@[simp] theorem State.setStatus_eng_actual (s : State) (st : Status) : (s.setStatus st).eng.actual = s.eng.actual := rfl
@[simp] theorem State.setStatus_eng_npoll (s : State) (st : Status) : (s.setStatus st).eng.npoll = s.eng.npoll := rfl
@[simp] theorem State.setStatus_eng_msg (s : State) (st : Status) : (s.setStatus st).eng.msg = s.eng.msg := rfl
@[simp] theorem State.setStatus_eng_elapsed (s : State) (st : Status) : (s.setStatus st).eng.elapsed = s.eng.elapsed := rfl

/-! ### `setActual` -/

@[simp] theorem State.setActual_params (s : State) (n : Nat) : (s.setActual n).params = s.params := rfl
@[simp] theorem State.setActual_dev (s : State) (n : Nat) : (s.setActual n).dev = s.dev := rfl
@[simp] theorem State.setActual_requests (s : State) (n : Nat) : (s.setActual n).requests = s.requests := rfl
@[simp] theorem State.setActual_completions (s : State) (n : Nat) : (s.setActual n).completions = s.completions := rfl
@[simp] theorem State.setActual_refused (s : State) (n : Nat) : (s.setActual n).refused = s.refused := rfl
@[simp] theorem State.setActual_oracle (s : State) (n : Nat) : (s.setActual n).oracle = s.oracle := rfl
@[simp] theorem State.setActual_trace (s : State) (n : Nat) : (s.setActual n).trace = s.trace := rfl
@[simp] theorem State.setActual_eng_pc (s : State) (n : Nat) : (s.setActual n).eng.pc = s.eng.pc := rfl
@[simp] theorem State.setActual_eng_res (s : State) (n : Nat) : (s.setActual n).eng.res = s.eng.res := rfl
@[simp] theorem State.setActual_eng_opc (s : State) (n : Nat) : (s.setActual n).eng.opc = s.eng.opc := rfl
@[simp] theorem State.setActual_eng_txc (s : State) (n : Nat) : (s.setActual n).eng.txc = s.eng.txc := rfl
@[simp] theorem State.setActual_eng_rxc (s : State) (n : Nat) : (s.setActual n).eng.rxc = s.eng.rxc := rfl
@[simp] theorem State.setActual_eng_cur (s : State) (n : Nat) : (s.setActual n).eng.cur = s.eng.cur := rfl
@[simp] theorem State.setActual_eng_status (s : State) (n : Nat) : (s.setActual n).eng.status = s.eng.status := rfl
@[simp] theorem State.setActual_eng_actual (s : State) (n : Nat) : (s.setActual n).eng.actual = some (some n) := rfl
@[simp] theorem State.setActual_eng_npoll (s : State) (n : Nat) : (s.setActual n).eng.npoll = s.eng.npoll := rfl
@[simp] theorem State.setActual_eng_msg (s : State) (n : Nat) : (s.setActual n).eng.msg = s.eng.msg := rfl
@[simp] theorem State.setActual_eng_elapsed (s : State) (n : Nat) : (s.setActual n).eng.elapsed = s.eng.elapsed := rfl

/-! ### `setNpoll` -/

@[simp] theorem State.setNpoll_params (s : State) (n : Nat) : (s.setNpoll n).params = s.params := rfl
@[simp] theorem State.setNpoll_dev (s : State) (n : Nat) : (s.setNpoll n).dev = s.dev := rfl
@[simp] theorem State.setNpoll_requests (s : State) (n : Nat) : (s.setNpoll n).requests = s.requests := rfl
@[simp] theorem State.setNpoll_completions (s : State) (n : Nat) : (s.setNpoll n).completions = s.completions := rfl
@[simp] theorem State.setNpoll_refused (s : State) (n : Nat) : (s.setNpoll n).refused = s.refused := rfl
@[simp] theorem State.setNpoll_oracle (s : State) (n : Nat) : (s.setNpoll n).oracle = s.oracle := rfl
@[simp] theorem State.setNpoll_trace (s : State) (n : Nat) : (s.setNpoll n).trace = s.trace := rfl
@[simp] theorem State.setNpoll_eng_pc (s : State) (n : Nat) : (s.setNpoll n).eng.pc = s.eng.pc := rfl
@[simp] theorem State.setNpoll_eng_res (s : State) (n : Nat) : (s.setNpoll n).eng.res = s.eng.res := rfl
@[simp] theorem State.setNpoll_eng_opc (s : State) (n : Nat) : (s.setNpoll n).eng.opc = s.eng.opc := rfl
@[simp] theorem State.setNpoll_eng_txc (s : State) (n : Nat) : (s.setNpoll n).eng.txc = s.eng.txc := rfl
@[simp] theorem State.setNpoll_eng_rxc (s : State) (n : Nat) : (s.setNpoll n).eng.rxc = s.eng.rxc := rfl
@[simp] theorem State.setNpoll_eng_cur (s : State) (n : Nat) : (s.setNpoll n).eng.cur = s.eng.cur := rfl
@[simp] theorem State.setNpoll_eng_status (s : State) (n : Nat) : (s.setNpoll n).eng.status = s.eng.status := rfl
@[simp] theorem State.setNpoll_eng_actual (s : State) (n : Nat) : (s.setNpoll n).eng.actual = s.eng.actual := rfl
@[simp] theorem State.setNpoll_eng_npoll (s : State) (n : Nat) : (s.setNpoll n).eng.npoll = some n := rfl
@[simp] theorem State.setNpoll_eng_msg (s : State) (n : Nat) : (s.setNpoll n).eng.msg = s.eng.msg := rfl
@[simp] theorem State.setNpoll_eng_elapsed (s : State) (n : Nat) : (s.setNpoll n).eng.elapsed = s.eng.elapsed := rfl

/-! ### `setElapsed` -/

@[simp] theorem State.setElapsed_params (s : State) (n : Nat) : (s.setElapsed n).params = s.params := rfl
@[simp] theorem State.setElapsed_dev (s : State) (n : Nat) : (s.setElapsed n).dev = s.dev := rfl
@[simp] theorem State.setElapsed_requests (s : State) (n : Nat) : (s.setElapsed n).requests = s.requests := rfl
@[simp] theorem State.setElapsed_completions (s : State) (n : Nat) : (s.setElapsed n).completions = s.completions := rfl
@[simp] theorem State.setElapsed_refused (s : State) (n : Nat) : (s.setElapsed n).refused = s.refused := rfl
@[simp] theorem State.setElapsed_oracle (s : State) (n : Nat) : (s.setElapsed n).oracle = s.oracle := rfl
@[simp] theorem State.setElapsed_trace (s : State) (n : Nat) : (s.setElapsed n).trace = s.trace := rfl
@[simp] theorem State.setElapsed_eng_pc (s : State) (n : Nat) : (s.setElapsed n).eng.pc = s.eng.pc := rfl
@[simp] theorem State.setElapsed_eng_res (s : State) (n : Nat) : (s.setElapsed n).eng.res = s.eng.res := rfl
@[simp] theorem State.setElapsed_eng_opc (s : State) (n : Nat) : (s.setElapsed n).eng.opc = s.eng.opc := rfl
@[simp] theorem State.setElapsed_eng_txc (s : State) (n : Nat) : (s.setElapsed n).eng.txc = s.eng.txc := rfl
@[simp] theorem State.setElapsed_eng_rxc (s : State) (n : Nat) : (s.setElapsed n).eng.rxc = s.eng.rxc := rfl
@[simp] theorem State.setElapsed_eng_cur (s : State) (n : Nat) : (s.setElapsed n).eng.cur = s.eng.cur := rfl
@[simp] theorem State.setElapsed_eng_status (s : State) (n : Nat) : (s.setElapsed n).eng.status = s.eng.status := rfl
@[simp] theorem State.setElapsed_eng_actual (s : State) (n : Nat) : (s.setElapsed n).eng.actual = s.eng.actual := rfl
@[simp] theorem State.setElapsed_eng_npoll (s : State) (n : Nat) : (s.setElapsed n).eng.npoll = s.eng.npoll := rfl
@[simp] theorem State.setElapsed_eng_msg (s : State) (n : Nat) : (s.setElapsed n).eng.msg = s.eng.msg := rfl
@[simp] theorem State.setElapsed_eng_elapsed (s : State) (n : Nat) : (s.setElapsed n).eng.elapsed = n := rfl

/-! ### `setMsg` -/

@[simp] theorem State.setMsg_params (s : State) (m : Message) : (s.setMsg m).params = s.params := rfl
@[simp] theorem State.setMsg_dev (s : State) (m : Message) : (s.setMsg m).dev = s.dev := rfl
@[simp] theorem State.setMsg_requests (s : State) (m : Message) : (s.setMsg m).requests = s.requests := rfl
@[simp] theorem State.setMsg_completions (s : State) (m : Message) : (s.setMsg m).completions = s.completions := rfl
@[simp] theorem State.setMsg_refused (s : State) (m : Message) : (s.setMsg m).refused = s.refused := rfl
@[simp] theorem State.setMsg_oracle (s : State) (m : Message) : (s.setMsg m).oracle = s.oracle := rfl
@[simp] theorem State.setMsg_trace (s : State) (m : Message) : (s.setMsg m).trace = s.trace := rfl
@[simp] theorem State.setMsg_eng_pc (s : State) (m : Message) : (s.setMsg m).eng.pc = s.eng.pc := rfl
@[simp] theorem State.setMsg_eng_res (s : State) (m : Message) : (s.setMsg m).eng.res = s.eng.res := rfl
@[simp] theorem State.setMsg_eng_opc (s : State) (m : Message) : (s.setMsg m).eng.opc = s.eng.opc := rfl
@[simp] theorem State.setMsg_eng_txc (s : State) (m : Message) : (s.setMsg m).eng.txc = s.eng.txc := rfl
@[simp] theorem State.setMsg_eng_rxc (s : State) (m : Message) : (s.setMsg m).eng.rxc = s.eng.rxc := rfl
@[simp] theorem State.setMsg_eng_cur (s : State) (m : Message) : (s.setMsg m).eng.cur = s.eng.cur := rfl
@[simp] theorem State.setMsg_eng_status (s : State) (m : Message) : (s.setMsg m).eng.status = s.eng.status := rfl
@[simp] theorem State.setMsg_eng_actual (s : State) (m : Message) : (s.setMsg m).eng.actual = s.eng.actual := rfl
@[simp] theorem State.setMsg_eng_npoll (s : State) (m : Message) : (s.setMsg m).eng.npoll = s.eng.npoll := rfl
@[simp] theorem State.setMsg_eng_msg (s : State) (m : Message) : (s.setMsg m).eng.msg = some m := rfl
@[simp] theorem State.setMsg_eng_elapsed (s : State) (m : Message) : (s.setMsg m).eng.elapsed = s.eng.elapsed := rfl

/-! ### `State.setOracle` -/

@[simp] theorem State.setOracle_params (s : State) (o : Oracle) : (s.setOracle o).params = s.params := rfl
@[simp] theorem State.setOracle_dev (s : State) (o : Oracle) : (s.setOracle o).dev = s.dev := rfl
@[simp] theorem State.setOracle_eng (s : State) (o : Oracle) : (s.setOracle o).eng = s.eng := rfl
@[simp] theorem State.setOracle_requests (s : State) (o : Oracle) : (s.setOracle o).requests = s.requests := rfl
@[simp] theorem State.setOracle_completions (s : State) (o : Oracle) : (s.setOracle o).completions = s.completions := rfl
@[simp] theorem State.setOracle_refused (s : State) (o : Oracle) : (s.setOracle o).refused = s.refused := rfl
@[simp] theorem State.setOracle_oracle (s : State) (o : Oracle) : (s.setOracle o).oracle = o := rfl
@[simp] theorem State.setOracle_trace (s : State) (o : Oracle) : (s.setOracle o).trace = s.trace := rfl

/-! ### `State.refuse` -/

@[simp] theorem State.refuse_params (s : State) : s.refuse.params = s.params := rfl
@[simp] theorem State.refuse_dev (s : State) : s.refuse.dev = s.dev := rfl
@[simp] theorem State.refuse_eng (s : State) : s.refuse.eng = s.eng := rfl
@[simp] theorem State.refuse_requests (s : State) : s.refuse.requests = s.requests := rfl
@[simp] theorem State.refuse_completions (s : State) : s.refuse.completions = s.completions := rfl
@[simp] theorem State.refuse_refused (s : State) : s.refuse.refused = true := rfl
@[simp] theorem State.refuse_oracle (s : State) : s.refuse.oracle = s.oracle := rfl
@[simp] theorem State.refuse_trace (s : State) : s.refuse.trace = s.trace := rfl

/-! ### `State.turn` -/

@[simp] theorem State.turn_params (s : State) : s.turn.params = s.params := rfl
@[simp] theorem State.turn_dev (s : State) : s.turn.dev = (deviceTurn s.params s.dev s.oracle).1 := rfl
@[simp] theorem State.turn_eng (s : State) : s.turn.eng = s.eng := rfl
@[simp] theorem State.turn_requests (s : State) : s.turn.requests = s.requests := rfl
@[simp] theorem State.turn_completions (s : State) : s.turn.completions = s.completions := rfl
@[simp] theorem State.turn_refused (s : State) : s.turn.refused = s.refused := rfl
@[simp] theorem State.turn_oracle (s : State) : s.turn.oracle = (deviceTurn s.params s.dev s.oracle).2 := rfl
@[simp] theorem State.turn_trace (s : State) : s.turn.trace = s.trace := rfl

/-! ### `portRead8_snd` -/

@[simp] theorem portRead8_snd_params (s : State) (r : Reg8) : (portRead8 r s).2.params = s.params := rfl
@[simp] theorem portRead8_snd_dev (s : State) (r : Reg8) : (portRead8 r s).2.dev = s.turn.dev := rfl
@[simp] theorem portRead8_snd_eng (s : State) (r : Reg8) : (portRead8 r s).2.eng = s.eng := rfl
@[simp] theorem portRead8_snd_requests (s : State) (r : Reg8) : (portRead8 r s).2.requests = s.requests := rfl
@[simp] theorem portRead8_snd_completions (s : State) (r : Reg8) : (portRead8 r s).2.completions = s.completions := rfl
@[simp] theorem portRead8_snd_refused (s : State) (r : Reg8) : (portRead8 r s).2.refused = s.refused := rfl
@[simp] theorem portRead8_snd_oracle (s : State) (r : Reg8) : (portRead8 r s).2.oracle = (devRead8 s.params s.turn.dev r s.turn.oracle).2 := rfl
@[simp] theorem portRead8_snd_trace (s : State) (r : Reg8) : (portRead8 r s).2.trace = s.trace ++ [.rd8 r.offset (portRead8 r s).1] := rfl

/-! ### `portRead32_snd` -/

@[simp] theorem portRead32_snd_params (s : State) (r : Reg32) : (portRead32 r s).2.params = s.params := rfl
@[simp] theorem portRead32_snd_dev (s : State) (r : Reg32) : (portRead32 r s).2.dev = s.turn.dev := rfl
@[simp] theorem portRead32_snd_eng (s : State) (r : Reg32) : (portRead32 r s).2.eng = s.eng := rfl
@[simp] theorem portRead32_snd_requests (s : State) (r : Reg32) : (portRead32 r s).2.requests = s.requests := rfl
@[simp] theorem portRead32_snd_completions (s : State) (r : Reg32) : (portRead32 r s).2.completions = s.completions := rfl
@[simp] theorem portRead32_snd_refused (s : State) (r : Reg32) : (portRead32 r s).2.refused = s.refused := rfl
@[simp] theorem portRead32_snd_oracle (s : State) (r : Reg32) : (portRead32 r s).2.oracle = (devRead32 s.params s.turn.dev r s.turn.oracle).2 := rfl
@[simp] theorem portRead32_snd_trace (s : State) (r : Reg32) : (portRead32 r s).2.trace = s.trace ++ [.rd32 r.offset (portRead32 r s).1] := rfl

/-! ### `portWrite8` -/

@[simp] theorem portWrite8_params (s : State) (r : Reg8) (v : Byte) : (portWrite8 r v s).params = s.params := rfl
@[simp] theorem portWrite8_dev (s : State) (r : Reg8) (v : Byte) : (portWrite8 r v s).dev = devWrite8 s.params s.turn.dev r v := rfl
@[simp] theorem portWrite8_eng (s : State) (r : Reg8) (v : Byte) : (portWrite8 r v s).eng = s.eng := rfl
@[simp] theorem portWrite8_requests (s : State) (r : Reg8) (v : Byte) : (portWrite8 r v s).requests = s.requests := rfl
@[simp] theorem portWrite8_completions (s : State) (r : Reg8) (v : Byte) : (portWrite8 r v s).completions = s.completions := rfl
@[simp] theorem portWrite8_refused (s : State) (r : Reg8) (v : Byte) : (portWrite8 r v s).refused = s.refused := rfl
@[simp] theorem portWrite8_oracle (s : State) (r : Reg8) (v : Byte) : (portWrite8 r v s).oracle = s.turn.oracle := rfl
@[simp] theorem portWrite8_trace (s : State) (r : Reg8) (v : Byte) : (portWrite8 r v s).trace = s.trace ++ [.wr8 r.offset v] := rfl

/-! ### `portWrite32` -/

@[simp] theorem portWrite32_params (s : State) (r : Reg32) (v : Word) : (portWrite32 r v s).params = s.params := rfl
@[simp] theorem portWrite32_dev (s : State) (r : Reg32) (v : Word) : (portWrite32 r v s).dev = devWrite32 s.params s.turn.dev r v := rfl
@[simp] theorem portWrite32_eng (s : State) (r : Reg32) (v : Word) : (portWrite32 r v s).eng = s.eng := rfl
@[simp] theorem portWrite32_requests (s : State) (r : Reg32) (v : Word) : (portWrite32 r v s).requests = s.requests := rfl
@[simp] theorem portWrite32_completions (s : State) (r : Reg32) (v : Word) : (portWrite32 r v s).completions = s.completions := rfl
@[simp] theorem portWrite32_refused (s : State) (r : Reg32) (v : Word) : (portWrite32 r v s).refused = s.refused := rfl
@[simp] theorem portWrite32_oracle (s : State) (r : Reg32) (v : Word) : (portWrite32 r v s).oracle = s.turn.oracle := rfl
@[simp] theorem portWrite32_trace (s : State) (r : Reg32) (v : Word) : (portWrite32 r v s).trace = s.trace ++ [.wr32 r.offset v] := rfl

/-! ### `portWriteBack8` -/

@[simp] theorem portWriteBack8_params (s : State) (r : Reg8) (c a k : Byte) :
    (portWriteBack8 r c a k s).params = s.params := rfl
@[simp] theorem portWriteBack8_dev (s : State) (r : Reg8) (c a k : Byte) :
    (portWriteBack8 r c a k s).dev = devWrite8 s.params s.turn.dev r
      (setClear (writtenBack c r.selfClearing s.turn.oracle).1 a k) := rfl
@[simp] theorem portWriteBack8_eng (s : State) (r : Reg8) (c a k : Byte) :
    (portWriteBack8 r c a k s).eng = s.eng := rfl
@[simp] theorem portWriteBack8_requests (s : State) (r : Reg8) (c a k : Byte) :
    (portWriteBack8 r c a k s).requests = s.requests := rfl
@[simp] theorem portWriteBack8_completions (s : State) (r : Reg8) (c a k : Byte) :
    (portWriteBack8 r c a k s).completions = s.completions := rfl
@[simp] theorem portWriteBack8_refused (s : State) (r : Reg8) (c a k : Byte) :
    (portWriteBack8 r c a k s).refused = s.refused := rfl
@[simp] theorem portWriteBack8_oracle (s : State) (r : Reg8) (c a k : Byte) :
    (portWriteBack8 r c a k s).oracle = (writtenBack c r.selfClearing s.turn.oracle).2 := rfl
@[simp] theorem portWriteBack8_trace (s : State) (r : Reg8) (c a k : Byte) :
    (portWriteBack8 r c a k s).trace = s.trace ++ [.wr8 r.offset (setClear c a k)] := rfl

/-! ### `portWriteBack32` -/

@[simp] theorem portWriteBack32_params (s : State) (r : Reg32) (c a k : Word) :
    (portWriteBack32 r c a k s).params = s.params := rfl
@[simp] theorem portWriteBack32_dev (s : State) (r : Reg32) (c a k : Word) :
    (portWriteBack32 r c a k s).dev = devWrite32 s.params s.turn.dev r
      (setClear (writtenBack c r.selfClearing s.turn.oracle).1 a k) := rfl
@[simp] theorem portWriteBack32_eng (s : State) (r : Reg32) (c a k : Word) :
    (portWriteBack32 r c a k s).eng = s.eng := rfl
@[simp] theorem portWriteBack32_requests (s : State) (r : Reg32) (c a k : Word) :
    (portWriteBack32 r c a k s).requests = s.requests := rfl
@[simp] theorem portWriteBack32_completions (s : State) (r : Reg32) (c a k : Word) :
    (portWriteBack32 r c a k s).completions = s.completions := rfl
@[simp] theorem portWriteBack32_refused (s : State) (r : Reg32) (c a k : Word) :
    (portWriteBack32 r c a k s).refused = s.refused := rfl
@[simp] theorem portWriteBack32_oracle (s : State) (r : Reg32) (c a k : Word) :
    (portWriteBack32 r c a k s).oracle = (writtenBack c r.selfClearing s.turn.oracle).2 := rfl
@[simp] theorem portWriteBack32_trace (s : State) (r : Reg32) (c a k : Word) :
    (portWriteBack32 r c a k s).trace = s.trace ++ [.wr32 r.offset (setClear c a k)] := rfl

end Sys2Proof.Machine
end

