-- ==== Sys2Proof/Laws/Device.lean ====
section
/-! SUPPORT. The device: what its turn and its writes can do, each said once. -/

namespace Sys2Proof.Machine

/-! ### The named masks, as R87 writes them -/

theorem execBit_eq : execBit = 0x00010000#32 := rfl
theorem fifoClearBit_eq : fifoClearBit = 0x00100000#32 := rfl
theorem busyBit_eq : busyBit = 0x80000000#32 := rfl
theorem triggerBit_eq : triggerBit = 0x80#8 := rfl
theorem csMask_eq : csMask = 0x03#8 := rfl
theorem opcodeMask_eq : opcodeMask = 0x000000FF#32 := rfl
theorem ctrl0Storage_eq : ctrl0Storage = 0x7FEEFFFF#32 := rfl

/-! ### The free-value source -/

theorem Oracle.bytes_length (n : Nat) (o : Oracle) : (o.bytes n).1.length = n := by
  induction n generalizing o with
  | zero => rfl
  | succ n ih => simp [Oracle.bytes, ih]

/-! ### The turn -/

theorem Phase.isIdle_iff (ph : Phase) : ph.isIdle = true ↔ ph = .idle := by cases ph <;> simp [Phase.isIdle]

theorem Phase.txn_none_iff (ph : Phase) : ph.txn = none ↔ ph = .idle := by cases ph <;> simp [Phase.txn]

/-- An idle device without havoc has no step to take (R220). -/
theorem deviceTurn_idle {p : Params} {d : Device} (hh : d.havoc = false) (hi : d.phase = .idle) (o : Oracle) :
    deviceTurn p d o = (d, o) := by
  simp [deviceTurn, hh, deviceMoves, hi, Phase.isIdle]

theorem State.turn_idle {s : State} (hh : s.dev.havoc = false) (hi : s.dev.phase = .idle) : s.turn = s := by
  simp [State.turn, deviceTurn_idle hh hi]

/-- A property of the device kept by every enabled transition is kept by any number of them. -/
theorem deviceMoves_keeps (P : Device → Prop) (p : Params)
    (hmove : ∀ n d o, P d → P (deviceMove p n d o).1) (k : Nat) (d : Device) (o : Oracle) (h : P d) :
    P (deviceMoves p k d o).1 := by
  induction k generalizing d o with
  | zero => exact h
  | succ k ih =>
    simp only [deviceMoves]
    split
    · exact h
    · split
      · exact h
      · exact ih _ _ (hmove _ _ _ h)

theorem completeTxn_havoc (p : Params) (t : Txn) (d : Device) (o : Oracle) :
    (completeTxn p t d o).1.havoc = d.havoc := rfl

theorem completeTxn_phase (p : Params) (t : Txn) (d : Device) (o : Oracle) :
    (completeTxn p t d o).1.phase = .idle := rfl

theorem completeTxn_ptr (p : Params) (t : Txn) (d : Device) (o : Oracle) :
    (completeTxn p t d o).1.fifoPtrCleared = d.fifoPtrCleared := rfl

theorem completeTxn_cs (p : Params) (t : Txn) (d : Device) (o : Oracle) :
    (completeTxn p t d o).1.cs = d.cs := rfl

/-- What one transition can do (R220, R225 to R229). -/
theorem deviceMove_cases (p : Params) (n : Nat) (d : Device) (o : Oracle) :
    (d.phase = .idle ∧ deviceMove p n d o = (d, o)) ∨
    (∃ t, (d.phase = .tx t ∧ t.rx = 0 ∨ d.phase = .rx t) ∧ deviceMove p n d o = completeTxn p t d o) ∨
    (∃ t, d.phase = .tx t ∧ t.rx ≠ 0 ∧ p.rxGapAdmitted = true ∧ deviceMove p n d o = ({ d with phase := .gap t }, o)) ∨
    (∃ t, (d.phase = .tx t ∧ t.rx ≠ 0 ∨ d.phase = .gap t) ∧ deviceMove p n d o = ({ d with phase := .rx t }, o)) := by
  rcases hp : d.phase with _ | t | t | t
  · simp [deviceMove, hp]
  · by_cases h0 : t.rx = 0
    · exact .inr (.inl ⟨t, .inl ⟨rfl, h0⟩, by simp [deviceMove, hp, h0]⟩)
    · by_cases hg : (p.rxGapAdmitted && n % 2 == 0) = true
      · refine .inr (.inr (.inl ⟨t, rfl, h0, ?_, by simp [deviceMove, hp, h0, hg]⟩))
        simp only [Bool.and_eq_true] at hg
        exact hg.1
      · exact .inr (.inr (.inr ⟨t, .inl ⟨rfl, h0⟩, by simp [deviceMove, hp, h0, hg]⟩))
  · exact .inr (.inr (.inr ⟨t, .inr rfl, by simp [deviceMove, hp]⟩))
  · exact .inr (.inl ⟨t, .inr rfl, by simp [deviceMove, hp]⟩)

theorem havocDevice_havoc (n : Nat) : (havocDevice n).havoc = true := rfl

/-- A property of the device kept by every transition, and held by what the device may be under havoc, is kept by its turn. -/
theorem deviceTurn_keeps (P : Device → Prop) (p : Params)
    (hmove : ∀ n d o, d.havoc = false → P d → P (deviceMove p n d o).1)
    (hhavoc : ∀ n d, d.havoc = true → P d → P (havocDevice n)) (d : Device) (o : Oracle) (h : P d) :
    P (deviceTurn p d o).1 := by
  unfold deviceTurn
  split
  · exact hhavoc _ d (by assumption) h
  · have hb : d.havoc = false := by simpa using ‹¬ d.havoc = true›
    refine (deviceMoves_keeps (fun d => d.havoc = false ∧ P d) p (fun n d o hd => ⟨?_, ?_⟩) 3 d o ⟨hb, h⟩).2
    · rcases deviceMove_cases p n d o with ⟨_, e⟩ | ⟨t, _, e⟩ | ⟨t, _, _, _, e⟩ | ⟨t, _, e⟩ <;>
        simp [e, hd.1, completeTxn_havoc]
    · exact hmove n d o hd.1 hd.2

/-! ### The reads -/

/-- What a CTRL0 read gives (R22 to R26): the storage bits, an EXEC bit that is 0 while `IDLE`, and a BUSY bit that is busy in
Variant A; an idle Variant A device draws nothing. -/
theorem ctrl0Read_spec (p : Params) (d : Device) (o : Oracle) :
    ∃ (ex bu : Bool) (o' : Oracle),
      ctrl0Read p d o = ((d.ctrl0 &&& ctrl0Storage) ||| bitAt ex execBit ||| bitAt bu busyBit, o') ∧
      (d.phase = .idle → ex = false) ∧ (p.version = .a → bu = d.phase.busy) ∧
      (d.phase = .idle → p.version = .a → o' = o) := by
  refine ⟨_, _, _, rfl, fun h => by simp [h, Phase.isIdle], fun h => by simp [h], fun h h' => by
    simp [h, h', Phase.isIdle]⟩

/-- The bits of a CTRL0 value read (R22 to R26). -/
theorem ctrl0Value_bits (c : Word) (ex bu : Bool) :
    ((c &&& ctrl0Storage) ||| bitAt ex execBit ||| bitAt bu busyBit) &&& ctrl0Storage = c &&& ctrl0Storage ∧
    ((c &&& ctrl0Storage) ||| bitAt ex execBit ||| bitAt bu busyBit)[16] = ex ∧
    ((c &&& ctrl0Storage) ||| bitAt ex execBit ||| bitAt bu busyBit)[20] = false ∧
    ((c &&& ctrl0Storage) ||| bitAt ex execBit ||| bitAt bu busyBit)[31] = bu := by
  have h1 : execBit &&& ctrl0Storage = 0#32 := rfl
  have h2 : busyBit &&& ctrl0Storage = 0#32 := rfl
  have h3 : ctrl0Storage[16] = false ∧ ctrl0Storage[20] = false ∧ ctrl0Storage[31] = false := ⟨rfl, rfl, rfl⟩
  have h4 : execBit[16] = true ∧ execBit[20] = false ∧ execBit[31] = false := ⟨rfl, rfl, rfl⟩
  have h5 : busyBit[16] = false ∧ busyBit[20] = false ∧ busyBit[31] = true := ⟨rfl, rfl, rfl⟩
  refine ⟨?_, ?_⟩
  · simp only [BitVec.and_or_distrib_right, BitVec.and_assoc, BitVec.and_self]
    cases ex <;> cases bu <;> simp [bitAt, h1, h2]
  · cases ex <;> cases bu <;> simp [bitAt, h3, h4, h5]

/-- What a STATUS read gives in Variant B (R31): busy at bit 31. -/
theorem statusRead_busy {p : Params} (h : p.version = .b) (d : Device) (o : Oracle) :
    (statusRead p d o).1[31] = d.phase.busy := by
  have hb : ∀ (b : Bool) (x : BitVec 31), (bitAt b busyBit ||| x.setWidth 32)[31] = b := by
    intro b x
    cases b <;> simp [bitAt, show busyBit[31] = true from rfl]
  simp only [statusRead, h]
  exact hb _ _

/-- The register a version polls shows busy at bit 31, whatever its other bits (R25, R31, R127). -/
theorem devRead32_known {p : Params} {d : Device} (hv : p.version ≠ .other) (hh : d.havoc = false) (r : Reg32) (o : Oracle) :
    devRead32 p d r o = (match r with | .ctrl0 => ctrl0Read p d o | .status => statusRead p d o) := by
  cases r <;> simp [devRead32, hv, hh]

/-! ### The writes -/

/-- What a trigger can do (R221, R222). -/
theorem triggerDevice_cases (p : Params) (d : Device) :
    ((d.fifoPtrCleared = false ∨ d.txCount.toNat + d.rxCount.toNat > Config.fifoCapacity) ∧
      triggerDevice p d = d.setHavoc) ∨
    (d.fifoPtrCleared = true ∧ d.txCount.toNat + d.rxCount.toNat ≤ Config.fifoCapacity ∧
      triggerDevice p d =
        { d with
            phase := .tx (captureTxn p d)
            events := d.events ++
              [.start (captureTxn p d).cs (captureTxn p d).op (captureTxn p d).txbytes (captureTxn p d).rx] }) := by
  by_cases h : (!d.fifoPtrCleared || decide (d.txCount.toNat + d.rxCount.toNat > Config.fifoCapacity)) = true
  · refine .inl ⟨?_, by simp [triggerDevice, h]⟩
    simpa [Bool.or_eq_true] using h
  · refine .inr ?_
    have h' := h
    simp only [Bool.or_eq_true, Bool.not_eq_true', decide_eq_true_eq, not_or, Bool.not_eq_false, not_lt] at h'
    exact ⟨h'.1, h'.2, by simp [triggerDevice, h]⟩

theorem captureTxn_fits {p : Params} {d : Device}
    (h : d.txCount.toNat + d.rxCount.toNat ≤ Config.fifoCapacity) : (captureTxn p d).fits :=
  ⟨by simp [captureTxn, Memory.bytes_length], by simpa [captureTxn] using h⟩

/-- What a byte write can do: nothing under havoc, set havoc, store while `IDLE`, or trigger (R106). -/
theorem devWrite8_cases (p : Params) (d : Device) (r : Reg8) (v : Byte) :
    (d.havoc = true ∧ devWrite8 p d r v = d) ∨
    devWrite8 p d r v = d.setHavoc ∨
    (d.havoc = false ∧ d.phase = .idle ∧ p.version ≠ .other ∧
      ((r = .cs ∧ devWrite8 p d r v = { d with cs := v }) ∨
       (r = .opcode ∧ p.version = .b ∧ devWrite8 p d r v = { d with opcode := v }) ∨
       (r = .txCount ∧ devWrite8 p d r v = { d with txCount := v }) ∨
       (r = .rxCount ∧ devWrite8 p d r v = { d with rxCount := v }) ∨
       (∃ i, r = .fifo i ∧ devWrite8 p d r v = { d with fifo := d.fifo.write (Config.fifoBase + i.val) v }) ∨
       (r = .trigger ∧ p.version = .b ∧ v[7] = false ∧
          devWrite8 p d r v = { d with trigger := v.setWidth 7 }) ∨
       (r = .trigger ∧ p.version = .b ∧ v[7] = true ∧
          devWrite8 p d r v = triggerDevice p { d with trigger := v.setWidth 7 }))) := by
  by_cases hv : p.version = .other
  · exact .inr (.inl (by simp [devWrite8, hv]))
  by_cases hh : d.havoc = true
  · exact .inl ⟨hh, by simp [devWrite8, hv, hh]⟩
  have hh' : d.havoc = false := by simpa using hh
  by_cases hi : d.phase.isIdle = true
  · have hid := (Phase.isIdle_iff _).1 hi
    cases r with
    | cs => exact .inr (.inr ⟨hh', hid, hv, .inl ⟨rfl, by simp [devWrite8, hv, hh', hi]⟩⟩)
    | opcode =>
      by_cases hb : p.version = .b
      · exact .inr (.inr ⟨hh', hid, hv, .inr (.inl ⟨rfl, hb, by simp [devWrite8, hh', hi, hb]⟩)⟩)
      · exact .inr (.inl (by simp [devWrite8, hv, hh', hi, hb]))
    | txCount => exact .inr (.inr ⟨hh', hid, hv, .inr (.inr (.inl ⟨rfl, by simp [devWrite8, hv, hh', hi]⟩))⟩)
    | rxCount => exact .inr (.inr ⟨hh', hid, hv, .inr (.inr (.inr (.inl ⟨rfl, by simp [devWrite8, hv, hh', hi]⟩)))⟩)
    | fifo i =>
      exact .inr (.inr ⟨hh', hid, hv,
        .inr (.inr (.inr (.inr (.inl ⟨i, rfl, by simp [devWrite8, hv, hh', hi]⟩))))⟩)
    | trigger =>
      rcases hver : p.version with _ | _ | _
      · exact .inr (.inl (by simp [devWrite8, triggerWrite, hver, hh', hi]))
      · refine .inr (.inr ⟨hh', hid, by simp, .inr (.inr (.inr (.inr (.inr ?_))))⟩)
        by_cases h7 : v[7] = true
        · exact .inr ⟨rfl, rfl, h7, by simp [devWrite8, triggerWrite, hver, hh', hi, h7]⟩
        · have h7' : v[7] = false := by simpa using h7
          exact .inl ⟨rfl, rfl, h7', by simp [devWrite8, triggerWrite, hver, hh', hi, h7']⟩
      · exact absurd hver hv
  · exact .inr (.inl (by simp [devWrite8, hv, hh', hi]))

/-- What a CTRL0 write stores, before any trigger (R106). -/
def ctrl0Stored (d : Device) (v : Word) : Device :=
  { d with ctrl0 := v &&& ctrl0Storage, fifoPtrCleared := d.fifoPtrCleared || v[20] }

/-- What a word write can do (R106). -/
theorem devWrite32_cases (p : Params) (d : Device) (r : Reg32) (v : Word) :
    (d.havoc = true ∧ devWrite32 p d r v = d) ∨
    devWrite32 p d r v = d.setHavoc ∨
    (d.havoc = false ∧ d.phase = .idle ∧ p.version ≠ .other ∧ r = .ctrl0 ∧
      ((v[16] = false ∧ devWrite32 p d r v = ctrl0Stored d v) ∨
       (v[16] = true ∧ v[20] = false ∧ p.version = .a ∧
          devWrite32 p d r v = triggerDevice p (ctrl0Stored d v)) ∨
       (v[16] = true ∧ v[20] = false ∧ p.version = .b ∧
          devWrite32 p d r v = (ctrl0Stored d v).setHavoc))) := by
  by_cases hv : p.version = .other
  · exact .inr (.inl (by simp [devWrite32, hv]))
  by_cases hh : d.havoc = true
  · exact .inl ⟨hh, by simp [devWrite32, hv, hh]⟩
  have hh' : d.havoc = false := by simpa using hh
  by_cases hi : d.phase.isIdle = true
  · have hid := (Phase.isIdle_iff _).1 hi
    cases r with
    | status => exact .inr (.inl (by simp [devWrite32, hv, hh', hi]))
    | ctrl0 =>
      by_cases h16 : v[16] = true
      · by_cases h20 : v[20] = true
        · exact .inr (.inl (by simp [devWrite32, ctrl0Write, hv, hh', hi, h16, h20]))
        · have h20' : v[20] = false := by simpa using h20
          rcases hver : p.version with _ | _ | _
          · exact .inr (.inr ⟨hh', hid, by simp, rfl, .inr (.inl ⟨h16, h20', rfl, by
              simp [devWrite32, ctrl0Write, ctrl0Stored, hver, hh', hi, h16, h20']⟩)⟩)
          · exact .inr (.inr ⟨hh', hid, by simp, rfl, .inr (.inr ⟨h16, h20', rfl, by
              simp [devWrite32, ctrl0Write, ctrl0Stored, hver, hh', hi, h16, h20']⟩)⟩)
          · exact absurd hver hv
      · have h16' : v[16] = false := by simpa using h16
        exact .inr (.inr ⟨hh', hid, hv, rfl, .inl ⟨h16', by
          simp [devWrite32, ctrl0Write, ctrl0Stored, hv, hh', hi, h16']⟩⟩)
  · exact .inr (.inl (by simp [devWrite32, hv, hh', hi]))

/-! ### What the turn and the writes keep -/

theorem ctrl0_mask_idem (v : Word) : v &&& ctrl0Storage &&& ctrl0Storage = v &&& ctrl0Storage := by
  rw [BitVec.and_assoc, BitVec.and_self]

theorem ctrl0_opcode_mask (x : Word) (b : Byte) (h : x &&& ctrl0Storage = x) :
    ((x &&& ~~~opcodeMask) ||| b.setWidth 32) &&& ctrl0Storage = (x &&& ~~~opcodeMask) ||| b.setWidth 32 := by
  have hx : ∀ i, (x.getLsbD i && ctrl0Storage.getLsbD i) = x.getLsbD i := fun i => by
    rw [← BitVec.getLsbD_and, h]
  apply BitVec.eq_of_getLsbD_eq
  intro i hi
  have := hx i
  simp only [BitVec.getLsbD_and, BitVec.getLsbD_or, BitVec.getLsbD_setWidth, Bool.and_or_distrib_right]
  by_cases h8 : i < 8
  · have : ctrl0Storage.getLsbD i = true := by interval_cases i <;> rfl
    simp [this]
  · rw [BitVec.getLsbD_of_ge b i (by omega)]
    simp only [Bool.and_false, Bool.false_and, Bool.or_false]
    rw [Bool.and_right_comm, this]

theorem completeTxn_ok {p : Params} {t : Txn} {d : Device} (h : d.Ok p) (o : Oracle) :
    (completeTxn p t d o).1.Ok p := by
  refine ⟨Memory.ofBytes_wf _ (by simp), ?_, ?_⟩
  · simp only [completeTxn]
    split
    · exact ctrl0_opcode_mask _ _ h.ctrl0_storage
    · exact h.ctrl0_storage
  · intro _ t' ht'
    simp [completeTxn_phase, Phase.txn] at ht'

theorem deviceMove_ok {p : Params} {d : Device} (n : Nat) (o : Oracle) (hh : d.havoc = false) (h : d.Ok p) :
    (deviceMove p n d o).1.Ok p := by
  rcases deviceMove_cases p n d o with ⟨_, e⟩ | ⟨t, _, e⟩ | ⟨t, ht, _, _, e⟩ | ⟨t, ht, e⟩
  · rw [e]; exact h
  · rw [e]; exact completeTxn_ok h o
  · rw [e]
    refine ⟨h.fifo_wf, h.ctrl0_storage, fun _ t' ht' => ?_⟩
    exact h.txn_fits hh t' (by simpa [ht, Phase.txn] using ht')
  · rw [e]
    refine ⟨h.fifo_wf, h.ctrl0_storage, fun _ t' ht' => ?_⟩
    refine h.txn_fits hh t' ?_
    rcases ht with ⟨ht, _⟩ | ht <;> simpa [ht, Phase.txn] using ht'

theorem havocDevice_ok (p : Params) (n : Nat) : (havocDevice n).Ok p :=
  ⟨Memory.canon_wf _, ctrl0_mask_idem _, fun h => by simp [havocDevice_havoc] at h⟩

theorem deviceTurn_ok {p : Params} {d : Device} (o : Oracle) (h : d.Ok p) : (deviceTurn p d o).1.Ok p :=
  deviceTurn_keeps (fun d => d.Ok p) p (fun n _ o hh h => deviceMove_ok n o hh h)
    (fun n _ _ _ => havocDevice_ok p n) d o h

theorem setHavoc_ok {p : Params} {d : Device} (h : d.Ok p) : d.setHavoc.Ok p :=
  ⟨h.fifo_wf, h.ctrl0_storage, fun hh => by simp [Device.setHavoc] at hh⟩

theorem triggerDevice_ok {p : Params} {d : Device} (h : d.Ok p) (hv : p.version ≠ .other) :
    (triggerDevice p d).Ok p := by
  rcases triggerDevice_cases p d with ⟨_, e⟩ | ⟨hp, hc, e⟩
  · rw [e]; exact setHavoc_ok h
  · rw [e]
    refine ⟨h.fifo_wf, h.ctrl0_storage, fun _ t ht => ?_⟩
    simp only [Phase.txn, Option.some.injEq] at ht
    subst ht
    exact ⟨captureTxn_fits hc, hp, hv⟩

theorem devWrite8_ok {p : Params} {d : Device} (r : Reg8) (v : Byte) (h : d.Ok p) : (devWrite8 p d r v).Ok p := by
  rcases devWrite8_cases p d r v with ⟨_, e⟩ | e | ⟨hh, hi, hv, hc⟩
  · rw [e]; exact h
  · rw [e]; exact setHavoc_ok h
  · have idle : ∀ {d' : Device}, d'.fifo.wf → d'.ctrl0 = d.ctrl0 → d'.phase = d.phase → d'.Ok p := by
      intro d' h1 h2 h3
      exact ⟨h1, by rw [h2]; exact h.ctrl0_storage, fun _ t ht => by simp [h3, hi, Phase.txn] at ht⟩
    rcases hc with ⟨_, e⟩ | ⟨_, _, e⟩ | ⟨_, e⟩ | ⟨_, e⟩ | ⟨i, _, e⟩ | ⟨_, _, _, e⟩ | ⟨_, _, _, e⟩
    · rw [e]; exact idle h.fifo_wf rfl rfl
    · rw [e]; exact idle h.fifo_wf rfl rfl
    · rw [e]; exact idle h.fifo_wf rfl rfl
    · rw [e]; exact idle h.fifo_wf rfl rfl
    · rw [e]
      exact idle (Memory.write_wf h.fifo_wf ⟨by omega, by have := i.isLt; omega⟩) rfl rfl
    · rw [e]; exact idle h.fifo_wf rfl rfl
    · rw [e]; exact triggerDevice_ok (idle h.fifo_wf rfl rfl) hv

theorem ctrl0Stored_ok {p : Params} {d : Device} (v : Word) (h : d.Ok p) (hi : d.phase = .idle) :
    (ctrl0Stored d v).Ok p :=
  ⟨h.fifo_wf, ctrl0_mask_idem v, fun _ t ht => by simp [ctrl0Stored, hi, Phase.txn] at ht⟩

theorem devWrite32_ok {p : Params} {d : Device} (r : Reg32) (v : Word) (h : d.Ok p) : (devWrite32 p d r v).Ok p := by
  rcases devWrite32_cases p d r v with ⟨_, e⟩ | e | ⟨hh, hi, hv, _, hc⟩
  · rw [e]; exact h
  · rw [e]; exact setHavoc_ok h
  · rcases hc with ⟨_, e⟩ | ⟨_, _, _, e⟩ | ⟨_, _, _, e⟩
    · rw [e]; exact ctrl0Stored_ok v h hi
    · rw [e]; exact triggerDevice_ok (ctrl0Stored_ok v h hi) hv
    · rw [e]; exact setHavoc_ok (ctrl0Stored_ok v h hi)

/-- What never goes back in the device (R37, R38, R40, R301): havoc stays set; without havoc the cleared cursor stays cleared
and the event log only grows. -/
abbrev Device.Later (d d' : Device) : Prop :=
  (d.havoc = true → d'.havoc = true) ∧
  (d'.havoc = false → (d.fifoPtrCleared = true → d'.fifoPtrCleared = true) ∧ d.events <+: d'.events)

theorem Device.later_refl (d : Device) : d.Later d := ⟨id, fun _ => ⟨id, List.prefix_refl _⟩⟩

theorem Device.later_trans {a b c : Device} (h1 : a.Later b) (h2 : b.Later c) : a.Later c := by
  refine ⟨fun h => h2.1 (h1.1 h), fun h => ?_⟩
  have hb : b.havoc = false := by
    rcases hb : b.havoc with _ | _
    · rfl
    · rw [h2.1 hb] at h; exact absurd h (by simp)
  exact ⟨fun hp => (h2.2 h).1 ((h1.2 hb).1 hp), (h1.2 hb).2.trans (h2.2 h).2⟩

theorem deviceMove_later (p : Params) (n : Nat) (d : Device) (o : Oracle) : d.Later (deviceMove p n d o).1 := by
  rcases deviceMove_cases p n d o with ⟨_, e⟩ | ⟨t, _, e⟩ | ⟨t, _, _, _, e⟩ | ⟨t, _, e⟩ <;> rw [e]
  · exact d.later_refl
  · exact ⟨id, fun _ => ⟨id, List.prefix_append _ _⟩⟩
  · exact ⟨id, fun _ => ⟨id, List.prefix_refl _⟩⟩
  · exact ⟨id, fun _ => ⟨id, List.prefix_refl _⟩⟩

theorem deviceTurn_later (p : Params) (d : Device) (o : Oracle) : d.Later (deviceTurn p d o).1 :=
  deviceTurn_keeps (fun d' => d.Later d') p (fun n d' o _ h => d.later_trans h (deviceMove_later p n d' o))
    (fun n _ _ _ => ⟨fun _ => rfl, fun h => by simp [havocDevice_havoc] at h⟩) d o d.later_refl

theorem setHavoc_later (d : Device) : d.Later d.setHavoc :=
  ⟨fun _ => rfl, fun h => by simp [Device.setHavoc] at h⟩

theorem triggerDevice_later (p : Params) (d : Device) : d.Later (triggerDevice p d) := by
  rcases triggerDevice_cases p d with ⟨_, e⟩ | ⟨_, _, e⟩ <;> rw [e]
  · exact setHavoc_later d
  · exact ⟨id, fun _ => ⟨id, List.prefix_append _ _⟩⟩

theorem devWrite8_later (p : Params) (d : Device) (r : Reg8) (v : Byte) : d.Later (devWrite8 p d r v) := by
  rcases devWrite8_cases p d r v with ⟨_, e⟩ | e | ⟨_, _, _, hc⟩
  · rw [e]; exact d.later_refl
  · rw [e]; exact setHavoc_later d
  · have same : ∀ {d' : Device}, d'.havoc = d.havoc → d'.fifoPtrCleared = d.fifoPtrCleared → d'.events = d.events →
        d.Later d' := by
      intro d' h1 h2 h3
      exact ⟨fun h => by rw [h1]; exact h, fun _ => ⟨fun h => by rw [h2]; exact h, by rw [h3]⟩⟩
    rcases hc with ⟨_, e⟩ | ⟨_, _, e⟩ | ⟨_, e⟩ | ⟨_, e⟩ | ⟨i, _, e⟩ | ⟨_, _, _, e⟩ | ⟨_, _, _, e⟩ <;> rw [e]
    all_goals first
      | exact same rfl rfl rfl
      | exact Device.later_trans (b := { d with trigger := v.setWidth 7 }) (same rfl rfl rfl) (triggerDevice_later p _)

theorem ctrl0Stored_later (d : Device) (v : Word) : d.Later (ctrl0Stored d v) :=
  ⟨id, fun _ => ⟨fun h => by simp [ctrl0Stored, h], List.prefix_refl _⟩⟩

theorem devWrite32_later (p : Params) (d : Device) (r : Reg32) (v : Word) : d.Later (devWrite32 p d r v) := by
  rcases devWrite32_cases p d r v with ⟨_, e⟩ | e | ⟨_, _, _, _, hc⟩
  · rw [e]; exact d.later_refl
  · rw [e]; exact setHavoc_later d
  · rcases hc with ⟨_, e⟩ | ⟨_, _, _, e⟩ | ⟨_, _, _, e⟩ <;> rw [e]
    · exact ctrl0Stored_later d v
    · exact d.later_trans (ctrl0Stored_later d v) (triggerDevice_later p _)
    · exact d.later_trans (ctrl0Stored_later d v) (setHavoc_later _)

/-- A transition sets no havoc and clears none. -/
theorem deviceMove_havoc (p : Params) (n : Nat) (d : Device) (o : Oracle) : (deviceMove p n d o).1.havoc = d.havoc := by
  rcases deviceMove_cases p n d o with ⟨_, e⟩ | ⟨t, _, e⟩ | ⟨t, _, _, _, e⟩ | ⟨t, _, e⟩ <;> simp [e, completeTxn_havoc]

/-- The device's turn sets no havoc and clears none. -/
theorem deviceTurn_havoc (p : Params) (d : Device) (o : Oracle) : (deviceTurn p d o).1.havoc = d.havoc := by
  rcases hh : d.havoc with _ | _
  · refine deviceTurn_keeps (fun d => d.havoc = false) p (fun n d o h _ => (deviceMove_havoc p n d o).trans h)
      (fun n d h h' => ?_) d o hh
    simp [h] at h'
  · simp [deviceTurn, hh, havocDevice_havoc]

theorem portRead32_havoc (r : Reg32) (s : State) : (portRead32 r s).2.dev.havoc = s.dev.havoc :=
  deviceTurn_havoc _ _ _

theorem portRead8_havoc (r : Reg8) (s : State) : (portRead8 r s).2.dev.havoc = s.dev.havoc :=
  deviceTurn_havoc _ _ _

/-! ### Accesses to a device at rest: its turn is empty -/

theorem portRead8_rest {s : State} (hh : s.dev.havoc = false) (hi : s.dev.phase = .idle) (r : Reg8) :
    portRead8 r s =
      ((devRead8 s.params s.dev r s.oracle).1,
        { s with
            oracle := (devRead8 s.params s.dev r s.oracle).2
            trace := s.trace ++ [.rd8 r.offset (devRead8 s.params s.dev r s.oracle).1] }) := by
  simp only [portRead8, State.turn_idle hh hi]

theorem portRead32_rest {s : State} (hh : s.dev.havoc = false) (hi : s.dev.phase = .idle) (r : Reg32) :
    portRead32 r s =
      ((devRead32 s.params s.dev r s.oracle).1,
        { s with
            oracle := (devRead32 s.params s.dev r s.oracle).2
            trace := s.trace ++ [.rd32 r.offset (devRead32 s.params s.dev r s.oracle).1] }) := by
  simp only [portRead32, State.turn_idle hh hi]

/-- Without a self-clearing bit there is no choice. -/
theorem writtenBack_eq {w : Nat} {c m : BitVec w} (h : c &&& ~~~m = c) (o : Oracle) : writtenBack c m o = (c, o) := by
  simp [writtenBack, h]

/-- The device takes the value read for itself, or for it without its self-clearing bits. -/
theorem writtenBack_cases {w : Nat} (c m : BitVec w) (o : Oracle) :
    (writtenBack c m o).1 = c ∨ (writtenBack c m o).1 = c &&& ~~~m := by
  unfold writtenBack
  split
  · exact .inl rfl
  · cases o.flag.1
    · exact .inr rfl
    · exact .inl rfl

/-- Where the value read holds no self-clearing bit, the write of a read-modify-write is a plain write (R107). -/
theorem portWriteBack8_eq {r : Reg8} {c : Byte} (h : c &&& ~~~r.selfClearing = c) (a k : Byte) (s : State) :
    portWriteBack8 r c a k s = portWrite8 r (setClear c a k) s := by
  simp only [portWriteBack8, writtenBack_eq h]; rfl

/-- Where the value read holds no self-clearing bit, the write of a read-modify-write is a plain write (R108). -/
theorem portWriteBack32_eq {r : Reg32} {c : Word} (h : c &&& ~~~r.selfClearing = c) (a k : Word) (s : State) :
    portWriteBack32 r c a k s = portWrite32 r (setClear c a k) s := by
  simp only [portWriteBack32, writtenBack_eq h]; rfl

/-- A register but TRIGGER has no self-clearing bit (R28 to R34). -/
theorem Reg8.selfClearing_of_ne {r : Reg8} (h : r ≠ .trigger) (c : Byte) : c &&& ~~~r.selfClearing = c := by
  cases r with
  | trigger => exact absurd rfl h
  | _ =>
    simp only [Reg8.selfClearing, BitVec.not_zero]
    exact BitVec.and_allOnes

theorem portWrite8_rest {s : State} (hh : s.dev.havoc = false) (hi : s.dev.phase = .idle) (r : Reg8) (v : Byte) :
    portWrite8 r v s =
      { s with dev := devWrite8 s.params s.dev r v, trace := s.trace ++ [.wr8 r.offset v] } := by
  simp only [portWrite8, State.turn_idle hh hi]

theorem portWrite32_rest {s : State} (hh : s.dev.havoc = false) (hi : s.dev.phase = .idle) (r : Reg32) (v : Word) :
    portWrite32 r v s =
      { s with dev := devWrite32 s.params s.dev r v, trace := s.trace ++ [.wr32 r.offset v] } := by
  simp only [portWrite32, State.turn_idle hh hi]

end Sys2Proof.Machine
end

