-- ==== Sys2Proof/Laws/Encoding.lean ====
section
/-! SUPPORT. The fields of an operation word, as numbers (R81). -/

namespace Sys2Proof

theorem opWord_toNat (op : BitVec 4) (imm : BitVec 8) : (opWord op imm).toNat = op.toNat * 4096 + imm.toNat := by
  have := op.isLt
  have := imm.isLt
  simp only [opWord, BitVec.toNat_append]
  rw [← Nat.shiftLeft_add_eq_or_of_lt (by omega)]
  simp [Nat.shiftLeft_eq]
  omega

theorem opField_toNat (w : OpWord) : (opField w).toNat = w.toNat / 4096 := by
  have := w.isLt
  simp [opField, BitVec.extractLsb'_toNat, Nat.shiftRight_eq_div_pow]
  omega

theorem zField_toNat (w : OpWord) : (zField w).toNat = w.toNat / 256 % 16 := by
  simp [zField, BitVec.extractLsb'_toNat, Nat.shiftRight_eq_div_pow]

theorem immField_toNat (w : OpWord) : (immField w).toNat = w.toNat % 256 := by
  simp [immField, BitVec.extractLsb'_toNat]

theorem opField_opWord (op : BitVec 4) (imm : BitVec 8) : opField (opWord op imm) = op := by
  apply BitVec.eq_of_toNat_eq
  have := op.isLt
  have := imm.isLt
  rw [opField_toNat, opWord_toNat]
  omega

theorem zField_opWord (op : BitVec 4) (imm : BitVec 8) : zField (opWord op imm) = 0#4 := by
  apply BitVec.eq_of_toNat_eq
  have := op.isLt
  have := imm.isLt
  rw [zField_toNat, opWord_toNat]
  simp
  omega

theorem immField_opWord (op : BitVec 4) (imm : BitVec 8) : immField (opWord op imm) = imm := by
  apply BitVec.eq_of_toNat_eq
  have := op.isLt
  have := imm.isLt
  rw [immField_toNat, opWord_toNat]
  omega

/-- A word whose reserved field is 0 is made of its two other fields. -/
theorem opWord_fields {w : OpWord} (h : zField w = 0#4) : opWord (opField w) (immField w) = w := by
  have hz := congrArg BitVec.toNat h
  have := w.isLt
  rw [zField_toNat] at hz
  simp at hz
  apply BitVec.eq_of_toNat_eq
  rw [opWord_toNat, opField_toNat, immField_toNat]
  omega

end Sys2Proof
end

