-- ==== Sys2Proof/Laws/Micro.lean ====
section
/-! SUPPORT. What a step is made of: every operation is a sequence of micro-steps (port accesses, the engine's own bookkeeping,
refusals, deliveries), so a property kept by each micro-step is kept by every step. -/

namespace Sys2Proof.Machine

/-- One micro-step. `engine` stands for any change of the working registers and any draw. -/
inductive Micro : State → State → Prop where
  | turn (s : State) : Micro s s.turn
  | read8 (r : Reg8) (s : State) : Micro s (portRead8 r s).2
  | read32 (r : Reg32) (s : State) : Micro s (portRead32 r s).2
  | write8 (r : Reg8) (v : Byte) (s : State) : Micro s (portWrite8 r v s)
  | write32 (r : Reg32) (v : Word) (s : State) : Micro s (portWrite32 r v s)
  | writeBack8 (r : Reg8) (c a k : Byte) (s : State) : Micro s (portWriteBack8 r c a k s)
  | writeBack32 (r : Reg32) (c a k : Word) (s : State) : Micro s (portWriteBack32 r c a k s)
  | engine (e : Engine) (o : Oracle) (s : State) : Micro s { s with eng := e, oracle := o }
  | refuse (s : State) : Micro s s.refuse
  | deliver (c : Completion) (s : State) : Micro s { s with completions := s.completions ++ [c] }
  | take (l : List Request) (s : State) : Micro s { s with requests := l }

/-- Any number of micro-steps. -/
abbrev Trail : State → State → Prop := Relation.ReflTransGen Micro

theorem Trail.engine (s : State) (e : Engine) (o : Oracle) : Trail s { s with eng := e, oracle := o } :=
  .single (.engine e o s)

/-- A property kept by each micro-step is kept by a trail. -/
theorem Trail.keeps {P : State → Prop} (hP : ∀ s t, Micro s t → P s → P t) {s t : State} (h : Trail s t) (hs : P s) :
    P t := by
  induction h with
  | refl => exact hs
  | tail _ h ih => exact hP _ _ h ih

/-! ### The monad of the engine's steps -/

theorem bind_ok {α β : Type} {x : Run α} {f : α → Run β} {b : β} :
    (x >>= f) = .ok b ↔ ∃ a, x = .ok a ∧ f a = .ok b := by
  cases x <;> simp [bind, Except.bind]

theorem pure_ok {α : Type} {a b : α} : (pure a : Run α) = .ok b ↔ a = b := by
  simp [pure, Except.pure]

theorem readReg_ok {α : Type} {r : WorkReg} {v : Option α} {a : α} : readReg r v = .ok a ↔ v = some a := by
  cases v <;> simp [readReg]

theorem readMsg_ok {s : State} {m : Message} : readMsg s = .ok m ↔ s.eng.msg = some m := by
  cases h : s.eng.msg <;> simp [readMsg, h]

/-! ### Port operations -/

theorem Trail.setRes {s t : State} (h : Trail s t) (v : Word) : Trail s (t.setRes v) :=
  h.tail (.engine { t.eng with res := some v } t.oracle t)

theorem Trail.goto {s t : State} (h : Trail s t) (l : Label) : Trail s (t.goto l) :=
  h.tail (.engine { t.eng with pc := l } t.oracle t)

theorem rd8_trail (off : Nat) (s : State) : Trail s (rd8 off s) := by
  unfold rd8
  split
  · exact .single (.refuse s)
  · exact Trail.setRes (.single (.read8 _ s)) _

theorem wr8_trail (off : Nat) (v : Byte) (s : State) : Trail s (wr8 off v s) := by
  unfold wr8
  split
  · exact .single (.refuse s)
  · exact .single (.write8 _ v s)

theorem rd32_trail (off : Nat) (s : State) : Trail s (rd32 off s) := by
  unfold rd32
  split
  · exact .single (.refuse s)
  · exact Trail.setRes (.single (.read32 _ s)) _

theorem wr32_trail (off : Nat) (v : Word) (s : State) : Trail s (wr32 off v s) := by
  unfold wr32
  split
  · exact .single (.refuse s)
  · exact .single (.write32 _ v s)

theorem sc8_trail (off : Nat) (a c : Byte) (s : State) : Trail s (sc8 off a c s) := by
  unfold sc8
  split
  · exact .single (.refuse s)
  · exact (Trail.setRes (.single (.read8 _ s)) _).tail (.writeBack8 _ _ _ _ _)

theorem sc32_trail (off : Nat) (a c : Word) (s : State) : Trail s (sc32 off a c s) := by
  unfold sc32
  split
  · exact .single (.refuse s)
  · exact (Trail.setRes (.single (.read32 _ s)) _).tail (.writeBack32 _ _ _ _ _)

theorem endOp_trail {s t : State} (st : Status) (h : Trail s t) : Trail s (endOp st t).2 := h.setRes _

/-! ### Pseudo-operations -/

theorem setup_trail (s : State) : Trail s (setup s) := endOp_trail _ (sc32_trail _ _ _ s)

theorem setop_trail (b : Byte) (s : State) : Trail s (setop b s).2 := by
  unfold setop
  split
  · exact endOp_trail _ (sc32_trail _ _ _ s)
  · exact endOp_trail _ (wr8_trail _ _ s)
  · exact endOp_trail _ .refl

theorem trig_trail (s : State) : Trail s (trig s).2 := by
  unfold trig
  split
  · exact endOp_trail _ (sc32_trail _ _ _ s)
  · exact endOp_trail _ (sc8_trail _ _ _ s)
  · exact endOp_trail _ .refl

theorem cssel_trail (i : BitVec 8) (s : State) : Trail s (cssel i s) := endOp_trail _ (sc8_trail _ _ _ s)

theorem csdesel_trail (s : State) : Trail s (csdesel s) :=
  endOp_trail _ ((Trail.setRes (.single (.read8 _ s)) _).tail (.write8 _ _ _))

/-- What FINAL does, by version (R128, R191). -/
theorem finalized_eq (s : State) : finalized s = if s.params.version = .b then csdesel s else s := by
  cases h : s.params.version <;> simp [finalized, deassertRequired, h]

theorem finalized_trail (s : State) : Trail s (finalized s) := by
  rw [finalized_eq]
  split
  · exact csdesel_trail s
  · exact .refl

theorem pass_trail (n : Nat) (s : State) : Trail s (pass n s) := by
  unfold pass
  split
  · exact Trail.engine s { s.eng with elapsed := _ } s.oracle
  · exact Trail.engine s { s.eng with elapsed := _ } _

theorem boundReached_trail (r : Reg32) (s : State) : Trail s (boundReached r s).2 := by
  have h1 : Trail s (s.setOracle (finalRead s.params s.oracle).2) := Trail.engine s s.eng _
  simp only [boundReached]
  split
  · have h2 := (h1.trans (pass_trail Config.pollInterval _)).tail (.read32 r _)
    split <;> exact h2
  · exact h1

theorem pollLoop_trail (r : Reg32) (k n : Nat) (s : State) : Trail s (pollLoop r k n s).2 := by
  induction k generalizing n s with
  | zero => exact .refl
  | succ k ih =>
    have h1 : Trail s (portRead32 r s).2 := .single (.read32 r s)
    simp only [pollLoop]
    split
    · have h2 := h1.trans (Trail.engine (portRead32 r s).2 { (portRead32 r s).2.eng with npoll := some (n + 1) }
        (timeoutNow (portRead32 r s).2.params (n + 1) (portRead32 r s).2.oracle).2)
      split
      · exact h2.trans (boundReached_trail r _)
      · exact h2.trans ((pass_trail _ _).trans (ih _ _))
    · exact h1

theorem bwait_trail (s : State) : Trail s (bwait s).2 := by
  unfold bwait
  split
  · exact endOp_trail _ .refl
  · exact endOp_trail _ ((Trail.engine s { s.eng with npoll := some 0, elapsed := 0 } s.oracle).trans
      (pollLoop_trail _ _ _ _))

/-! ### The engine's labels -/

theorem loadByte_trail {b : Byte} {s t : State} (h : loadByte b s = .ok t) : Trail s t := by
  simp only [loadByte, bind_ok, pure_ok, readReg_ok] at h
  obtain ⟨cur, _, txc, _, rfl⟩ := h
  exact (wr8_trail _ b s).trans (Trail.engine (wr8 (Config.fifoBase + cur) b s)
    { (wr8 (Config.fifoBase + cur) b s).eng with cur := some (cur + 1), txc := some (txc + 1) } _)

theorem loadBytes_trail {bs : List Byte} {s t : State} (h : loadBytes bs s = .ok t) : Trail s t := by
  induction bs generalizing s with
  | nil =>
    simp only [loadBytes, Except.ok.injEq] at h
    exact h ▸ .refl
  | cons b rest ih =>
    simp only [loadBytes, bind_ok] at h
    obtain ⟨s1, h1, h2⟩ := h
    exact (loadByte_trail h1).trans (ih h2)

theorem loadSegment_trail {seg : Segment} {s t : State} (h : loadSegment seg s = .ok t) : Trail s t := by
  unfold loadSegment at h
  split at h
  · simp only [bind_ok, pure_ok, readReg_ok] at h
    obtain ⟨rxc, _, rfl⟩ := h
    exact Trail.engine s { s.eng with rxc := some (rxc + seg.len) } s.oracle
  · split at h
    · simp at h
    simp only [bind_ok, readReg_ok] at h
    obtain ⟨opc, _, h⟩ := h
    split at h
    · simp at h
    · exact (Trail.engine s { s.eng with opc := some (some _) } s.oracle).trans (loadBytes_trail h)
    · exact loadBytes_trail h

theorem loadSegments_trail {segs : List Segment} {s t : State} (h : loadSegments segs s = .ok t) : Trail s t := by
  induction segs generalizing s with
  | nil =>
    simp only [loadSegments, Except.ok.injEq] at h
    exact h ▸ .refl
  | cons seg rest ih =>
    simp only [loadSegments, bind_ok] at h
    obtain ⟨s1, h1, h2⟩ := h
    exact (loadSegment_trail h1).trans (ih h2)

/-- Storing a received byte changes the message's buffers alone. -/
theorem storeReceived_ok {k : Nat} {b : Byte} {s t : State} (h : storeReceived k b s = .ok t) : ∃ m, t = s.setMsg m := by
  simp only [storeReceived, bind_ok] at h
  obtain ⟨m, _, h⟩ := h
  split at h
  · simp at h
  · split at h
    · simp only [Except.ok.injEq] at h
      exact ⟨_, h.symm⟩
    · simp at h

theorem storeReceived_trail {k : Nat} {b : Byte} {s t : State} (h : storeReceived k b s = .ok t) : Trail s t := by
  obtain ⟨m, rfl⟩ := storeReceived_ok h
  exact Trail.engine s { s.eng with msg := some m } s.oracle

theorem drainBytes_trail {txc count k : Nat} {s t : State} (h : drainBytes txc count k s = .ok t) : Trail s t := by
  induction count generalizing k s with
  | zero =>
    simp only [drainBytes, Except.ok.injEq] at h
    exact h ▸ .refl
  | succ count ih =>
    simp only [drainBytes, bind_ok] at h
    obtain ⟨res, _, s2, h2, h3⟩ := h
    exact ((rd8_trail _ s).trans (storeReceived_trail h2)).trans (ih h3)

theorem succeed_trail {s t : State} (h : succeed s = .ok t) : Trail s t := by
  simp only [succeed, bind_ok, pure_ok] at h
  obtain ⟨txc, _, rxc, _, rfl⟩ := h
  exact Trail.engine s { s.eng with status := some .success, actual := some (some _), pc := .final } s.oracle

theorem raiseStatus_trail (st : Status) (s : State) : Trail s (raiseStatus st s) :=
  Trail.engine s { s.eng with status := some st, pc := .final } s.oracle

theorem continueWith_trail {r : Status × State} {l : Label} {s t : State} (h : Trail s r.2)
    (hc : continueWith r l = .ok t) : Trail s t := by
  unfold continueWith at hc
  split at hc <;> simp only [Except.ok.injEq] at hc <;> subst hc
  · exact h.goto l
  all_goals exact h.trans (raiseStatus_trail _ _)

theorem deliver_trail {s t : State} (h : deliver s = .ok t) : Trail s t := by
  simp only [deliver, bind_ok, pure_ok] at h
  obtain ⟨st, _, m, _, len, _, rfl⟩ := h
  exact (Trail.engine s _ len.2).tail (.deliver _ _)

theorem labelStep_trail {s t : State} (h : labelStep s = .ok t) : Trail s t := by
  unfold labelStep at h
  split at h
  · simp only [Except.ok.injEq] at h
    exact h ▸ .refl
  · simp only [stepSelect, bind_ok, pure_ok] at h
    obtain ⟨m, _, rfl⟩ := h
    exact (cssel_trail m.cs s).goto _
  · simp only [stepLoad, bind_ok] at h
    obtain ⟨m, _, s1, h1, opc, _, h⟩ := h
    have := loadSegments_trail h1
    split at h <;> simp only [pure_ok] at h <;> subst h
    · exact this.trans (raiseStatus_trail _ _)
    · exact this.goto _
  · simp only [stepProg, bind_ok, pure_ok] at h
    obtain ⟨txc, _, rxc, _, rfl⟩ := h
    exact Trail.goto ((wr8_trail _ _ s).trans (wr8_trail _ _ _)) _
  · simp only [stepSetop, bind_ok] at h
    obtain ⟨opc, _, h⟩ := h
    split at h
    · simp at h
    · exact continueWith_trail (setop_trail _ s) h
  · exact continueWith_trail (trig_trail s) h
  · simp only [stepWait1, bind_ok] at h
    obtain ⟨rxc, _, s1, h1, h⟩ := h
    have := continueWith_trail (bwait_trail s) h1
    split at h
    · exact this.trans (succeed_trail h)
    · simp only [pure_ok] at h
      exact h ▸ this
  · exact continueWith_trail (bwait_trail s) h
  · simp only [stepDrain, bind_ok] at h
    obtain ⟨txc, _, rxc, _, s1, h1, h⟩ := h
    exact (drainBytes_trail h1).trans (succeed_trail h)
  · simp only [stepFinal, Except.ok.injEq] at h
    exact h ▸ (finalized_trail s).goto _
  · exact deliver_trail h

theorem runLabels_trail {n : Nat} {s t : State} (h : runLabels n s = .ok t) : Trail s t := by
  induction n generalizing s with
  | zero =>
    simp only [runLabels, Except.ok.injEq] at h
    exact h ▸ .refl
  | succ n ih =>
    simp only [runLabels, bind_ok] at h
    obtain ⟨s1, h1, h2⟩ := h
    exact (labelStep_trail h1).trans (ih h2)

theorem ofRun_next {r : Run State} {t : State} : ofRun r = .next t ↔ r = .ok t := by
  cases r <;> simp [ofRun]

theorem startOp_next {s t : State} {k : State → Host.Outcome State Fault Refusal} :
    startOp s k = .next t ↔ s.eng.pc = .idle ∧ k s = .next t := by
  by_cases h : s.eng.pc = .idle <;> simp [startOp, h]

theorem execXfer_trail {i : BitVec 8} {segs : List Segment} {s t : State} (h : execXfer i segs s = .next t) :
    Trail s t := by
  simp only [execXfer, startOp_next] at h
  obtain ⟨_, h⟩ := h
  split at h
  · exact (Trail.engine s _ s.oracle).trans (runLabels_trail (ofRun_next.1 h))
  · simp only [Host.Outcome.next.injEq] at h
    exact h ▸ .single (.refuse s)

/-- Whatever an operation does, when it answers a next state it is a sequence of micro-steps. -/
theorem exec_trail {i : Instr} {s t : State} (h : exec i s = .next t) : Trail s t := by
  cases i with
  | xfer i segs => exact execXfer_trail h
  | rd8 off =>
    simp only [exec, execRd8, startOp_next, Host.Outcome.next.injEq] at h
    exact h.2 ▸ rd8_trail _ s
  | wr8 off v =>
    simp only [exec, execWr8, startOp_next, Host.Outcome.next.injEq] at h
    exact h.2 ▸ wr8_trail _ _ s
  | rd32 off =>
    simp only [exec, execRd32, startOp_next, Host.Outcome.next.injEq] at h
    exact h.2 ▸ rd32_trail _ s
  | wr32 off v =>
    simp only [exec, execWr32, startOp_next, Host.Outcome.next.injEq] at h
    exact h.2 ▸ wr32_trail _ _ s
  | sc8 off a c =>
    simp only [exec, execSc8, startOp_next, Host.Outcome.next.injEq] at h
    exact h.2 ▸ sc8_trail _ _ _ s
  | sc32 off a c =>
    simp only [exec, execSc32, startOp_next, Host.Outcome.next.injEq] at h
    exact h.2 ▸ sc32_trail _ _ _ s
  | setup =>
    simp only [exec, execSetup, startOp_next, Host.Outcome.next.injEq] at h
    exact h.2 ▸ setup_trail s
  | setop b =>
    simp only [exec, execSetop, startOp_next, Host.Outcome.next.injEq] at h
    exact h.2 ▸ setop_trail b s
  | trig =>
    simp only [exec, execTrig, startOp_next, Host.Outcome.next.injEq] at h
    exact h.2 ▸ trig_trail s
  | bwait =>
    simp only [exec, execBwait, startOp_next, Host.Outcome.next.injEq] at h
    exact h.2 ▸ bwait_trail s
  | cssel i =>
    simp only [exec, execCssel, startOp_next, Host.Outcome.next.injEq] at h
    exact h.2 ▸ cssel_trail i s
  | csdesel i =>
    simp only [exec, execCsdesel, startOp_next, Host.Outcome.next.injEq] at h
    exact h.2 ▸ csdesel_trail s

/-- What an idle engine finds (R80, R84). -/
theorem fetch_cases (s : State) :
    (s.requests = [] ∧ fetch s = .nothing) ∨
    (∃ q rest e, s.requests = q :: rest ∧ decode q = .error e ∧ fetch s = .illegal { s with requests := rest }) ∨
    (∃ q rest i, s.requests = q :: rest ∧ decode q = .ok i ∧ fetch s = .operation i { s with requests := rest }) := by
  rcases hr : s.requests with _ | ⟨q, rest⟩
  · exact .inl ⟨rfl, by simp [fetch, hr]⟩
  · rcases hd : decode q with e | i
    · exact .inr (.inl ⟨q, rest, e, rfl, hd, by simp [fetch, hr, hd]⟩)
    · exact .inr (.inr ⟨q, rest, i, rfl, hd, by simp [fetch, hr, hd]⟩)

/-- Whatever a step does, when it answers a next state it is a sequence of micro-steps. -/
theorem step_trail {s t : State} (h : step s = .next t) : Trail s t := by
  unfold step at h
  split at h
  · rcases fetch_cases s with ⟨_, e⟩ | ⟨q, rest, _, _, _, e⟩ | ⟨q, rest, i, _, _, e⟩ <;> rw [e] at h
    · simp only [Host.Outcome.next.injEq] at h
      exact h ▸ .single (.turn s)
    · simp only [Host.Outcome.next.injEq] at h
      exact h ▸ .head (.take rest s) (.single (.refuse _))
    · exact .head (.take rest s) (exec_trail h)
  · exact runLabels_trail (ofRun_next.1 h)

end Sys2Proof.Machine
end

