-- ==== Sys2Proof/Laws/Engine.lean ====
section
/-! SUPPORT. The engine: what each operation and each label leaves of the message in progress, said once per operation. -/

namespace Sys2Proof.Machine

/-! ### The register map -/

theorem port8_offset (r : Reg8) : port8 r.offset = some r := by
  cases r with
  | fifo i =>
    have := i.isLt
    simp only [Config.fifoCapacity] at this
    have h : ∀ n, n < 0x80 → Config.fifoBase + i.val ≠ n := by intro n hn; simp only [Config.fifoBase]; omega
    change port8 (Config.fifoBase + i.val) = _
    unfold port8
    rw [if_neg (h _ (by decide)), if_neg (h _ (by decide)), if_neg (h _ (by decide)), if_neg (h _ (by decide)),
      if_neg (h _ (by decide)), dif_pos ⟨by omega, Nat.add_lt_add_left i.isLt _⟩]
    simp
  | _ => rfl

theorem port32_offset (r : Reg32) : port32 r.offset = some r := by cases r <;> rfl

theorem offset_of_port8 {off : Nat} {r : Reg8} (h : port8 off = some r) : r.offset = off := by
  unfold port8 at h
  split_ifs at h with h1 h2 h3 h4 h5 h6 <;> simp only [Option.some.injEq] at h <;> subst h <;>
    simp only [Reg8.offset]
  all_goals omega

theorem offset_of_port32 {off : Nat} {r : Reg32} (h : port32 off = some r) : r.offset = off := by
  unfold port32 at h
  split_ifs at h with h1 h2 <;> simp only [Option.some.injEq] at h <;> subst h <;> simp only [Reg32.offset]
  all_goals omega

theorem port8_fifo {n : Nat} (h : n < Config.fifoCapacity) : port8 (Config.fifoBase + n) = some (.fifo ⟨n, h⟩) :=
  port8_offset (.fifo ⟨n, h⟩)

/-- The legal pairs of width 8 (R86). -/
theorem port8_isSome (off : Nat) : (port8 off).isSome = true ↔
    off = 0x1D ∨ off = 0x45 ∨ off = 0x47 ∨ off = 0x48 ∨ off = 0x4B ∨ (0x80 ≤ off ∧ off ≤ 0xC5) := by
  simp only [port8, Config.csOffset, Config.opcodeOffset, Config.triggerOffset, Config.txCountOffset, Config.rxCountOffset,
    Config.fifoBase, Config.fifoCapacity]
  split_ifs <;> simp <;> omega

/-- The legal pairs of width 32 (R86). -/
theorem port32_isSome (off : Nat) : (port32 off).isSome = true ↔ off = 0x00 ∨ off = 0x4C := by
  simp only [port32, Config.ctrl0Offset, Config.statusOffset]
  split_ifs <;> simp <;> omega

/-! ### What an operation leaves of the message in progress -/

/-- All that a message in progress needs is as it was: every part of the state but the device, the draws, the trace, RES,
NPOLL and the elapsed time. -/
structure KeepsMessage (s t : State) : Prop where
  params : t.params = s.params
  requests : t.requests = s.requests
  completions : t.completions = s.completions
  refused : t.refused = s.refused
  pc : t.eng.pc = s.eng.pc
  opc : t.eng.opc = s.eng.opc
  txc : t.eng.txc = s.eng.txc
  rxc : t.eng.rxc = s.eng.rxc
  cur : t.eng.cur = s.eng.cur
  status : t.eng.status = s.eng.status
  actual : t.eng.actual = s.eng.actual
  msg : t.eng.msg = s.eng.msg

theorem KeepsMessage.refl (s : State) : KeepsMessage s s := ⟨rfl, rfl, rfl, rfl, rfl, rfl, rfl, rfl, rfl, rfl, rfl, rfl⟩

theorem KeepsMessage.trans {a b c : State} (h1 : KeepsMessage a b) (h2 : KeepsMessage b c) : KeepsMessage a c :=
  ⟨h2.params.trans h1.params, h2.requests.trans h1.requests, h2.completions.trans h1.completions,
    h2.refused.trans h1.refused, h2.pc.trans h1.pc, h2.opc.trans h1.opc, h2.txc.trans h1.txc, h2.rxc.trans h1.rxc,
    h2.cur.trans h1.cur, h2.status.trans h1.status, h2.actual.trans h1.actual, h2.msg.trans h1.msg⟩

theorem KeepsMessage.setRes {s t : State} (h : KeepsMessage s t) (v : Word) : KeepsMessage s (t.setRes v) :=
  h.trans ⟨rfl, rfl, rfl, rfl, rfl, rfl, rfl, rfl, rfl, rfl, rfl, rfl⟩

theorem portRead8_keeps (r : Reg8) (s : State) : KeepsMessage s (portRead8 r s).2 :=
  ⟨rfl, rfl, rfl, rfl, rfl, rfl, rfl, rfl, rfl, rfl, rfl, rfl⟩

theorem portRead32_keeps (r : Reg32) (s : State) : KeepsMessage s (portRead32 r s).2 :=
  ⟨rfl, rfl, rfl, rfl, rfl, rfl, rfl, rfl, rfl, rfl, rfl, rfl⟩

theorem portWrite8_keeps (r : Reg8) (v : Byte) (s : State) : KeepsMessage s (portWrite8 r v s) :=
  ⟨rfl, rfl, rfl, rfl, rfl, rfl, rfl, rfl, rfl, rfl, rfl, rfl⟩

theorem portWrite32_keeps (r : Reg32) (v : Word) (s : State) : KeepsMessage s (portWrite32 r v s) :=
  ⟨rfl, rfl, rfl, rfl, rfl, rfl, rfl, rfl, rfl, rfl, rfl, rfl⟩

theorem portWriteBack8_keeps (r : Reg8) (c a k : Byte) (s : State) : KeepsMessage s (portWriteBack8 r c a k s) :=
  ⟨rfl, rfl, rfl, rfl, rfl, rfl, rfl, rfl, rfl, rfl, rfl, rfl⟩

theorem portWriteBack32_keeps (r : Reg32) (c a k : Word) (s : State) : KeepsMessage s (portWriteBack32 r c a k s) :=
  ⟨rfl, rfl, rfl, rfl, rfl, rfl, rfl, rfl, rfl, rfl, rfl, rfl⟩

theorem rd8_legal {off : Nat} {r : Reg8} (h : port8 off = some r) (s : State) :
    rd8 off s = (portRead8 r s).2.setRes ((portRead8 r s).1.setWidth 32) := by simp [rd8, h]

theorem wr8_legal {off : Nat} {r : Reg8} (h : port8 off = some r) (v : Byte) (s : State) :
    wr8 off v s = portWrite8 r v s := by simp [wr8, h]

theorem rd32_legal {off : Nat} {r : Reg32} (h : port32 off = some r) (s : State) :
    rd32 off s = (portRead32 r s).2.setRes (portRead32 r s).1 := by simp [rd32, h]

theorem wr32_legal {off : Nat} {r : Reg32} (h : port32 off = some r) (v : Word) (s : State) :
    wr32 off v s = portWrite32 r v s := by simp [wr32, h]

theorem sc8_legal {off : Nat} {r : Reg8} (h : port8 off = some r) (a c : Byte) (s : State) :
    sc8 off a c s = portWriteBack8 r (portRead8 r s).1 a c
      ((portRead8 r s).2.setRes ((portRead8 r s).1.setWidth 32)) := by simp [sc8, h]

theorem sc32_legal {off : Nat} {r : Reg32} (h : port32 off = some r) (a c : Word) (s : State) :
    sc32 off a c s = portWriteBack32 r (portRead32 r s).1 a c
      ((portRead32 r s).2.setRes (portRead32 r s).1) := by simp [sc32, h]

/-- SC8 of a register without self-clearing bits is a read and a plain write (R107). -/
theorem sc8_plain {off : Nat} {r : Reg8} (h : port8 off = some r) (ht : r ≠ .trigger) (a c : Byte) (s : State) :
    sc8 off a c s = portWrite8 r (setClear (portRead8 r s).1 a c)
      ((portRead8 r s).2.setRes ((portRead8 r s).1.setWidth 32)) := by
  rw [sc8_legal h, portWriteBack8_eq (Reg8.selfClearing_of_ne ht _)]

theorem sc8_keeps {off : Nat} {r : Reg8} (h : port8 off = some r) (a c : Byte) (s : State) :
    KeepsMessage s (sc8 off a c s) := by
  rw [sc8_legal h]
  exact ((portRead8_keeps r s).setRes _).trans (portWriteBack8_keeps _ _ _ _ _)

theorem sc32_keeps {off : Nat} {r : Reg32} (h : port32 off = some r) (a c : Word) (s : State) :
    KeepsMessage s (sc32 off a c s) := by
  rw [sc32_legal h]
  exact ((portRead32_keeps r s).setRes _).trans (portWriteBack32_keeps _ _ _ _ _)

theorem endOp_keeps (st : Status) {s t : State} (h : KeepsMessage s t) : KeepsMessage s (endOp st t).2 := h.setRes _

theorem setup_keeps (s : State) : KeepsMessage s (setup s) := endOp_keeps _ (sc32_keeps (port32_offset .ctrl0) _ _ s)

theorem cssel_keeps (i : BitVec 8) (s : State) : KeepsMessage s (cssel i s) :=
  endOp_keeps _ (sc8_keeps (port8_offset .cs) _ _ s)

theorem csdesel_keeps (s : State) : KeepsMessage s (csdesel s) :=
  endOp_keeps _ (((portRead8_keeps .cs s).setRes _).trans (portWrite8_keeps _ _ _))

/-- SETOP's status is Success on a known variant and UnsupportedVersion otherwise; it leaves the message alone. -/
theorem setop_spec (b : Byte) (s : State) :
    (setop b s).1 = (if s.params.version = .other then .unsupportedVersion else .success) ∧
      KeepsMessage s (setop b s).2 := by
  rcases h : s.params.version with _ | _ | _
  · simp only [setop, h]
    exact ⟨rfl, endOp_keeps _ (sc32_keeps (port32_offset .ctrl0) _ _ s)⟩
  · simp only [setop, h, wr8_legal (port8_offset .opcode)]
    exact ⟨rfl, endOp_keeps _ (portWrite8_keeps _ _ s)⟩
  · simp only [setop, h]
    exact ⟨rfl, endOp_keeps _ (.refl s)⟩

/-- TRIG's status, and what it leaves. -/
theorem trig_spec (s : State) :
    (trig s).1 = (if s.params.version = .other then .unsupportedVersion else .success) ∧
      KeepsMessage s (trig s).2 := by
  rcases h : s.params.version with _ | _ | _
  · simp only [trig, h]
    exact ⟨rfl, endOp_keeps _ (sc32_keeps (port32_offset .ctrl0) _ _ s)⟩
  · simp only [trig, h]
    exact ⟨rfl, endOp_keeps _ (sc8_keeps (port8_offset .trigger) _ _ s)⟩
  · simp only [trig, h]
    exact ⟨rfl, endOp_keeps _ (.refl s)⟩

theorem pass_keeps (n : Nat) (s : State) : KeepsMessage s (pass n s) := by
  unfold pass
  split <;> exact ⟨rfl, rfl, rfl, rfl, rfl, rfl, rfl, rfl, rfl, rfl, rfl, rfl⟩

theorem boundReached_spec (r : Reg32) (s : State) :
    ((boundReached r s).1 = .success ∨ (boundReached r s).1 = .timeout) ∧ KeepsMessage s (boundReached r s).2 := by
  have h1 : KeepsMessage s (s.setOracle (finalRead s.params s.oracle).2) :=
    ⟨rfl, rfl, rfl, rfl, rfl, rfl, rfl, rfl, rfl, rfl, rfl, rfl⟩
  have h2 := (h1.trans (pass_keeps Config.pollInterval _)).trans (portRead32_keeps r _)
  simp only [boundReached]
  split
  · split
    · exact ⟨.inr rfl, h2⟩
    · exact ⟨.inl rfl, h2⟩
  · exact ⟨.inr rfl, h1⟩

theorem pollLoop_spec (r : Reg32) (k n : Nat) (s : State) :
    ((pollLoop r k n s).1 = .success ∨ (pollLoop r k n s).1 = .timeout) ∧ KeepsMessage s (pollLoop r k n s).2 := by
  induction k generalizing n s with
  | zero => exact ⟨.inr rfl, .refl s⟩
  | succ k ih =>
    have h1 := portRead32_keeps r s
    simp only [pollLoop]
    split
    · have h2 : KeepsMessage (portRead32 r s).2 (((portRead32 r s).2.setNpoll (n + 1)).setOracle
          (timeoutNow (portRead32 r s).2.params (n + 1) (portRead32 r s).2.oracle).2) :=
        ⟨rfl, rfl, rfl, rfl, rfl, rfl, rfl, rfl, rfl, rfl, rfl, rfl⟩
      split
      · have h3 := boundReached_spec r (((portRead32 r s).2.setNpoll (n + 1)).setOracle
          (timeoutNow (portRead32 r s).2.params (n + 1) (portRead32 r s).2.oracle).2)
        exact ⟨h3.1, (h1.trans h2).trans h3.2⟩
      · have h3 := ih (n + 1) (pass Config.pollInterval (((portRead32 r s).2.setNpoll (n + 1)).setOracle
          (timeoutNow (portRead32 r s).2.params (n + 1) (portRead32 r s).2.oracle).2))
        exact ⟨h3.1, ((h1.trans h2).trans (pass_keeps _ _)).trans h3.2⟩
    · exact ⟨.inl rfl, h1⟩

/-- BWAIT answers Success or Timeout on a known variant and UnsupportedVersion otherwise (R160), with its code in RES, and
leaves the message alone. -/
theorem bwait_spec (s : State) :
    (if s.params.version = .other then (bwait s).1 = .unsupportedVersion
      else (bwait s).1 = .success ∨ (bwait s).1 = .timeout) ∧
    (bwait s).2.eng.res = some (bwait s).1.code ∧ KeepsMessage s (bwait s).2 := by
  have h0 : KeepsMessage s ((s.setNpoll 0).setElapsed 0) :=
    ⟨rfl, rfl, rfl, rfl, rfl, rfl, rfl, rfl, rfl, rfl, rfl, rfl⟩
  rcases h : s.params.version with _ | _ | _
  · simp only [bwait, h, busyLocation]
    exact ⟨(pollLoop_spec _ _ _ _).1, rfl, endOp_keeps _ (h0.trans (pollLoop_spec _ _ _ _).2)⟩
  · simp only [bwait, h, busyLocation]
    exact ⟨(pollLoop_spec _ _ _ _).1, rfl, endOp_keeps _ (h0.trans (pollLoop_spec _ _ _ _).2)⟩
  · simp only [bwait, h, busyLocation]
    exact ⟨rfl, rfl, endOp_keeps _ (.refl s)⟩

end Sys2Proof.Machine
end

