-- ==== Sys2Proof/Laws/Transfer.lean ====
section
/-! SUPPORT. XFER: LOAD of a whole message, DRAIN, and the buffers. -/

namespace Sys2Proof.Machine

/-! ### Admission -/

theorem admits_lengths {segs : List Segment} (h : admits segs = true) : ∀ seg ∈ segs, seg.len = seg.buf.length := by
  simp only [admits, Bool.and_eq_true, List.all_eq_true, beq_iff_eq] at h
  exact h.1

theorem admits_first {segs : List Segment} {seg : Segment} (h : admits segs = true) (hs : firstSend segs = some seg) :
    seg.len ≠ 0 ∧ totalLen .send segs - 1 + totalLen .recv segs ≤ Config.fifoCapacity := by
  simp only [admits, Bool.and_eq_true, hs, bne_iff_ne, ne_eq, decide_eq_true_eq] at h
  exact h.2

theorem totalLen_send_zero {segs : List Segment} (h : firstSend segs = none) : totalLen .send segs = 0 := by
  induction segs with
  | nil => rfl
  | cons seg rest ih =>
    rcases hd : seg.dir with _ | _
    · simp [firstSend, hd] at h
    · simp only [firstSend, hd] at h
      simp [totalLen, hd, ih (by simpa using h)]

theorem totalLen_send_sent {segs : List Segment} (h : ∀ seg ∈ segs, seg.len = seg.buf.length) :
    (sentBytes segs).length = totalLen .send segs := by
  induction segs with
  | nil => rfl
  | cons seg rest ih =>
    have := h seg (by simp)
    have hr := ih (fun x hx => h x (by simp [hx]))
    rcases hd : seg.dir with _ | _ <;> simp [sentBytes, totalLen, hd, hr, this]

theorem totalLen_recv_received {segs : List Segment} (h : ∀ seg ∈ segs, seg.len = seg.buf.length) :
    (receivedBytes segs).length = totalLen .recv segs := by
  induction segs with
  | nil => rfl
  | cons seg rest ih =>
    have := h seg (by simp)
    have hr := ih (fun x hx => h x (by simp [hx]))
    rcases hd : seg.dir with _ | _ <;> simp [receivedBytes, totalLen, hd, hr, this]

/-! ### LOAD of a whole message -/

/-- A message with no send segment: LOAD makes no access and leaves OPC at `none` (R186). -/
theorem loadSegments_none (segs : List Segment) (r : Nat) (s : State) (hs : firstSend segs = none)
    (hrxc : s.eng.rxc = some r) :
    loadSegments segs s = .ok (s.setRxc (r + totalLen .recv segs)) := by
  induction segs generalizing r s with
  | nil =>
    have : s.setRxc r = s := by
      cases s with | mk _ _ e _ _ _ _ _ => cases e; simp_all [State.setRxc]
    simp [loadSegments, totalLen, this]
  | cons seg rest ih =>
    rcases hd : seg.dir with _ | _
    · simp [firstSend, hd] at hs
    · have hs' : firstSend rest = none := by simpa [firstSend, hd] using hs
      have h1 : loadSegment seg s = .ok (s.setRxc (r + seg.len)) := by
        simp only [loadSegment, hd, bind_ok, readReg_ok, pure_ok]
        exact ⟨r, hrxc, rfl⟩
      have h2 := ih (r + seg.len) (s.setRxc (r + seg.len)) hs' (by simp)
      simp only [loadSegments, bind_ok]
      refine ⟨_, h1, ?_⟩
      rw [h2]
      simp [State.setRxc, totalLen, hd, Nat.add_assoc]

/-- The FIFO writes of LOAD: the bytes in order, from cell `n` on (R62, R185). -/
def loadWrites : Nat → List Byte → State → State
  | _, [], s => s
  | n, b :: rest, s => loadWrites (n + 1) rest (wr8 (Config.fifoBase + n) b s)

/-- A port write does not look at the engine's registers. -/
theorem wr8_eng (off : Nat) (b : Byte) (e : Engine) (s : State) :
    wr8 off b { s with eng := e } = { wr8 off b s with eng := e } := by
  unfold wr8; split <;> rfl

theorem wr8_eng_same (off : Nat) (b : Byte) (s : State) : (wr8 off b s).eng = s.eng := by
  unfold wr8; split <;> rfl

theorem loadWrites_eng (n : Nat) (bs : List Byte) (e : Engine) (s : State) :
    loadWrites n bs { s with eng := e } = { loadWrites n bs s with eng := e } := by
  induction bs generalizing n s with
  | nil => rfl
  | cons b rest ih => rw [loadWrites, loadWrites, wr8_eng, ih]

theorem loadWrites_eng_same (n : Nat) (bs : List Byte) (s : State) : (loadWrites n bs s).eng = s.eng := by
  induction bs generalizing n s with
  | nil => rfl
  | cons b rest ih => rw [loadWrites, ih, wr8_eng_same]

theorem loadWrites_append (n : Nat) (bs cs : List Byte) (s : State) :
    loadWrites n (bs ++ cs) s = loadWrites (n + bs.length) cs (loadWrites n bs s) := by
  induction bs generalizing n s with
  | nil => rfl
  | cons b rest ih =>
    rw [List.cons_append, loadWrites, loadWrites, ih, List.length_cons]
    congr 1; omega

/-- The cursor, TXC and RXC where LOAD has got to. -/
def loaded (n r : Nat) (s : State) : State :=
  { s with eng := { s.eng with cur := some n, txc := some n, rxc := some r } }

theorem loaded_self {n r : Nat} {s : State} (hcur : s.eng.cur = some n) (htxc : s.eng.txc = some n)
    (hrxc : s.eng.rxc = some r) : loaded n r s = s := by
  cases s with | mk _ _ e _ _ _ _ _ => cases e; simp_all [loaded]

/-- The transmit bytes of one segment (R185). -/
theorem loadBytes_eq (bs : List Byte) (n r : Nat) (s : State) :
    loadBytes bs (loaded n r s) = .ok (loaded (n + bs.length) r (loadWrites n bs s)) := by
  induction bs generalizing n s with
  | nil => rfl
  | cons b rest ih =>
    simp only [loadBytes, bind_ok]
    refine ⟨loaded (n + 1) r (wr8 (Config.fifoBase + n) b s), ?_, ?_⟩
    · simp only [loadByte, bind_ok, readReg_ok, pure_ok]
      refine ⟨n, rfl, n, rfl, ?_⟩
      simp only [loaded, State.setCur, State.setTxc, wr8_eng]
      rw [wr8_eng_same]
    · rw [ih, loadWrites, List.length_cons]
      congr 2; omega

/-- LOAD once the opcode is split off: every send byte is written in order, every receive byte is counted (R185). -/
theorem loadSegments_eq (segs : List Segment) (n r : Nat) (b : Byte) (s : State)
    (hlen : ∀ seg ∈ segs, seg.len = seg.buf.length) (hopc : s.eng.opc = some (some b)) :
    loadSegments segs (loaded n r s) =
      .ok (loaded (n + (sentBytes segs).length) (r + totalLen .recv segs) (loadWrites n (sentBytes segs) s)) := by
  induction segs generalizing n r s with
  | nil => rfl
  | cons seg rest ih =>
    have hl := hlen seg (by simp)
    have hrest : ∀ seg ∈ rest, seg.len = seg.buf.length := fun x hx => hlen x (by simp [hx])
    rcases hd : seg.dir with _ | _
    · have h1 : loadSegment seg (loaded n r s) = .ok (loaded (n + seg.buf.length) r (loadWrites n seg.buf s)) := by
        simp only [loadSegment, hd, hl, lt_irrefl, if_false, bind_ok, readReg_ok]
        refine ⟨some b, hopc, ?_⟩
        simp only [List.take_length]
        exact loadBytes_eq seg.buf n r s
      simp only [loadSegments, bind_ok]
      refine ⟨_, h1, ?_⟩
      rw [ih (n + seg.buf.length) r _ hrest (by rw [loadWrites_eng_same]; exact hopc)]
      simp only [sentBytes, totalLen, hd, if_true, loadWrites_append, List.length_append, Nat.add_assoc]
      simp
    · have h1 : loadSegment seg (loaded n r s) = .ok (loaded n (r + seg.len) s) := by
        simp only [loadSegment, hd, bind_ok, readReg_ok, pure_ok]
        exact ⟨r, rfl, rfl⟩
      simp only [loadSegments, bind_ok]
      refine ⟨_, h1, ?_⟩
      rw [ih n (r + seg.len) s hrest hopc]
      simp [sentBytes, totalLen, hd, Nat.add_assoc]

/-- LOAD of a message whose first send segment is not empty: its first byte is the opcode, the other sent bytes are written
from cell 0 on (R185, R195). -/
theorem loadSegments_first (segs : List Segment) (seg0 : Segment) (r : Nat) (s : State)
    (hlen : ∀ seg ∈ segs, seg.len = seg.buf.length) (hs : firstSend segs = some seg0) (h0 : seg0.len ≠ 0)
    (hopc : s.eng.opc = some none) :
    ∃ b tx, sentBytes segs = b :: tx ∧
      loadSegments segs (loaded 0 r s) =
        .ok (loaded tx.length (r + totalLen .recv segs) ((loadWrites 0 tx s).setOpc (some b))) := by
  induction segs generalizing r s with
  | nil => simp [firstSend] at hs
  | cons seg rest ih =>
    have hl := hlen seg (by simp)
    have hrest : ∀ seg ∈ rest, seg.len = seg.buf.length := fun x hx => hlen x (by simp [hx])
    rcases hd : seg.dir with _ | _
    · have hseg : seg = seg0 := by simpa [firstSend, hd] using hs
      subst hseg
      rcases hb : seg.buf with _ | ⟨b, bs⟩
      · simp [hb] at hl; exact absurd hl h0
      · refine ⟨b, bs ++ sentBytes rest, by simp [sentBytes, hd, hb], ?_⟩
        have h1 : loadSegment seg (loaded 0 r s) = .ok (loaded bs.length r ((loadWrites 0 bs s).setOpc (some b))) := by
          simp only [loadSegment, hd]
          rw [if_neg (by omega)]
          simp only [bind_ok, readReg_ok]
          refine ⟨none, hopc, ?_⟩
          have htake : seg.buf.take seg.len = b :: bs := by rw [hl, List.take_length, hb]
          rw [htake]
          have := loadBytes_eq bs 0 r (s.setOpc (some b))
          rw [Nat.zero_add] at this
          rw [show (loadWrites 0 bs s).setOpc (some b) = loadWrites 0 bs (s.setOpc (some b)) from by
            simp only [State.setOpc, loadWrites_eng, loadWrites_eng_same]]
          exact this
        simp only [loadSegments, bind_ok]
        refine ⟨_, h1, ?_⟩
        rw [loadSegments_eq rest bs.length r b _ hrest rfl]
        simp only [totalLen, hd, List.length_append, loadWrites_append, Nat.zero_add]
        simp only [State.setOpc, loadWrites_eng, loadWrites_eng_same]
        simp
    · have hs' : firstSend rest = some seg0 := by simpa [firstSend, hd] using hs
      obtain ⟨b, tx, g1, g2⟩ := ih (r + seg.len) s hrest hs' hopc
      refine ⟨b, tx, by simpa [sentBytes, hd] using g1, ?_⟩
      have h1 : loadSegment seg (loaded 0 r s) = .ok (loaded 0 (r + seg.len) s) := by
        simp only [loadSegment, hd, bind_ok, readReg_ok, pure_ok]
        exact ⟨r, rfl, rfl⟩
      simp only [loadSegments, bind_ok]
      refine ⟨_, h1, ?_⟩
      rw [g2]
      simp [totalLen, hd, Nat.add_assoc]

/-- LOAD's writes are all legal, and leave the message alone. -/
theorem loadWrites_keeps (n : Nat) (bs : List Byte) (s : State) (h : n + bs.length ≤ Config.fifoCapacity) :
    KeepsMessage s (loadWrites n bs s) := by
  induction bs generalizing n s with
  | nil => exact .refl s
  | cons b rest ih =>
    rw [List.length_cons] at h
    have h1 : KeepsMessage s (wr8 (Config.fifoBase + n) b s) := by
      rw [wr8_legal (port8_fifo (n := n) (by omega))]
      exact portWrite8_keeps _ _ _
    exact h1.trans (ih (n + 1) _ (by omega))

/-- The accesses of LOAD: the bytes in order, from the FIFO's base on (R185). -/
theorem loadWrites_trace (n : Nat) (bs : List Byte) (s : State) (h : n + bs.length ≤ Config.fifoCapacity) :
    (loadWrites n bs s).trace = s.trace ++ bs.mapIdx (fun k b => Access.wr8 (Config.fifoBase + (n + k)) b) := by
  induction bs generalizing n s with
  | nil => simp [loadWrites]
  | cons b rest ih =>
    rw [List.length_cons] at h
    rw [loadWrites, ih (n + 1) _ (by omega), wr8_legal (port8_fifo (n := n) (by omega))]
    simp [portWrite8, State.turn, Reg8.offset, Nat.add_comm, Nat.add_left_comm]

/-! ### The receive buffers -/

/-- A write into a segment's buffer. -/
abbrev writeBuf (m : Nat) (b : Byte) (seg : Segment) : Segment := { seg with buf := seg.buf.set m b }

/-- Writing byte `k` where `Place` says: the place exists, the message's frame stays, and byte `k` of the received bytes is
the one written (R189, R190). -/
theorem placeFrom_spec (segs : List Segment) (k t0 : Nat) (b : Byte)
    (hlen : ∀ seg ∈ segs, seg.len = seg.buf.length) (hk : k < totalLen .recv segs) :
    ∃ t m, placeFrom segs k t0 = some (t0 + t, m) ∧ bufHas segs t m = true ∧
      messageFrame (segs.modify t (writeBuf m b)) = messageFrame segs ∧
      receivedBytes (segs.modify t (writeBuf m b)) = (receivedBytes segs).set k b := by
  induction segs generalizing k t0 with
  | nil => simp [totalLen] at hk
  | cons seg rest ih =>
    have hl := hlen seg (by simp)
    have hrest : ∀ seg ∈ rest, seg.len = seg.buf.length := fun x hx => hlen x (by simp [hx])
    rcases hd : seg.dir with _ | _
    · obtain ⟨t, m, h1, h4, h2, h3⟩ := ih k (t0 + 1) hrest (by simpa [totalLen, hd] using hk)
      refine ⟨t + 1, m, ?_, by simpa [bufHas] using h4, ?_, ?_⟩
      · simp only [placeFrom, hd, h1]
        congr 2; omega
      · simpa [messageFrame] using h2
      · simpa [receivedBytes, hd] using h3
    · by_cases hk' : k < seg.len
      · refine ⟨0, k, by simp [placeFrom, hd, hk'], by simpa [bufHas] using hl ▸ hk', by simp [messageFrame, hd], ?_⟩
        simp [receivedBytes, hd, hl ▸ hk']
      · have hk2 : k - seg.len < totalLen .recv rest := by
          simp only [totalLen, hd, if_true] at hk; omega
        obtain ⟨t, m, h1, h4, h2, h3⟩ := ih (k - seg.len) (t0 + 1) hrest hk2
        refine ⟨t + 1, m, ?_, by simpa [bufHas] using h4, ?_, ?_⟩
        · simp only [placeFrom, hd, hk', if_false, h1]
          congr 2; omega
        · simpa [messageFrame] using h2
        · simp only [List.modify_succ_cons, receivedBytes, hd, if_true, h3]
          rw [List.set_append_right _ _ (by omega), ← hl]

theorem messageFrame_lengths {segs segs' : List Segment} (h : messageFrame segs' = messageFrame segs)
    (hl : ∀ seg ∈ segs, seg.len = seg.buf.length) : ∀ seg ∈ segs', seg.len = seg.buf.length := by
  intro seg hs
  have hm : (seg.dir, seg.len, seg.buf.length, if seg.dir = .send then seg.buf else []) ∈ messageFrame segs := by
    rw [← h]
    exact List.mem_map.2 ⟨seg, hs, rfl⟩
  obtain ⟨x, hx, he⟩ := List.mem_map.1 hm
  simp only [Prod.mk.injEq] at he
  rw [← he.2.1, ← he.2.2.1]
  exact hl x hx

theorem messageFrame_totalLen {segs segs' : List Segment} (h : messageFrame segs' = messageFrame segs) (d : Dir) :
    totalLen d segs' = totalLen d segs := by
  induction segs generalizing segs' with
  | nil =>
    have : segs' = [] := by simpa [messageFrame] using h
    rw [this]
  | cons seg rest ih =>
    rcases segs' with _ | ⟨seg', rest'⟩
    · simp [messageFrame] at h
    · simp only [messageFrame, List.map_cons, List.cons.injEq, Prod.mk.injEq] at h
      simp only [totalLen, h.1.1, h.1.2.1, ih h.2]

/-- What storing received byte `k` leaves. -/
theorem storeReceived_spec (k : Nat) (b : Byte) (m : Message) (s : State) (hmsg : s.eng.msg = some m)
    (hlen : ∀ seg ∈ m.segs, seg.len = seg.buf.length) (hk : k < totalLen .recv m.segs) :
    ∃ segs', storeReceived k b s = .ok (s.setMsg { m with segs := segs' }) ∧
      messageFrame segs' = messageFrame m.segs ∧ receivedBytes segs' = (receivedBytes m.segs).set k b := by
  obtain ⟨t, p, h1, h4, h2, h3⟩ := placeFrom_spec m.segs k 0 b hlen hk
  rw [Nat.zero_add] at h1
  refine ⟨m.segs.modify t (writeBuf p b), ?_, h2, h3⟩
  simp only [storeReceived, bind_ok, readMsg_ok]
  exact ⟨m, hmsg, by simp [place, h1, h4, bufWrite]⟩

/-- What DRAIN leaves: one read per byte, the frame of the message as it was, and nothing else of the engine moved; of a device at
rest it reads the FIFO's bytes in order and leaves the device alone (R189, R190, R194). -/
theorem drainBytes_spec (txc count k : Nat) (m : Message) (s : State) (hmsg : s.eng.msg = some m)
    (hlen : ∀ seg ∈ m.segs, seg.len = seg.buf.length) (hk : k + count ≤ totalLen .recv m.segs)
    (hfit : txc + totalLen .recv m.segs ≤ Config.fifoCapacity) :
    ∃ t segs' l, drainBytes txc count k s = .ok t ∧ t.eng.msg = some { m with segs := segs' } ∧
      messageFrame segs' = messageFrame m.segs ∧ KeepsMessage s (t.setMsg m) ∧
      t.trace = s.trace ++ l ∧ l.length = count ∧ t.dev.havoc = s.dev.havoc ∧
      (s.dev.havoc = false → s.dev.phase = .idle → s.params.version ≠ .other → t.dev = s.dev ∧
        receivedBytes segs' = (receivedBytes m.segs).take k ++ s.dev.fifo.bytes (Config.fifoBase + txc + k) count ++
          (receivedBytes m.segs).drop (k + count)) := by
  induction count generalizing k m s with
  | zero =>
    exact ⟨s, m.segs, [], rfl, hmsg, rfl, ⟨rfl, rfl, rfl, rfl, rfl, rfl, rfl, rfl, rfl, rfl, rfl, by simp [hmsg]⟩,
      by simp, rfl, rfl, fun _ _ _ => ⟨rfl, by simp [Memory.bytes]⟩⟩
  | succ count ih =>
    have hp : port8 (Config.fifoBase + txc + k) = some (.fifo ⟨txc + k, by omega⟩) := by
      rw [Nat.add_assoc]; exact port8_fifo (by omega)
    have hr := rd8_legal hp s
    have hkp := portRead8_keeps (.fifo ⟨txc + k, by omega⟩) s
    have hmsg1 : (rd8 (Config.fifoBase + txc + k) s).eng.msg = some m := by rw [hr]; exact hmsg
    obtain ⟨segs1, g1, g2, g3⟩ := storeReceived_spec k
      (BitVec.extractLsb' 0 8 ((portRead8 (.fifo ⟨txc + k, by omega⟩) s).1.setWidth 32)) m _ hmsg1 hlen (by omega)
    have hlen1 := messageFrame_lengths g2 hlen
    have htot := messageFrame_totalLen g2 .recv
    obtain ⟨t, segs', l, e1, e2, e3, e4, e6, e7, e8, e9⟩ := ih (k + 1) { m with segs := segs1 }
      ((rd8 (Config.fifoBase + txc + k) s).setMsg { m with segs := segs1 }) (by simp) hlen1
      (by simp only [htot]; omega) (by simp only [htot]; omega)
    refine ⟨t, segs', .rd8 (Reg8.fifo ⟨txc + k, by omega⟩).offset (portRead8 (.fifo ⟨txc + k, by omega⟩) s).1 :: l,
      ?_, e2, e3.trans g2, ?_, ?_, by simp [e7], ?_, fun hh hi hv => ?_⟩
    · simp only [drainBytes, bind_ok, readReg_ok]
      refine ⟨_, ?_, _, g1, e1⟩
      rw [hr]
      rfl
    · have e5 := e4
      rw [hr] at e5
      exact ⟨e5.params, e5.requests, e5.completions, e5.refused, e5.pc, e5.opc, e5.txc, e5.rxc, e5.cur, e5.status,
        e5.actual, by simp [hmsg]⟩
    · rw [e6, hr]
      simp [portRead8, State.turn]
    · rw [e8, hr]
      exact portRead8_havoc (.fifo ⟨txc + k, by omega⟩) s
    · have hread : portRead8 (.fifo ⟨txc + k, by omega⟩) s = (s.dev.fifo.read (Config.fifoBase + (txc + k)),
          { s with trace := s.trace ++
              [.rd8 (Reg8.fifo ⟨txc + k, by omega⟩).offset (s.dev.fifo.read (Config.fifoBase + (txc + k)))] }) := by
        rw [portRead8_rest hh hi]
        simp [devRead8, hh, hv, hi, Phase.isIdle]
      rw [hr] at e9
      rw [hread] at e9 g3
      obtain ⟨f1, f2⟩ := e9 hh hi hv
      refine ⟨f1, ?_⟩
      have hb : BitVec.extractLsb' 0 8 ((s.dev.fifo.read (Config.fifoBase + (txc + k))).setWidth 32) =
          s.dev.fifo.read (Config.fifoBase + (txc + k)) := by
        apply BitVec.eq_of_getLsbD_eq
        intro i hi
        simp [hi]
        omega
      have hlk : k < (receivedBytes m.segs).length := by rw [totalLen_recv_received hlen]; omega
      rw [f2, g3, hb]
      simp only [State.setMsg, State.setRes, Memory.bytes]
      rw [List.take_succ_eq_append_getElem (by simpa using hlk), List.drop_set_of_lt (by omega)]
      simp only [List.getElem_set_self, List.take_set, Nat.add_assoc, List.append_assoc, List.cons_append, List.nil_append]
      rw [List.set_eq_of_length_le (by simp)]
      congr 3
      congr 1; omega

/-- A property of the device kept by its turn is kept by DRAIN, which only reads. -/
theorem drainBytes_keeps_dev (P : Device → Prop) (txc count k : Nat) {s t : State}
    (hturn : ∀ d o, P d → P (deviceTurn s.params d o).1) (h : P s.dev) (e : drainBytes txc count k s = .ok t) : P t.dev := by
  induction count generalizing k s with
  | zero =>
    simp only [drainBytes, Except.ok.injEq] at e
    exact e ▸ h
  | succ count ih =>
    simp only [drainBytes, bind_ok] at e
    obtain ⟨res, _, s2, h2, h3⟩ := e
    have hp : s2.params = s.params ∧ s2.dev = (rd8 (Config.fifoBase + txc + k) s).dev := by
      obtain ⟨m, rfl⟩ := storeReceived_ok h2
      have hrd : (rd8 (Config.fifoBase + txc + k) s).params = s.params := by unfold rd8; split <;> rfl
      exact ⟨hrd, rfl⟩
    have hd : P (rd8 (Config.fifoBase + txc + k) s).dev := by
      unfold rd8
      split
      · exact h
      · exact hturn _ _ h
    exact ih (k + 1) (by rw [hp.1]; exact hturn) (by rw [hp.2]; exact hd) h3

end Sys2Proof.Machine
end

