-- ==== Sys2Proof/Laws/Wait.lean ====
section
/-! SUPPORT. The busy-wait poller: every read it makes, and what decides it (R160 to R166). -/

namespace Sys2Proof.Machine

/-- A poll read that saw busy (R160). -/
abbrev busyRead (r : Reg32) (x : Access) : Prop := ∃ v : Word, x = .rd32 r.offset v ∧ v[31] = true

/-- From `s` to `t` a wait took `n` time-units, exactly under `EXACT` and at least under `LOOSE` (R163). -/
abbrev Took (n : Nat) (s t : State) : Prop :=
  s.eng.elapsed + n ≤ t.eng.elapsed ∧ (s.params.pollTiming = .exact → t.eng.elapsed = s.eng.elapsed + n)

/-- What a wait leaves: it made the reads `l` and then the read of `v`; only the last may have seen busy clear, and it decides
the status; nothing of the engine but NPOLL and the elapsed time has moved, and an interval lies between two reads. -/
structure Waited (r : Reg32) (n : Nat) (s : State) (w : Status × State) (l : List Access) (v : Word) (m : Nat) : Prop where
  trace : w.2.trace = s.trace ++ l ++ [.rd32 r.offset v]
  busy : ∀ x ∈ l, busyRead r x
  value : ∃ o, v = (devRead32 s.params w.2.dev r o).1
  status : w.1 = if v[31] then .timeout else .success
  eng : w.2.eng = { s.eng with npoll := some m, elapsed := w.2.eng.elapsed }
  count : v[31] = false → m = n + l.length
  most : m ≤ Config.maxBusyReads
  time : Took (Config.pollInterval * l.length) s w.2
  havoc : w.2.dev.havoc = s.dev.havoc
  keeps : KeepsMessage s w.2

theorem pass_eng (k : Nat) (s : State) : (pass k s).eng = { s.eng with elapsed := (pass k s).eng.elapsed } := by
  unfold pass; split <;> rfl

theorem pass_trace (k : Nat) (s : State) : (pass k s).trace = s.trace := by unfold pass; split <;> rfl

theorem pass_dev (k : Nat) (s : State) : (pass k s).dev = s.dev := by unfold pass; split <;> rfl

theorem pass_params (k : Nat) (s : State) : (pass k s).params = s.params := by unfold pass; split <;> rfl

theorem pass_took (k : Nat) (s : State) : Took k s (pass k s) := by
  unfold pass
  split <;> rename_i h <;> simp [Took, h, State.setElapsed, State.setOracle, Nat.add_assoc]

/-- What follows a read that saw busy and a bound that is reached: no read, or one more, which decides (R160, R162). -/
theorem boundReached_reads (r : Reg32) (s : State) :
    (boundReached r s).1 = .timeout ∧ (boundReached r s).2 = s.setOracle (finalRead s.params s.oracle).2 ∨
    ∃ v : Word, (boundReached r s).1 = (if v[31] then .timeout else .success) ∧
      (boundReached r s).2.trace = s.trace ++ [.rd32 r.offset v] ∧
      (∃ o, v = (devRead32 s.params (boundReached r s).2.dev r o).1) ∧
      (boundReached r s).2.eng = { s.eng with elapsed := (boundReached r s).2.eng.elapsed } ∧
      (boundReached r s).2.dev.havoc = s.dev.havoc ∧ Took Config.pollInterval s (boundReached r s).2 := by
  by_cases hf : (finalRead s.params s.oracle).1 = true
  · refine .inr ⟨(portRead32 r (pass Config.pollInterval (s.setOracle (finalRead s.params s.oracle).2))).1, ?_⟩
    have e1 : (boundReached r s).2 = (portRead32 r (pass Config.pollInterval (s.setOracle (finalRead s.params s.oracle).2))).2 := by
      simp only [boundReached, hf, if_true]
      split <;> rfl
    refine ⟨?_, ?_, ?_, ?_, ?_, ?_⟩
    · simp only [boundReached, hf, if_true]
      split <;> simp_all
    · rw [e1]; simp only [portRead32, State.turn, pass_trace]; rfl
    · rw [e1]
      refine ⟨(pass Config.pollInterval (s.setOracle (finalRead s.params s.oracle).2)).turn.oracle, ?_⟩
      have hp : (pass Config.pollInterval (s.setOracle (finalRead s.params s.oracle).2)).turn.params = s.params := pass_params _ _
      rw [portRead32, hp]
    · rw [e1]; exact pass_eng _ _
    · rw [e1, portRead32_havoc, pass_dev]; rfl
    · rw [e1]; exact pass_took _ (s.setOracle (finalRead s.params s.oracle).2)
  · exact .inl (by simp [boundReached, hf])

/-- A wait whose next read decides: it sees busy clear, or the bound is reached after it. -/
theorem pollLoop_stops (r : Reg32) (k n : Nat) (s : State) (hn : s.eng.npoll = some n) (hk : n + 1 ≤ Config.maxBusyReads)
    (h : (portRead32 r s).1[31] = true →
      (timeoutNow (portRead32 r s).2.params (n + 1) (portRead32 r s).2.oracle).1 = true) :
    ∃ l v m, Waited r n s (pollLoop r (k + 1) n s) l v m ∧ l.length ≤ 1 := by
  by_cases hb : (portRead32 r s).1[31] = true
  · have e : pollLoop r (k + 1) n s = boundReached r (((portRead32 r s).2.setNpoll (n + 1)).setOracle
        (timeoutNow (portRead32 r s).2.params (n + 1) (portRead32 r s).2.oracle).2) := by
      rw [pollLoop]
      simp only [hb, State.setNpoll_params, State.setNpoll_oracle, h hb, if_true]
    have hkeep := (pollLoop_spec r (k + 1) n s).2
    rw [e] at hkeep ⊢
    rcases boundReached_reads r (((portRead32 r s).2.setNpoll (n + 1)).setOracle
        (timeoutNow (portRead32 r s).2.params (n + 1) (portRead32 r s).2.oracle).2) with ⟨e1, e2⟩ | ⟨v, e1, e2, e5, e3, e4, e6⟩
    · refine ⟨[], (portRead32 r s).1, n + 1, ⟨?_, by simp, ⟨s.turn.oracle, ?_⟩, by rw [e1, if_pos hb], ?_, ?_, hk, ?_, ?_,
        hkeep⟩, by simp⟩
      · rw [e2]; simp [portRead32, State.turn]
      · rw [e2]; rfl
      · rw [e2]; rfl
      · intro h; rw [hb] at h; simp at h
      · rw [e2]; exact ⟨Nat.le_refl _, fun _ => rfl⟩
      · rw [e2]; exact portRead32_havoc r s
    · refine ⟨[.rd32 r.offset (portRead32 r s).1], v, n + 1, ⟨?_, ?_, e5, e1, ?_, fun _ => by simp, hk, e6, ?_,
        hkeep⟩, by simp⟩
      · rw [e2]; simp [portRead32, State.turn]
      · intro x hx
        rw [List.mem_singleton.1 hx]
        exact ⟨_, rfl, hb⟩
      · rw [e3]; rfl
      · rw [e4]; exact portRead32_havoc r s
  · have e : pollLoop r (k + 1) n s = (.success, (portRead32 r s).2) := by rw [pollLoop]; simp [hb]
    rw [e]
    refine ⟨[], (portRead32 r s).1, n, ⟨by simp [portRead32, State.turn], by simp, ⟨s.turn.oracle, rfl⟩, by simp [hb], ?_,
      fun _ => by simp, by omega, ⟨Nat.le_refl _, fun _ => rfl⟩, portRead32_havoc r s, portRead32_keeps r s⟩, by simp⟩
    rw [← hn]; rfl

/-- The whole of a wait, from the poll loop's entry after `n` busy reads with `k + 1` left. -/
theorem pollLoop_reads (r : Reg32) (k n : Nat) (s : State) (hn : s.eng.npoll = some n)
    (hk : n + (k + 1) = Config.maxBusyReads) :
    ∃ l v m, Waited r n s (pollLoop r (k + 1) n s) l v m ∧ l.length ≤ k + 1 := by
  induction k generalizing n s with
  | zero =>
    refine pollLoop_stops r 0 n s hn (by omega) fun _ => ?_
    have hn1 : n + 1 = Config.maxBusyReads := hk
    simp only [timeoutNow]
    cases (portRead32 r s).2.params.pollTiming
    · simp [hn1]
    · simp only [boundExceeded, decide_eq_true_eq, hn1]; decide
  | succ k ih =>
    by_cases hst : (portRead32 r s).1[31] = true →
        (timeoutNow (portRead32 r s).2.params (n + 1) (portRead32 r s).2.oracle).1 = true
    · obtain ⟨l, v, m, hw, hl⟩ := pollLoop_stops r (k + 1) n s hn (by omega) hst
      exact ⟨l, v, m, hw, by omega⟩
    · obtain ⟨hb, ht⟩ := Classical.not_imp.1 hst
      generalize hs3 : pass Config.pollInterval (((portRead32 r s).2.setNpoll (n + 1)).setOracle
        (timeoutNow (portRead32 r s).2.params (n + 1) (portRead32 r s).2.oracle).2) = s3
      have e : pollLoop r (k + 1 + 1) n s = pollLoop r (k + 1) (n + 1) s3 := by
        rw [← hs3, pollLoop]
        simp only [hb, State.setNpoll_params, State.setNpoll_oracle, ht, if_true]
        simp
      have hkeep := (pollLoop_spec r (k + 1 + 1) n s).2
      have h1 : s3.eng = { s.eng with npoll := some (n + 1), elapsed := s3.eng.elapsed } := by
        rw [← hs3, pass_eng]; rfl
      have h2 : s3.trace = s.trace ++ [.rd32 r.offset (portRead32 r s).1] := by
        rw [← hs3, pass_trace]; simp [portRead32, State.turn]
      have h3 : s3.dev.havoc = s.dev.havoc := by
        rw [← hs3, pass_dev]; exact portRead32_havoc r s
      obtain ⟨l, v, m, hw, hl⟩ := ih (n + 1) s3 (by rw [h1]) (by omega)
      rw [e] at hkeep ⊢
      have h4 : s3.params = s.params := by rw [← hs3, pass_params]; rfl
      refine ⟨.rd32 r.offset (portRead32 r s).1 :: l, v, m, ⟨?_, ?_, by rw [← h4]; exact hw.value, hw.status, ?_, ?_,
        hw.most, ?_, ?_, hkeep⟩, ?_⟩
      · rw [hw.trace, h2]; simp
      · intro x hx
        rcases List.mem_cons.1 hx with hx | hx
        · exact ⟨_, hx, hb⟩
        · exact hw.busy x hx
      · rw [hw.eng, h1]
      · intro hv; rw [hw.count hv, List.length_cons]; omega
      · have h5 : Took Config.pollInterval s s3 := by
          rw [← hs3]
          exact pass_took _ (((portRead32 r s).2.setNpoll (n + 1)).setOracle
            (timeoutNow (portRead32 r s).2.params (n + 1) (portRead32 r s).2.oracle).2)
        rw [List.length_cons, Nat.mul_succ]
        exact ⟨by have := h5.1; have := hw.time.1; omega, fun hx => by
          have := h5.2 hx
          have := hw.time.2 (h4 ▸ hx)
          omega⟩
      · rw [hw.havoc, h3]
      · rw [List.length_cons]; omega

/-! ### What a wait keeps of the device: it only reads -/

theorem boundReached_keeps_dev (P : Device → Prop) (r : Reg32) (s : State)
    (hturn : ∀ d o, P d → P (deviceTurn s.params d o).1) (h : P s.dev) : P (boundReached r s).2.dev := by
  have h1 : P (portRead32 r (pass Config.pollInterval (s.setOracle (finalRead s.params s.oracle).2))).2.dev := by
    change P (deviceTurn (pass Config.pollInterval _).params (pass Config.pollInterval _).dev _).1
    rw [pass_params, pass_dev]
    exact hturn _ _ h
  simp only [boundReached]
  split
  · split <;> exact h1
  · exact h

theorem pollLoop_keeps_dev (P : Device → Prop) (r : Reg32) (k n : Nat) (s : State)
    (hturn : ∀ d o, P d → P (deviceTurn s.params d o).1) (h : P s.dev) : P (pollLoop r k n s).2.dev := by
  induction k generalizing n s with
  | zero => exact h
  | succ k ih =>
    have h1 : P (portRead32 r s).2.dev := hturn _ _ h
    simp only [pollLoop]
    split
    · split
      · exact boundReached_keeps_dev P r _ hturn h1
      · refine ih _ _ ?_ ?_
        · rw [pass_params]; exact hturn
        · rw [pass_dev]; exact h1
    · exact h1

/-- A property of the device kept by its turn is kept by BWAIT. -/
theorem bwait_keeps_dev (P : Device → Prop) (s : State) (hturn : ∀ d o, P d → P (deviceTurn s.params d o).1)
    (h : P s.dev) : P (bwait s).2.dev := by
  unfold bwait
  split
  · exact h
  · exact pollLoop_keeps_dev P _ _ _ _ hturn h

end Sys2Proof.Machine
end

