-- ==== Sys2Proof/Laws/Run.lean ====
section
/-! SUPPORT. The whole of XFER, said once: the state at FINAL on each of its paths, and what FINAL and NOTIFY make of it
(R183 to R192, R269 to R271). -/

namespace Sys2Proof.Machine

/-! ### Running the labels -/

theorem runLabels_idle (n : Nat) {s : State} (h : s.eng.pc = .idle) : runLabels n s = .ok s := by
  induction n with
  | zero => rfl
  | succ n ih =>
    simp only [runLabels, bind_ok]
    exact ⟨s, by simp [labelStep, h], ih⟩

theorem runLabels_step {n : Nat} {s t : State} (h : labelStep s = .ok t) : runLabels (n + 1) s = runLabels n t := by
  simp [runLabels, h, bind, Except.bind]

/-! ### FINAL and NOTIFY -/

/-- What NOTIFY leaves of the state at FINAL: one record, the message registers cleared, the status code in RES (R192). -/
def notified (m : Message) (st : Status) (len : Nat) (o : Oracle) (s : State) : State :=
  { s with
      oracle := o
      completions := s.completions ++ [{ status := st, actualLength := len, segs := m.segs }]
      eng := { s.eng with
                pc := .idle, res := some st.code, opc := none, txc := none, rxc := none, cur := none
                actual := none, msg := none } }

theorem finalized_keeps (s : State) : KeepsMessage s (finalized s) := by
  rw [finalized_eq]
  split
  · exact csdesel_keeps s
  · exact .refl s

/-- From FINAL the engine always delivers (R193). -/
theorem runLabels_final (n : Nat) {s : State} {st : Status} {m : Message} (hpc : s.eng.pc = .final)
    (hst : s.eng.status = some st) (hm : s.eng.msg = some m) {a : Nat}
    (ha : st = .success → s.eng.actual = some (some a)) :
    ∃ len o, runLabels (n + 2) s = .ok (notified m st len o (finalized s)) ∧ (st = .success → len = a) := by
  have hk := finalized_keeps s
  have h1 : labelStep s = .ok ((finalized s).goto .notify) := by simp only [labelStep, hpc, stepFinal]
  have hst' : (finalized s).eng.status = some st := by rw [hk.status]; exact hst
  have hm' : (finalized s).eng.msg = some m := by rw [hk.msg]; exact hm
  have hlen : ∃ len o, deliveredLength st ((finalized s).goto .notify) = .ok (len, o) ∧ (st = .success → len = a) := by
    cases st
    · have : (finalized s).eng.actual = some (some a) := by rw [hk.actual]; exact ha rfl
      exact ⟨a, ((finalized s).goto .notify).oracle, by simp [deliveredLength, this, readReg, bind, Except.bind, pure, Except.pure], fun _ => rfl⟩
    all_goals exact ⟨_, _, rfl, fun h => by simp at h⟩
  obtain ⟨len, o, hl, hla⟩ := hlen
  refine ⟨len, o, ?_, hla⟩
  have h2 : labelStep ((finalized s).goto .notify) = .ok (notified m st len o (finalized s)) := by
    change deliver _ = _
    simp only [deliver, bind_ok, readReg_ok, readMsg_ok, pure_ok]
    exact ⟨st, hst', m, hm', (len, o), hl, rfl⟩
  rw [runLabels_step h1, runLabels_step h2, runLabels_idle n rfl]

/-! ### The states XFER passes through -/

/-- The chip selected, and LOAD next (R184). -/
def selected (i : BitVec 8) (segs : List Segment) (s : State) : State := (cssel i (startXfer i segs s)).goto .load

/-- LOAD done: the transmit bytes in the FIFO, the counts counted, the opcode split off, and PROG next (R185). -/
def packed (i : BitVec 8) (segs : List Segment) (b : Byte) (tx : List Byte) (s : State) : State :=
  (loaded tx.length (totalLen .recv segs) ((loadWrites 0 tx (selected i segs s)).setOpc (some b))).goto .prog

/-- PROG done, and SETOP next (R187). -/
def programmed (tx rx : Nat) (s : State) : State :=
  (portWrite8 .rxCount (BitVec.ofNat 8 rx) (portWrite8 .txCount (BitVec.ofNat 8 tx) s)).goto .setop

/-- The end of the success path, and FINAL next (R183, R191). -/
def succeeded (tx rx : Nat) (s : State) : State := ((s.setStatus .success).setActual (tx + rx + 1)).goto .final

/-- The states at FINAL of a message with a send segment, with the status and the message there (R188, R189): `s` is the state
at SETOP, `b` the opcode, `tx` and `rx` the counts, `m` the message. -/
inductive Executed (b : Byte) (tx rx : Nat) (m : Message) (s : State) : Status → Message → State → Prop where
  | unsupported : s.params.version = .other →
      Executed b tx rx m s .unsupportedVersion m (raiseStatus .unsupportedVersion (setop b s).2)
  | timeout1 (u : State) : s.params.version ≠ .other → u = (trig ((setop b s).2.goto .trig)).2.goto .wait1 →
      (bwait u).1 = .timeout → Executed b tx rx m s .timeout m (raiseStatus .timeout (bwait u).2)
  | sent (u : State) : s.params.version ≠ .other → u = (trig ((setop b s).2.goto .trig)).2.goto .wait1 →
      (bwait u).1 = .success → rx = 0 →
      Executed b tx rx m s .success m (succeeded tx rx ((bwait u).2.goto .wait2))
  | timeout2 (u : State) : s.params.version ≠ .other → u = (trig ((setop b s).2.goto .trig)).2.goto .wait1 →
      (bwait u).1 = .success → rx ≠ 0 → (bwait ((bwait u).2.goto .wait2)).1 = .timeout →
      Executed b tx rx m s .timeout m (raiseStatus .timeout (bwait ((bwait u).2.goto .wait2)).2)
  | drained (u t : State) (segs' : List Segment) : s.params.version ≠ .other →
      u = (trig ((setop b s).2.goto .trig)).2.goto .wait1 → (bwait u).1 = .success → rx ≠ 0 →
      (bwait ((bwait u).2.goto .wait2)).1 = .success →
      drainBytes tx rx 0 ((bwait ((bwait u).2.goto .wait2)).2.goto .drain) = .ok t →
      t.eng.msg = some { m with segs := segs' } → messageFrame segs' = messageFrame m.segs →
      KeepsMessage ((bwait ((bwait u).2.goto .wait2)).2.goto .drain) (t.setMsg m) →
      Executed b tx rx m s .success { m with segs := segs' } (succeeded tx rx t)

/-- What a state at FINAL carries. -/
structure AtFinal (tx rx : Nat) (s : State) (st : Status) (m : Message) (t : State) : Prop where
  params : t.params = s.params
  requests : t.requests = s.requests
  completions : t.completions = s.completions
  refused : t.refused = s.refused
  pc : t.eng.pc = .final
  status : t.eng.status = some st
  msg : t.eng.msg = some m
  actual : st = .success → t.eng.actual = some (some (tx + rx + 1))

theorem Executed.atFinal {b : Byte} {tx rx : Nat} {m m' : Message} {s t : State} {st : Status} (hm : s.eng.msg = some m)
    (h : Executed b tx rx m s st m' t) : AtFinal tx rx s st m' t := by
  have ks := (setop_spec b s).2
  have kt := (trig_spec ((setop b s).2.goto .trig)).2
  cases h with
  | unsupported _ =>
    exact ⟨ks.params, ks.requests, ks.completions, ks.refused, rfl, rfl, ks.msg.trans hm, fun h => by simp at h⟩
  | timeout1 u hv hu hb =>
    have kb := (bwait_spec u).2.2
    subst hu
    exact ⟨kb.params.trans (kt.params.trans ks.params), kb.requests.trans (kt.requests.trans ks.requests),
      kb.completions.trans (kt.completions.trans ks.completions), kb.refused.trans (kt.refused.trans ks.refused), rfl, rfl,
      (kb.msg.trans (kt.msg.trans ks.msg)).trans hm, fun h => by simp at h⟩
  | sent u hv hu hb hr =>
    have kb := (bwait_spec u).2.2
    subst hu
    exact ⟨kb.params.trans (kt.params.trans ks.params), kb.requests.trans (kt.requests.trans ks.requests),
      kb.completions.trans (kt.completions.trans ks.completions), kb.refused.trans (kt.refused.trans ks.refused), rfl, rfl,
      (kb.msg.trans (kt.msg.trans ks.msg)).trans hm, fun _ => rfl⟩
  | timeout2 u hv hu hb hr hb2 =>
    have kb := (bwait_spec u).2.2
    have kc := (bwait_spec ((bwait u).2.goto .wait2)).2.2
    subst hu
    exact ⟨kc.params.trans (kb.params.trans (kt.params.trans ks.params)),
      kc.requests.trans (kb.requests.trans (kt.requests.trans ks.requests)),
      kc.completions.trans (kb.completions.trans (kt.completions.trans ks.completions)),
      kc.refused.trans (kb.refused.trans (kt.refused.trans ks.refused)), rfl, rfl,
      (kc.msg.trans (kb.msg.trans (kt.msg.trans ks.msg))).trans hm, fun h => by simp at h⟩
  | drained u t segs' hv hu hb hr hb2 hd hmsg hframe hkeep =>
    have kb := (bwait_spec u).2.2
    have kc := (bwait_spec ((bwait u).2.goto .wait2)).2.2
    subst hu
    exact ⟨hkeep.params.trans (kc.params.trans (kb.params.trans (kt.params.trans ks.params))),
      hkeep.requests.trans (kc.requests.trans (kb.requests.trans (kt.requests.trans ks.requests))),
      hkeep.completions.trans (kc.completions.trans (kb.completions.trans (kt.completions.trans ks.completions))),
      hkeep.refused.trans (kc.refused.trans (kb.refused.trans (kt.refused.trans ks.refused))), rfl, rfl, hmsg, fun _ => rfl⟩

/-- From SETOP the engine comes to FINAL on one of the paths. -/
theorem runLabels_setop {n : Nat} {b : Byte} {tx rx : Nat} {m : Message} {s : State} (hpc : s.eng.pc = .setop)
    (hopc : s.eng.opc = some (some b)) (htxc : s.eng.txc = some tx) (hrxc : s.eng.rxc = some rx)
    (hm : s.eng.msg = some m) (hlen : ∀ seg ∈ m.segs, seg.len = seg.buf.length) (hrx : rx = totalLen .recv m.segs)
    (hfit : tx + rx ≤ Config.fifoCapacity) :
    ∃ st m' t k, Executed b tx rx m s st m' t ∧ runLabels (n + 5) s = runLabels (n + k) t := by
  have ks := (setop_spec b s).2
  by_cases hv : s.params.version = .other
  · have h1 : (setop b s).1 = .unsupportedVersion := by rw [(setop_spec b s).1, if_pos hv]
    refine ⟨_, _, _, 4, .unsupported hv, ?_⟩
    refine runLabels_step ?_
    simp only [labelStep, hpc, stepSetop, bind_ok, readReg_ok]
    exact ⟨some b, hopc, by simp [continueWith, h1]⟩
  · have h1 : (setop b s).1 = .success := by rw [(setop_spec b s).1, if_neg hv]
    have kt := (trig_spec ((setop b s).2.goto .trig)).2
    have hv2 : ((setop b s).2.goto .trig).params.version ≠ .other := by
      rw [State.goto_params, ks.params]; exact hv
    have h2 : (trig ((setop b s).2.goto .trig)).1 = .success := by rw [(trig_spec _).1, if_neg hv2]
    have e1 : labelStep s = .ok ((setop b s).2.goto .trig) := by
      simp only [labelStep, hpc, stepSetop, bind_ok, readReg_ok]
      exact ⟨some b, hopc, by simp [continueWith, h1]⟩
    generalize hu : (trig ((setop b s).2.goto .trig)).2.goto .wait1 = u
    have e2 : labelStep ((setop b s).2.goto .trig) = .ok u := by
      simp [labelStep, stepTrig, continueWith, h2, ← hu]
    have up : u.params = s.params := by rw [← hu]; exact kt.params.trans ks.params
    have utx : u.eng.txc = some tx := by rw [← hu]; exact (kt.txc.trans ks.txc).trans htxc
    have urx : u.eng.rxc = some rx := by rw [← hu]; exact (kt.rxc.trans ks.rxc).trans hrxc
    have um : u.eng.msg = some m := by rw [← hu]; exact (kt.msg.trans ks.msg).trans hm
    have upc : u.eng.pc = .wait1 := by rw [← hu]; rfl
    have huv : u.params.version ≠ .other := by rw [up]; exact hv
    have kb := (bwait_spec u).2.2
    have hb := (bwait_spec u).1
    rw [if_neg huv] at hb
    rw [runLabels_step e1, runLabels_step e2]
    rcases hb with hb | hb
    · by_cases hr0 : rx = 0
      · refine ⟨_, _, _, 2, .sent u hv hu.symm hb hr0, runLabels_step ?_⟩
        simp only [labelStep, upc, stepWait1, bind_ok, readReg_ok]
        refine ⟨rx, urx, (bwait u).2.goto .wait2, by simp [continueWith, hb], ?_⟩
        simp only [State.goto_eng_pc, hr0, and_self, if_true, succeed, bind_ok, readReg_ok, pure_ok]
        exact ⟨tx, kb.txc.trans utx, 0, (kb.rxc.trans urx).trans (by rw [hr0]), rfl⟩
      · have e3 : labelStep u = .ok ((bwait u).2.goto .wait2) := by
          simp only [labelStep, upc, stepWait1, bind_ok, readReg_ok]
          exact ⟨rx, urx, (bwait u).2.goto .wait2, by simp [continueWith, hb], by simp [hr0, pure, Except.pure]⟩
        have hv3 : ((bwait u).2.goto .wait2).params.version ≠ .other := by
          rw [State.goto_params, kb.params]; exact huv
        have kc := (bwait_spec ((bwait u).2.goto .wait2)).2.2
        have hc := (bwait_spec ((bwait u).2.goto .wait2)).1
        rw [if_neg hv3] at hc
        rw [runLabels_step e3]
        rcases hc with hc | hc
        · obtain ⟨t, segs', l, d1, d2, d3, d4, -⟩ := drainBytes_spec tx rx 0 m
            ((bwait ((bwait u).2.goto .wait2)).2.goto .drain) ((kc.msg.trans kb.msg).trans um) hlen (by omega) (by omega)
          have e4 : labelStep ((bwait u).2.goto .wait2) = .ok ((bwait ((bwait u).2.goto .wait2)).2.goto .drain) := by
            simp [labelStep, stepWait2, continueWith, hc]
          rw [runLabels_step e4]
          refine ⟨_, _, _, 0, .drained u t segs' hv hu.symm hb hr0 hc d1 d2 d3 d4, runLabels_step ?_⟩
          simp only [labelStep, State.goto_eng_pc, stepDrain, bind_ok, readReg_ok]
          refine ⟨tx, (kc.txc.trans kb.txc).trans utx, rx, (kc.rxc.trans kb.rxc).trans urx, t, d1, ?_⟩
          simp only [succeed, bind_ok, readReg_ok, pure_ok]
          exact ⟨tx, d4.txc.trans ((kc.txc.trans kb.txc).trans utx), rx, d4.rxc.trans ((kc.rxc.trans kb.rxc).trans urx), rfl⟩
        · refine ⟨_, _, _, 1, .timeout2 u hv hu.symm hb hr0 hc, runLabels_step ?_⟩
          simp [labelStep, stepWait2, continueWith, hc]
    · refine ⟨_, _, _, 2, .timeout1 u hv hu.symm hb, runLabels_step ?_⟩
      simp only [labelStep, upc, stepWait1, bind_ok, readReg_ok]
      exact ⟨rx, urx, raiseStatus .timeout (bwait u).2, by simp [continueWith, hb], by simp [raiseStatus, pure, Except.pure]⟩

/-! ### XFER -/

/-- XFER of a message with no send segment: SELECT, LOAD without an access, FINAL, NOTIFY (R184, R186). -/
theorem xfer_none {i : BitVec 8} {segs : List Segment} {s : State} (hpc : s.eng.pc = .idle) (hadm : admits segs = true)
    (hs : firstSend segs = none) :
    ∃ len o, execXfer i segs s = .next (notified { cs := i, segs := segs } .invalidArgument len o
      (finalized (raiseStatus .invalidArgument ((selected i segs s).setRxc (totalLen .recv segs))))) := by
  have kc := cssel_keeps i (startXfer i segs s)
  have e1 : labelStep (startXfer i segs s) = .ok (selected i segs s) := by
    change stepSelect _ = _
    simp only [stepSelect, bind_ok, readMsg_ok, pure_ok]
    exact ⟨{ cs := i, segs := segs }, rfl, rfl⟩
  have e2 : labelStep (selected i segs s) =
      .ok (raiseStatus .invalidArgument ((selected i segs s).setRxc (totalLen .recv segs))) := by
    change stepLoad _ = _
    simp only [stepLoad, bind_ok, readMsg_ok, readReg_ok]
    refine ⟨{ cs := i, segs := segs }, kc.msg, _, loadSegments_none segs 0 _ hs kc.rxc, none, kc.opc, ?_⟩
    rw [Nat.zero_add]; rfl
  obtain ⟨len, o, h, -⟩ := runLabels_final 6 (a := 0)
    (s := raiseStatus .invalidArgument ((selected i segs s).setRxc (totalLen .recv segs))) (st := .invalidArgument)
    (m := { cs := i, segs := segs }) rfl rfl kc.msg (fun h => by simp at h)
  refine ⟨len, o, ?_⟩
  simp only [execXfer, startOp, hpc, if_true, hadm]
  rw [ofRun_next, runLabels_step e1, runLabels_step e2]
  exact h

/-- XFER of an admitted message with a send segment: SELECT, LOAD, PROG, one of the paths to FINAL, NOTIFY. -/
theorem xfer_some {i : BitVec 8} {segs : List Segment} {seg0 : Segment} {s : State} (hpc : s.eng.pc = .idle)
    (hadm : admits segs = true) (hs : firstSend segs = some seg0) :
    ∃ b tx st m t len o, sentBytes segs = b :: tx ∧ tx.length + totalLen .recv segs ≤ Config.fifoCapacity ∧
      Executed b tx.length (totalLen .recv segs) { cs := i, segs := segs }
        (programmed tx.length (totalLen .recv segs) (packed i segs b tx s)) st m t ∧
      execXfer i segs s = .next (notified m st len o (finalized t)) ∧
      (st = .success → len = tx.length + totalLen .recv segs + 1) := by
  have hlen := admits_lengths hadm
  obtain ⟨h0, hcap⟩ := admits_first hadm hs
  have kc := cssel_keeps i (startXfer i segs s)
  have e1 : labelStep (startXfer i segs s) = .ok (selected i segs s) := by
    change stepSelect _ = _
    simp only [stepSelect, bind_ok, readMsg_ok, pure_ok]
    exact ⟨{ cs := i, segs := segs }, rfl, rfl⟩
  obtain ⟨b, tx, hb, hl⟩ := loadSegments_first segs seg0 0 (selected i segs s) hlen hs h0 kc.opc
  rw [loaded_self (s := selected i segs s) kc.cur kc.txc kc.rxc, Nat.zero_add] at hl
  have hsent := totalLen_send_sent hlen
  rw [hb, List.length_cons] at hsent
  have hfit : tx.length + totalLen .recv segs ≤ Config.fifoCapacity := by omega
  have kl := loadWrites_keeps 0 tx (selected i segs s) (by omega)
  have e2 : labelStep (selected i segs s) = .ok (packed i segs b tx s) := by
    change stepLoad _ = _
    simp only [stepLoad, bind_ok, readMsg_ok, readReg_ok]
    exact ⟨{ cs := i, segs := segs }, kc.msg, _, hl, some b, rfl, rfl⟩
  have e3 : labelStep (packed i segs b tx s) =
      .ok (programmed tx.length (totalLen .recv segs) (packed i segs b tx s)) := by
    change stepProg _ = _
    simp only [stepProg, bind_ok, readReg_ok, pure_ok, wr8_legal (port8_offset .txCount),
      wr8_legal (port8_offset .rxCount)]
    exact ⟨tx.length, rfl, totalLen .recv segs, rfl, rfl⟩
  have hm : (packed i segs b tx s).eng.msg = some { cs := i, segs := segs } := kl.msg.trans kc.msg
  obtain ⟨st, m, t, k, hx, hrun⟩ := runLabels_setop (n := 2)
    (s := programmed tx.length (totalLen .recv segs) (packed i segs b tx s)) (b := b) (tx := tx.length)
    (rx := totalLen .recv segs) (m := { cs := i, segs := segs }) rfl rfl rfl rfl hm hlen rfl hfit
  have hf := hx.atFinal (by exact hm)
  obtain ⟨len, o, h, hlen'⟩ := runLabels_final k hf.pc hf.status hf.msg hf.actual
  refine ⟨b, tx, st, m, t, len, o, hb, hfit, hx, ?_, hlen'⟩
  simp only [execXfer, startOp, hpc, if_true, hadm]
  rw [ofRun_next, runLabels_step e1, runLabels_step e2, runLabels_step e3, hrun, Nat.add_comm]
  exact h

end Sys2Proof.Machine
end

