-- ==== Sys2Proof/Laws/Values.lean ====
section
/-! SUPPORT. The register values the read-modify-writes store: CS (R140, R141), CTRL0's opcode field and EXEC (R121, R124),
TRIGGER bit 7 (R125); and the bytes a trigger captures (R223). -/

namespace Sys2Proof.Machine

theorem Memory.bytes_eq_map (m : Memory) (a n : Nat) : m.bytes a n = (List.range n).map (fun j => m.read (a + j)) := by
  apply List.ext_getElem
  · simp [Memory.bytes_length]
  · intro k h1 h2
    simp [Memory.bytes_getElem]

theorem lowByte_eq (v : Word) : v.extractLsb' 0 8 = BitVec.ofNat 8 v.toNat := by
  apply BitVec.eq_of_toNat_eq
  simp

/-- Every bit of the opcode field is storage (R22). -/
theorem lowByte_storage (v : Word) : (v &&& ctrl0Storage).extractLsb' 0 8 = BitVec.ofNat 8 v.toNat := by
  rw [← lowByte_eq]
  apply BitVec.eq_of_getLsbD_eq
  intro i hi
  have : ctrl0Storage.getLsbD i = true := by interval_cases i <;> rfl
  simp [this]

theorem csIndex_toNat (i : Byte) : (csIndex i).toNat = i.toNat % 4 := by
  revert i
  decide +kernel

/-- What CSSEL stores: the index modulo 4 in bits 1:0, bits 7:2 as they were (R140). -/
theorem select_value (x i : Byte) :
    (setClear x (csIndex i) csMask).toNat % 4 = i.toNat % 4 ∧ (setClear x (csIndex i) csMask).toNat / 4 = x.toNat / 4 := by
  have hk : ∀ n, n < 4 → (setClear x (BitVec.ofNat 8 n) csMask).toNat % 4 = n ∧
      (setClear x (BitVec.ofNat 8 n) csMask).toNat / 4 = x.toNat / 4 := by
    intro n hn
    interval_cases n <;> (revert x; decide +kernel)
  have := hk (csIndex i).toNat (by rw [csIndex_toNat]; omega)
  rw [← csIndex_toNat i]
  simpa only [BitVec.ofNat_toNat, BitVec.setWidth_eq] using this

/-- What CSDESEL stores (R141). -/
theorem deselect_value (x : Byte) : (x &&& ~~~csMask).toNat % 4 = 0 ∧ (x &&& ~~~csMask).toNat / 4 = x.toNat / 4 := by
  revert x
  decide +kernel

/-- What SETOP stores in Variant A: the opcode in the low byte, every other bit as it was, and so no EXEC and no FIFO_CLEAR
(R121). -/
theorem opcode_value (x : Word) (b : Byte) (h : x &&& ctrl0Storage = x) :
    (setClear x (b.setWidth 32) opcodeMask)[16] = false ∧ (setClear x (b.setWidth 32) opcodeMask)[20] = false ∧
    setClear x (b.setWidth 32) opcodeMask &&& ctrl0Storage = setClear x (b.setWidth 32) opcodeMask ∧
    BitVec.ofNat 8 (setClear x (b.setWidth 32) opcodeMask).toNat = b ∧
    ∀ k, 8 ≤ k → (setClear x (b.setWidth 32) opcodeMask).getLsbD k = x.getLsbD k := by
  have hx : ∀ i, (x.getLsbD i && ctrl0Storage.getLsbD i) = x.getLsbD i := fun i => by
    rw [← BitVec.getLsbD_and, h]
  have hk : ∀ k, 8 ≤ k → (setClear x (b.setWidth 32) opcodeMask).getLsbD k = x.getLsbD k := by
    intro k hk
    by_cases hk32 : k < 32
    · have : opcodeMask.getLsbD k = false := by interval_cases k <;> rfl
      simp only [setClear, BitVec.getLsbD_or, BitVec.getLsbD_and, BitVec.getLsbD_not, this, BitVec.getLsbD_setWidth,
        BitVec.getLsbD_of_ge b k hk]
      simp [hk32]
    · simp [BitVec.getLsbD_of_ge, Nat.not_lt.1 hk32]
  have h16 := hx 16
  have h20 := hx 20
  rw [show ctrl0Storage.getLsbD 16 = false from rfl] at h16
  rw [show ctrl0Storage.getLsbD 20 = false from rfl] at h20
  refine ⟨?_, ?_, ctrl0_opcode_mask x b h, ?_, hk⟩
  · change BitVec.getLsbD _ 16 = false
    rw [hk 16 (by omega), ← h16]
    simp
  · change BitVec.getLsbD _ 20 = false
    rw [hk 20 (by omega), ← h20]
    simp
  · rw [← lowByte_eq]
    apply BitVec.eq_of_getLsbD_eq
    intro i hi
    have : opcodeMask.getLsbD i = true := by interval_cases i <;> rfl
    simp [setClear, hi, this]
    omega

/-- What TRIG writes in Variant A: CTRL0's storage bits and EXEC (R124). -/
theorem exec_value (x : Word) (h : x &&& ctrl0Storage = x) :
    setClear x execBit execBit = x ||| execBit ∧ (x ||| execBit)[16] = true ∧ (x ||| execBit)[20] = false ∧
    (x ||| execBit) &&& ctrl0Storage = x := by
  have h20 : x[20] = false := by
    have : (x &&& ctrl0Storage)[20] = false := by simp [show ctrl0Storage[20] = false from rfl]
    rw [← h]
    exact this
  refine ⟨?_, ?_, ?_, ?_⟩
  · simp only [setClear]
    apply BitVec.eq_of_getLsbD_eq
    intro i hi
    simp only [BitVec.getLsbD_or, BitVec.getLsbD_and, BitVec.getLsbD_not]
    cases x.getLsbD i <;> cases execBit.getLsbD i <;> simp [hi]
  · simp [show execBit[16] = true from rfl]
  · rw [BitVec.getElem_or, h20]
    rfl
  · rw [BitVec.and_or_distrib_right, h]
    simp [show execBit &&& ctrl0Storage = 0#32 from rfl]

/-- What TRIG writes in Variant B: TRIGGER's stored bits and bit 7 (R125). -/
theorem trigger_value (x : Byte) : setClear x triggerBit triggerBit = x ||| triggerBit := by
  simp only [setClear]
  apply BitVec.eq_of_getLsbD_eq
  intro i hi
  simp only [BitVec.getLsbD_or, BitVec.getLsbD_and, BitVec.getLsbD_not]
  cases x.getLsbD i <;> cases triggerBit.getLsbD i <;> simp [hi]

/-- What a read-modify-write of CTRL0 that read `v` writes when the stale bits are without effect (R310): bits 16 and 20 are
those set, and the storage bits are R108's. -/
theorem writeBack_ctrl0 (v a k : Word) :
    (setClear (v &&& ~~~Reg32.ctrl0.selfClearing) a k)[16] = a[16] ∧
    (setClear (v &&& ~~~Reg32.ctrl0.selfClearing) a k)[20] = a[20] ∧
    setClear (v &&& ~~~Reg32.ctrl0.selfClearing) a k &&& ctrl0Storage = setClear v a k &&& ctrl0Storage := by
  have h16 : Reg32.ctrl0.selfClearing[16] = true := rfl
  have h20 : Reg32.ctrl0.selfClearing[20] = true := rfl
  refine ⟨by simp [setClear, h16], by simp [setClear, h20], ?_⟩
  have hm : ∀ i < 32, (Reg32.ctrl0.selfClearing.getLsbD i && ctrl0Storage.getLsbD i) = false := by decide
  apply BitVec.eq_of_getLsbD_eq
  intro i hi
  have := hm i hi
  generalize ctrl0Storage = c at this ⊢
  generalize Reg32.ctrl0.selfClearing = m at this ⊢
  simp only [setClear, BitVec.getLsbD_and, BitVec.getLsbD_or, BitVec.getLsbD_not]
  cases hx : m.getLsbD i <;> cases hy : c.getLsbD i <;> simp_all

/-- What a read-modify-write of TRIGGER that read `v` writes when a stale bit is without effect (R310): bit 7 is the one set,
and bits 6:0 are R107's. -/
theorem writeBack_trigger (v a k : Byte) :
    (setClear (v &&& ~~~Reg8.trigger.selfClearing) a k)[7] = a[7] ∧
    (setClear (v &&& ~~~Reg8.trigger.selfClearing) a k).setWidth 7 = (setClear v a k).setWidth 7 := by
  have h7 : Reg8.trigger.selfClearing[7] = true := rfl
  refine ⟨by simp [setClear, h7], ?_⟩
  have hm : ∀ i < 7, Reg8.trigger.selfClearing.getLsbD i = false := by decide
  apply BitVec.eq_of_getLsbD_eq
  intro i hi
  have := hm i hi
  simp only [setClear, BitVec.getLsbD_setWidth, BitVec.getLsbD_and, BitVec.getLsbD_or, BitVec.getLsbD_not, this]
  simp [show i < 8 by omega]

/-- A value of CTRL0 that holds storage bits only has no stale bit (R23, R24). -/
theorem storage_noStale {x : Word} (h : x &&& ctrl0Storage = x) : x &&& ~~~Reg32.ctrl0.selfClearing = x := by
  have : ctrl0Storage &&& ~~~Reg32.ctrl0.selfClearing = ctrl0Storage := by decide
  rw [← h, BitVec.and_assoc, this]

end Sys2Proof.Machine
end

