-- ==== Sys2Proof/Laws/Exchange.lean ====
section
/-! SUPPORT. One transaction from the trigger to the end of the message: what the device's own steps keep of the registers
and add to the event log (R220 to R231), and what a wait, DRAIN and the deselect leave of that. -/

namespace Sys2Proof.Machine

/-! ### Completion -/

/-- What no step of the device changes of its registers (R230). -/
structure SameRegisters (p : Params) (d0 d : Device) : Prop where
  cs : d.cs = d0.cs
  trigger : d.trigger = d0.trigger
  cleared : d.fifoPtrCleared = d0.fifoPtrCleared
  ctrl0High : ∀ k, 8 ≤ k → d.ctrl0.getLsbD k = d0.ctrl0.getLsbD k
  ctrl0 : p.version = .b → d.ctrl0 = d0.ctrl0
  opcode : p.version = .a → d.opcode = d0.opcode

theorem SameRegisters.refl (p : Params) (d : Device) : SameRegisters p d d :=
  ⟨rfl, rfl, rfl, fun _ _ => rfl, fun _ => rfl, fun _ => rfl⟩

theorem SameRegisters.trans {p : Params} {a b c : Device} (h : SameRegisters p a b) (g : SameRegisters p b c) :
    SameRegisters p a c :=
  ⟨g.cs.trans h.cs, g.trigger.trans h.trigger, g.cleared.trans h.cleared,
    fun k hk => (g.ctrl0High k hk).trans (h.ctrl0High k hk), fun e => (g.ctrl0 e).trans (h.ctrl0 e),
    fun e => (g.opcode e).trans (h.opcode e)⟩

theorem completeTxn_same (p : Params) (d : Device) (o : Oracle) (x : Txn) : SameRegisters p d (completeTxn p x d o).1 := by
  refine ⟨rfl, rfl, rfl, fun k hk => ?_, fun h => by simp [completeTxn, h], fun h => by simp [completeTxn, h]⟩
  simp only [completeTxn]
  split
  · by_cases h : k < 32
    · have : opcodeMask.getLsbD k = false := by interval_cases k <;> rfl
      rw [BitVec.getLsbD_or, BitVec.getLsbD_and, BitVec.getLsbD_not, this, BitVec.getLsbD_setWidth,
        BitVec.getLsbD_of_ge _ _ hk]
      simp [h]
    · simp [BitVec.getLsbD_of_ge, Nat.not_lt.1 h]
  · rfl

theorem deviceMove_same (p : Params) (n : Nat) (d : Device) (o : Oracle) : SameRegisters p d (deviceMove p n d o).1 := by
  rcases deviceMove_cases p n d o with ⟨_, e⟩ | ⟨t, _, e⟩ | ⟨t, _, _, _, e⟩ | ⟨t, _, e⟩ <;> rw [e]
  · exact .refl p d
  · exact completeTxn_same p d o t
  all_goals exact ⟨rfl, rfl, rfl, fun _ _ => rfl, fun _ => rfl, fun _ => rfl⟩

/-- Without havoc a turn of the device keeps them (R220, R230). -/
theorem deviceTurn_same {p : Params} {d : Device} (hh : d.havoc = false) (o : Oracle) :
    SameRegisters p d (deviceTurn p d o).1 :=
  (deviceTurn_keeps (fun d' => d'.havoc = false ∧ SameRegisters p d d') p
    (fun n d' o hh' h => ⟨(deviceMove_havoc p n d' o).trans hh', h.2.trans (deviceMove_same p n d' o)⟩)
    (fun n d' h h' => by rw [h] at h'; exact absurd h'.1 (by simp)) d o ⟨hh, .refl p d⟩).2

/-- What a completed transaction leaves (R230, R231). -/
theorem completeTxn_spec (p : Params) (d : Device) (o : Oracle) {x : Txn} (hx : x.fits) :
    ∃ rxb : List Byte, rxb.length = x.rx ∧
      (completeTxn p x d o).1.fifo.bytes (Config.fifoBase + x.tx) x.rx = rxb ∧
      (completeTxn p x d o).1.events = d.events ++ [.done x.cs x.op x.txbytes x.rx rxb] := by
  have hfit := hx.2
  refine ⟨(o.bytes x.rx).1, Oracle.bytes_length _ _, ?_, rfl⟩
  · refine List.ext_getElem (by rw [Memory.bytes_length, Oracle.bytes_length]) fun k h1 h2 => ?_
    rw [Oracle.bytes_length] at h2
    rw [Memory.bytes_getElem]
    simp only [completeTxn]
    have hl := Oracle.bytes_length x.tx (o.bytes x.rx).2
    have hr := Oracle.bytes_length x.rx o
    rw [Nat.add_assoc, Memory.read_ofBytes _ _ _ (by simp only [List.length_take, List.length_append, hl, hr]; omega),
      List.getElem_take, List.getElem_append_left (by simp only [List.length_append, hl, hr]; omega),
      List.getElem_append_right (by omega)]
    congr 1
    omega

/-! ### From the trigger on -/

/-- The device somewhere after the trigger of `x`, which left the events `ev` and the registers of `d0`: still in the
transaction, or `IDLE` with its Done event recorded and its received bytes in the FIFO. -/
structure AfterTrigger (p : Params) (x : Txn) (ev : List Event) (d0 d : Device) : Prop where
  noHavoc : d.havoc = false
  same : SameRegisters p d0 d
  progress : (d.events = ev ∧ (d.phase = .tx x ∨ (d.phase = .gap x ∧ p.rxGapAdmitted = true) ∨ d.phase = .rx x)) ∨
    (d.phase = .idle ∧ ∃ rxb : List Byte, rxb.length = x.rx ∧ d.events = ev ++ [.done x.cs x.op x.txbytes x.rx rxb] ∧
      d.fifo.bytes (Config.fifoBase + x.tx) x.rx = rxb)

theorem deviceTurn_afterTrigger {p : Params} {x : Txn} {ev : List Event} {d0 d : Device} (hx : x.fits)
    (h : AfterTrigger p x ev d0 d) (o : Oracle) : AfterTrigger p x ev d0 (deviceTurn p d o).1 := by
  refine deviceTurn_keeps (AfterTrigger p x ev d0) p ?_
    (fun n d hh h => by have := h.noHavoc; rw [hh] at this; simp at this) d o h
  intro n d o hh h
  have f := h.same
  have moved : ∀ ph : Phase, d.events = ev → (ph = .gap x ∧ p.rxGapAdmitted = true ∨ ph = .rx x) →
      AfterTrigger p x ev d0 { d with phase := ph } := fun ph he hp =>
    ⟨hh, ⟨f.cs, f.trigger, f.cleared, f.ctrl0High, f.ctrl0, f.opcode⟩, .inl ⟨he, .inr hp⟩⟩
  have inTxn : ∀ t, d.phase.txn = some t → t = x ∧ d.events = ev := by
    intro t ht
    rcases h.progress with ⟨he, hp | ⟨hp, _⟩ | hp⟩ | ⟨hp, _⟩ <;> rw [hp] at ht <;> simp [Phase.txn] at ht
    all_goals exact ⟨ht.symm, he⟩
  rcases deviceMove_cases p n d o with ⟨hp, e⟩ | ⟨t, ht, e⟩ | ⟨t, ht, _, hg, e⟩ | ⟨t, ht, e⟩ <;> rw [e]
  · exact h
  · obtain ⟨rfl, he⟩ := inTxn t (by rcases ht with ⟨ht, _⟩ | ht <;> simp [ht, Phase.txn])
    obtain ⟨rxb, h1, h2, h3⟩ := completeTxn_spec p d o hx
    exact ⟨hh, f.trans (completeTxn_same p d o t), .inr ⟨rfl, rxb, h1, by rw [h3, he], h2⟩⟩
  · obtain ⟨rfl, he⟩ := inTxn t (by simp [ht, Phase.txn])
    exact moved _ he (.inl ⟨rfl, hg⟩)
  · obtain ⟨rfl, he⟩ := inTxn t (by rcases ht with ⟨ht, _⟩ | ht <;> simp [ht, Phase.txn])
    exact moved _ he (.inr rfl)

/-! ### The waits, DRAIN and the deselect -/

/-- A wait that succeeds on a known variant without havoc leaves the device not busy (R41, R160). -/
theorem bwait_success {s : State} (hv : s.params.version ≠ .other) (hh : s.dev.havoc = false) (h : (bwait s).1 = .success) :
    (bwait s).2.dev.phase.busy = false := by
  obtain ⟨r, hr⟩ : ∃ r, busyLocation s.params.version = .ok r := by
    rcases hvv : s.params.version with _ | _ | _
    · exact ⟨_, rfl⟩
    · exact ⟨_, rfl⟩
    · exact absurd hvv hv
  obtain ⟨l, v, m, hw, -⟩ := pollLoop_reads r 100001 0 ((s.setNpoll 0).setElapsed 0) rfl rfl
  have e : bwait s = endOp (pollLoop r Config.maxBusyReads 0 ((s.setNpoll 0).setElapsed 0)).1
      (pollLoop r Config.maxBusyReads 0 ((s.setNpoll 0).setElapsed 0)).2 := by simp only [bwait, hr]
  rw [e] at h ⊢
  simp only [endOp, State.setRes_dev] at h ⊢
  change (pollLoop r (100001 + 1) 0 ((s.setNpoll 0).setElapsed 0)).1 = _ at h
  change (pollLoop r (100001 + 1) 0 ((s.setNpoll 0).setElapsed 0)).2.dev.phase.busy = _
  rw [hw.status] at h
  have hv31 : v[31] = false := by
    by_contra hc
    simp only [Bool.not_eq_false] at hc
    simp [hc] at h
  obtain ⟨o, ho⟩ := hw.value
  have hh2 : (pollLoop r (100001 + 1) 0 ((s.setNpoll 0).setElapsed 0)).2.dev.havoc = false := hw.havoc.trans hh
  rw [show ((s.setNpoll 0).setElapsed 0).params = s.params from rfl, devRead32_known hv hh2] at ho
  rcases hvv : s.params.version with _ | _ | _ <;> simp only [busyLocation, hvv, Except.ok.injEq] at hr
  · subst hr
    obtain ⟨ex, bu, o', e', -, g, -⟩ := ctrl0Read_spec s.params
      (pollLoop .ctrl0 (100001 + 1) 0 ((s.setNpoll 0).setElapsed 0)).2.dev o
    rw [ho] at hv31
    simp only [e', (ctrl0Value_bits _ _ _).2.2.2] at hv31
    rw [← g hvv]
    exact hv31
  · subst hr
    rw [ho] at hv31
    simpa only [statusRead_busy hvv] using hv31
  · exact absurd hvv hv

/-- A property of the device kept by its turn, and held at WAIT1, is held at FINAL: from the trigger on the engine only reads
(R188, R189). -/
theorem Executed.keeps_dev (P : Device → Prop) {b : Byte} {tx rx : Nat} {m m' : Message} {s t : State} {st : Status}
    (hturn : ∀ d o, P d → P (deviceTurn s.params d o).1) (hv : s.params.version ≠ .other)
    (h : Executed b tx rx m s st m' t) (hP : P (trig ((setop b s).2.goto .trig)).2.dev) : P t.dev := by
  generalize hu : (trig ((setop b s).2.goto .trig)).2.goto .wait1 = u
  have hPu : P u.dev := by rw [← hu]; exact hP
  have up : u.params = s.params := by
    rw [← hu]
    exact (trig_spec ((setop b s).2.goto .trig)).2.params.trans (setop_spec b s).2.params
  have h1 : P (bwait u).2.dev := bwait_keeps_dev P u (by rw [up]; exact hturn) hPu
  have p1 : ((bwait u).2.goto .wait2).params = s.params := (bwait_spec u).2.2.params.trans up
  have h2 : P (bwait ((bwait u).2.goto .wait2)).2.dev := bwait_keeps_dev P _ (by rw [p1]; exact hturn) h1
  have p2 : ((bwait ((bwait u).2.goto .wait2)).2.goto .drain).params = s.params :=
    (bwait_spec ((bwait u).2.goto .wait2)).2.2.params.trans p1
  cases h with
  | unsupported h => exact absurd h hv
  | timeout1 u' _ hu' _ => rw [hu] at hu'; subst hu'; exact h1
  | sent u' _ hu' => rw [hu] at hu'; subst hu'; exact h1
  | timeout2 u' _ hu' => rw [hu] at hu'; subst hu'; exact h2
  | drained u' t' segs' _ hu' _ _ _ hd =>
    rw [hu] at hu'
    subst hu'
    exact drainBytes_keeps_dev P tx rx 0 (s := (bwait ((bwait u').2.goto .wait2)).2.goto .drain) (t := t')
      (by rw [p2]; exact hturn) h2 hd

/-- CSDESEL of a device at rest (R141). -/
theorem csdesel_rest {s : State} (hh : s.dev.havoc = false) (hi : s.dev.phase = .idle) (hv : s.params.version ≠ .other) :
    csdesel s =
      { s with
          dev := { s.dev with cs := s.dev.cs &&& ~~~csMask }
          eng := { s.eng with res := some 0#32 }
          trace := s.trace ++ [.rd8 0x1D s.dev.cs, .wr8 0x1D (s.dev.cs &&& ~~~csMask)] } := by
  have hr : devRead8 s.params s.dev .cs s.oracle = (s.dev.cs, s.oracle) := by simp [devRead8, hv, hh]
  simp only [csdesel]
  rw [portRead8_rest hh hi, hr, portWrite8_rest (by exact hh) (by exact hi)]
  simp [devWrite8, State.setRes, hv, hh, hi, Phase.isIdle, endOp, Status.code, Reg8.offset]

/-- CSSEL of a device at rest (R140). -/
theorem cssel_rest (i : BitVec 8) {s : State} (hh : s.dev.havoc = false) (hi : s.dev.phase = .idle)
    (hv : s.params.version ≠ .other) :
    cssel i s =
      { s with
          dev := { s.dev with cs := setClear s.dev.cs (csIndex i) csMask }
          eng := { s.eng with res := some 0#32 }
          trace := s.trace ++ [.rd8 0x1D s.dev.cs, .wr8 0x1D (setClear s.dev.cs (csIndex i) csMask)] } := by
  have hr : devRead8 s.params s.dev .cs s.oracle = (s.dev.cs, s.oracle) := by simp [devRead8, hv, hh]
  rw [cssel, sc8_plain (port8_offset .cs) (by simp), portRead8_rest hh hi, hr, portWrite8_rest (by exact hh) (by exact hi)]
  simp [devWrite8, State.setRes, hv, hh, hi, Phase.isIdle, endOp, Status.code, Reg8.offset]

/-- LOAD's writes to a device at rest: the bytes in order in the FIFO, the cells before them as they were (R185). -/
theorem loadWrites_rest (n : Nat) (bs : List Byte) (s : State) (hh : s.dev.havoc = false) (hi : s.dev.phase = .idle)
    (hv : s.params.version ≠ .other) (hf : s.dev.fifo.wf) (hn : n + bs.length ≤ Config.fifoCapacity) :
    ∃ f : Memory, (loadWrites n bs s).dev = { s.dev with fifo := f } ∧ (loadWrites n bs s).params = s.params ∧ f.wf ∧
      (∀ k (hk : k < bs.length), f.read (Config.fifoBase + n + k) = bs[k]) ∧
      (∀ a, a < Config.fifoBase + n → f.read a = s.dev.fifo.read a) := by
  induction bs generalizing n s with
  | nil => exact ⟨s.dev.fifo, rfl, rfl, hf, fun k hk => by simp at hk, fun _ _ => rfl⟩
  | cons b rest ih =>
    rw [List.length_cons] at hn
    have hc : n < Config.fifoCapacity := by omega
    rw [loadWrites, wr8_legal (port8_fifo hc)]
    have h1 : (portWrite8 (.fifo ⟨n, hc⟩) b s).dev =
        { s.dev with fifo := s.dev.fifo.write (Config.fifoBase + n) b } := by
      rw [portWrite8_rest hh hi]
      simp [devWrite8, hh, hi, hv, Phase.isIdle]
    have h2 : (portWrite8 (.fifo ⟨n, hc⟩) b s).params = s.params := rfl
    generalize portWrite8 (.fifo ⟨n, hc⟩) b s = u at *
    have hw : (s.dev.fifo.write (Config.fifoBase + n) b).wf := Memory.write_wf hf (by omega)
    obtain ⟨f, g1, g2, g3, g4, g5⟩ := ih (n + 1) u (by rw [h1]; exact hh) (by rw [h1]; exact hi) (by rw [h2]; exact hv)
      (by rw [h1]; exact hw) (by omega)
    refine ⟨f, by rw [g1, h1], g2.trans h2, g3, ?_, ?_⟩
    · intro k hk
      rcases k with _ | k
      · rw [g5 _ (by omega), h1]
        exact Memory.read_write_same _ _ _ hf.1
      · have := g4 k (by simpa using hk)
        rw [show Config.fifoBase + n + (k + 1) = Config.fifoBase + (n + 1) + k by omega, this]
        rfl
    · intro a ha
      rw [g5 a (by omega), h1]
      exact Memory.read_write_other _ _ _ _ (by omega)

end Sys2Proof.Machine
end

