-- ==== Sys2Proof/Laws/PerInstr.lean ====
section
/-! SUPPORT. Of every operation: its word is one its own row of the opcode table matches (R83). -/

/-- The row of spec/opcode_table.json an operation is of: its mask and its match. -/
def Sys2Proof.Laws.TableRow.row : Sys2Proof.Instr → Nat × Nat
  | .rd8 _ => (0xFF00, 0x0000)
  | .wr8 _ _ => (0xFF00, 0x1000)
  | .rd32 _ => (0xFF00, 0x2000)
  | .wr32 _ _ => (0xFF00, 0x3000)
  | .sc8 _ _ _ => (0xFF00, 0x4000)
  | .sc32 _ _ _ => (0xFF00, 0x5000)
  | .setup => (0xFFFF, 0x8000)
  | .setop _ => (0xFF00, 0x9000)
  | .trig => (0xFFFF, 0xA000)
  | .bwait => (0xFFFF, 0xB000)
  | .cssel _ => (0xFF00, 0xC000)
  | .csdesel _ => (0xFF00, 0xD000)
  | .xfer _ _ => (0xFF00, 0xE000)

/-- The word of an operation has its row's fixed bits. -/
def Sys2Proof.Laws.TableRow.Statement (i : Sys2Proof.Instr) : Prop :=
  (Sys2Proof.encode i).word &&& BitVec.ofNat 16 (Sys2Proof.Laws.TableRow.row i).1 =
    BitVec.ofNat 16 (Sys2Proof.Laws.TableRow.row i).2

namespace Sys2Proof.Laws.TableRow

open Sys2Proof

/-- The fixed bits of a word with a free immediate are its upper byte. -/
theorem opWord_and (op : BitVec 4) (imm : BitVec 8) :
    opWord op imm &&& 0xFF00#16 = BitVec.ofNat 16 (op.toNat * 4096) := by
  have hm : ∀ i : BitVec 8, ((0#8 ++ i : BitVec 16)) &&& 0xFF00#16 = 0#16 := by decide +kernel
  have h : opWord op imm = (op ++ 0#12 : BitVec 16) ||| (0#8 ++ imm : BitVec 16) := by
    apply BitVec.eq_of_getLsbD_eq
    intro i hi
    simp only [opWord, BitVec.getLsbD_or, BitVec.getLsbD_append]
    rcases Nat.lt_or_ge i 8 with h8 | h8
    · simp [h8, Nat.lt_of_lt_of_le h8 (by decide : 8 ≤ 12)]
    · rcases Nat.lt_or_ge i 12 with h12 | h12
      · simp [h12, Nat.not_lt.2 h8, show i - 8 < 4 by omega]
      · simp [Nat.not_lt.2 h8, Nat.not_lt.2 h12, show ¬ i - 8 < 4 by omega, show i - 8 - 4 = i - 12 by omega]
  rw [h, BitVec.or_comm, BitVec.and_or_distrib_right, hm, BitVec.zero_or]
  clear h
  revert op
  decide

theorem rd8 (off : BitVec 8) : Statement (.rd8 off) := opWord_and 0x0#4 off
theorem wr8 (off : BitVec 8) (v : Byte) : Statement (.wr8 off v) := opWord_and 0x1#4 off
theorem rd32 (off : BitVec 8) : Statement (.rd32 off) := opWord_and 0x2#4 off
theorem wr32 (off : BitVec 8) (v : Word) : Statement (.wr32 off v) := opWord_and 0x3#4 off
theorem sc8 (off : BitVec 8) (a c : Byte) : Statement (.sc8 off a c) := opWord_and 0x4#4 off
theorem sc32 (off : BitVec 8) (a c : Word) : Statement (.sc32 off a c) := opWord_and 0x5#4 off
theorem setup : Statement .setup := rfl
theorem setop (b : Byte) : Statement (.setop b) := opWord_and 0x9#4 b
theorem trig : Statement .trig := rfl
theorem bwait : Statement .bwait := rfl
theorem cssel (i : BitVec 8) : Statement (.cssel i) := opWord_and 0xC#4 i
theorem csdesel (i : BitVec 8) : Statement (.csdesel i) := opWord_and 0xD#4 i
theorem xfer (i : BitVec 8) (segs : List Segment) : Statement (.xfer i segs) := opWord_and 0xE#4 i

end Sys2Proof.Laws.TableRow
end

