-- ==== Sys2Proof/Laws/Statements.lean ====
section
/-! SUPPORT. The statements' own words beside the model's: the legal ports (R86) and the admitted messages (R182). -/

namespace Sys2Proof

open Machine

theorem Claim.legal8_iff (off : BitVec 8) : Claim.legal8 off ↔ (port8 off.toNat).isSome = true := by
  rw [port8_isSome]
  unfold Claim.legal8
  simp only [BitVec.le_def, ← BitVec.toNat_inj]
  simp

theorem Claim.legal32_iff (off : BitVec 8) : Claim.legal32 off ↔ (port32 off.toNat).isSome = true := by
  rw [port32_isSome]
  unfold Claim.legal32
  simp only [← BitVec.toNat_inj]
  simp

theorem Claim.rxLen_eq (segs : List Segment) : Claim.rxLen segs = totalLen .recv segs := by
  induction segs with
  | nil => rfl
  | cons seg rest ih =>
    unfold Claim.rxLen at *
    rcases hd : seg.dir with _ | _ <;> simp [totalLen, hd, ih]

/-- The transmit sum of R182. -/
theorem Claim.sendSum_eq (segs : List Segment) :
    ((segs.filter (fun seg => decide (seg.dir = .send))).map (fun seg => seg.len)).sum = totalLen .send segs := by
  induction segs with
  | nil => rfl
  | cons seg rest ih =>
    rcases hd : seg.dir with _ | _ <;> simp [totalLen, hd, ih]

theorem Claim.hasSend_iff (segs : List Segment) : Claim.hasSend segs ↔ ∃ x, firstSend segs = some x := by
  induction segs with
  | nil => simp [Claim.hasSend, firstSend]
  | cons seg rest ih =>
    unfold Claim.hasSend at *
    rcases hd : seg.dir with _ | _
    · simp [firstSend, hd]
    · simp [firstSend, hd, ← ih]

/-- The first ground of R182. -/
theorem Claim.emptyOpcode_iff (segs : List Segment) :
    (∃ pre seg post, segs = pre ++ seg :: post ∧ seg.dir = .send ∧ seg.len = 0 ∧
    ∀ x ∈ pre, x.dir = .send → x.len = 0) ↔ ∃ x, firstSend segs = some x ∧ x.len = 0 := by
  induction segs with
  | nil => simp [firstSend]
  | cons seg rest ih =>
    rcases hd : seg.dir with _ | _
    · simp only [firstSend, hd, if_true, Option.some.injEq, exists_eq_left']
      constructor
      · rintro ⟨pre, x, post, h, h1, h2, h3⟩
        rcases pre with _ | ⟨p, pre⟩
        · simp at h; rw [h.1]; exact h2
        · simp at h; rw [h.1] at hd ⊢; exact h3 p (by simp) hd
      · intro h; exact ⟨[], seg, rest, rfl, hd, h, by simp⟩
    · simp only [firstSend, hd]
      simp only [reduceCtorEq, if_false]
      rw [← ih]
      constructor
      · rintro ⟨pre, x, post, h, h1, h2, h3⟩
        rcases pre with _ | ⟨p, pre⟩
        · simp at h; rw [← h.1, hd] at h1; simp at h1
        · simp at h; exact ⟨pre, x, post, h.2, h1, h2, fun y hy => h3 y (by simp [hy])⟩
      · rintro ⟨pre, x, post, h, h1, h2, h3⟩
        refine ⟨seg :: pre, x, post, by simp [h], h1, h2, ?_⟩
        intro y hy hys
        rcases List.mem_cons.1 hy with rfl | hy
        · rw [hd] at hys; simp at hys
        · exact h3 y hy hys

/-- The grounds of R182 are what admission checks. -/
theorem Claim.inadmissible_iff (segs : List Segment) : Claim.inadmissible segs ↔ admits segs = false := by
  unfold Claim.inadmissible
  rw [Claim.emptyOpcode_iff, Claim.hasSend_iff, Claim.sendSum_eq, Claim.rxLen_eq]
  rcases hf : firstSend segs with _ | x
  · simp [admits, hf]
  · simp only [admits, hf, Option.some.injEq, exists_eq_left', exists_eq', true_and]
    rw [Bool.and_eq_false_iff, Bool.and_eq_false_iff]
    simp only [List.all_eq_false, beq_iff_eq, bne_eq_false_iff_eq, decide_eq_false_iff_not, not_le, Config.fifoCapacity]
    constructor
    · rintro (h | h | ⟨y, hy, h⟩)
      · exact .inr (.inl h)
      · exact .inr (.inr h)
      · exact .inl ⟨y, hy, h⟩
    · rintro (⟨y, hy, h⟩ | h | h)
      · exact .inr (.inr ⟨y, hy, h⟩)
      · exact .inl h
      · exact .inr (.inl h)

end Sys2Proof
end

