-- ==== Sys2Proof/Tests/Slice0.lean ====
section
/-! SUPPORT. The model's own tests: words written out from 30_encoding.md, the checks of WellFormed on ill-formed terms, the
vectors of 95_test_vectors.md (each test names its vector), and for each statement a witness of its hypotheses. -/

namespace Sys2Proof.Tests

open Sys2Proof Machine

/-! ## Small states -/

/-- The vectors' start state: reset draws 0, SETUP made, EXACT, the gap admitted, and the given free choices. -/
def start (v : Version) (tape : List Nat) : State :=
  let s := State.construct { version := v, pollTiming := .exact, rxGapAdmitted := true } ResetDraws.zero
  { s with dev := { s.dev with fifoPtrCleared := true }, oracle := { tape := tape, used := 0 } }

/-- `start` with a device of one's own. -/
def startWith (v : Version) (tape : List Nat) (f : Device → Device) : State :=
  { start v tape with dev := f (start v tape).dev }

/-- A transaction with `rx` receive bytes. -/
def txn (rx : Nat) : Txn := { cs := 0#2, op := 0x03#8, tx := 0, rx := rx, txbytes := [] }

/-- A device in `TX`. -/
def running (v : Version) (rx : Nat) (tape : List Nat) : State := startWith v tape (fun d => { d with phase := .tx (txn rx) })

/-- What a next state satisfies; false of a fault and of a refusal. -/
def after (o : Host.Outcome State Fault Refusal) (f : State → Bool) : Bool :=
  match o with
  | .next t => f t
  | .fault _ => false
  | .refused _ => false

theorem after_next {o : Host.Outcome State Fault Refusal} {f : State → Bool} (h : after o f = true) :
    ∃ t, o = .next t ∧ f t = true := by
  cases o with
  | next t => exact ⟨t, rfl, h⟩
  | fault _ => simp [after] at h
  | refused _ => simp [after] at h

/-- Send segment. -/
def S (l : List Byte) : Segment := { dir := .send, len := l.length, buf := l }

/-- Receive segment, its buffer full of 0. -/
def R (n : Nat) : Segment := { dir := .recv, len := n, buf := List.replicate n 0#8 }

/-! ## Decoding: words written out bit by bit from R81 and R83 -/

theorem test_decode_rd8 : decode ⟨0b0000_0000_00011101#16, .empty⟩ = .ok (.rd8 0x1D#8) := by decide
theorem test_decode_wr8 : decode ⟨0b0001_0000_10000000#16, .byte 0xAA#8⟩ = .ok (.wr8 0x80#8 0xAA#8) := by decide
theorem test_decode_rd32 : decode ⟨0b0010_0000_01001100#16, .empty⟩ = .ok (.rd32 0x4C#8) := by decide
theorem test_decode_wr32 :
    decode ⟨0b0011_0000_00000000#16, .word 0x00010042#32⟩ = .ok (.wr32 0x00#8 0x00010042#32) := by decide
theorem test_decode_sc8 :
    decode ⟨0b0100_0000_00011101#16, .setClear8 0x01#8 0x03#8⟩ = .ok (.sc8 0x1D#8 0x01#8 0x03#8) := by decide
theorem test_decode_sc32 :
    decode ⟨0b0101_0000_00000000#16, .setClear32 0x00010000#32 0x00100000#32⟩ =
      .ok (.sc32 0x00#8 0x00010000#32 0x00100000#32) := by decide
theorem test_decode_setup : decode ⟨0b1000_0000_00000000#16, .empty⟩ = .ok .setup := by decide
theorem test_decode_setop : decode ⟨0b1001_0000_00000011#16, .empty⟩ = .ok (.setop 0x03#8) := by decide
theorem test_decode_trig : decode ⟨0b1010_0000_00000000#16, .empty⟩ = .ok .trig := by decide
theorem test_decode_bwait : decode ⟨0b1011_0000_00000000#16, .empty⟩ = .ok .bwait := by decide
theorem test_decode_cssel : decode ⟨0b1100_0000_00000111#16, .empty⟩ = .ok (.cssel 0x07#8) := by decide
theorem test_decode_csdesel : decode ⟨0b1101_0000_00000001#16, .empty⟩ = .ok (.csdesel 0x01#8) := by decide
theorem test_decode_xfer :
    decode ⟨0b1110_0000_00000001#16, .segs [S [0x03#8, 0xAA#8], R 2]⟩ =
      .ok (.xfer 0x01#8 [S [0x03#8, 0xAA#8], R 2]) := by decide

/-- V-RA-14: the words R84 refuses, each by its reason. -/
theorem test_decode_reserved :
    decode ⟨0x6000#16, .empty⟩ = .error (.reservedOp 0x6#4) ∧
    decode ⟨0x7000#16, .empty⟩ = .error (.reservedOp 0x7#4) ∧
    decode ⟨0xF000#16, .empty⟩ = .error (.reservedOp 0xF#4) ∧
    decode ⟨0x0100#16, .empty⟩ = .error (.reservedField 0x1#4) ∧
    decode ⟨0x8001#16, .empty⟩ = .error (.immediateNotZero 0x01#8) ∧
    decode ⟨0xA080#16, .empty⟩ = .error (.immediateNotZero 0x80#8) ∧
    decode ⟨0xB0FF#16, .empty⟩ = .error (.immediateNotZero 0xFF#8) := by decide

/-- R81: the record's shape follows `op`; the host's numbered words read as the table's rows do. -/
theorem test_decode_record :
    decode ⟨0x1080#16, .empty⟩ = .error .recordShape ∧ decode ⟨0xE001#16, .empty⟩ = .error .recordShape ∧
    decodeTableWord 16 0x1048 = some (.wr8 0x48#8 0#8) ∧ decodeTableWord 16 0xE001 = some (.xfer 0x01#8 []) ∧
    decodeTableWord 16 0x6000 = none := by decide

/-- The row's word is what the next step runs. -/
theorem test_fetch_word :
    step (State.reset.withFetchWord 16 0xC003) = exec (.cssel 0x03#8) State.reset := by rfl

/-! ## WellFormed refuses an ill-formed term for each of its checks (R86, R182) -/

theorem test_wellFormed_offset8 : Instr.wellFormed (.rd8 0xC6#8) = false ∧ Instr.wellFormed (.wr8 0x00#8 1#8) = false ∧
    Instr.wellFormed (.sc8 0x4C#8 1#8 1#8) = false ∧ Instr.wellFormed (.rd8 0xC5#8) = true := by decide
theorem test_wellFormed_offset32 : Instr.wellFormed (.rd32 0x1D#8) = false ∧ Instr.wellFormed (.wr32 0x04#8 1#32) = false ∧
    Instr.wellFormed (.sc32 0x80#8 1#32 1#32) = false ∧ Instr.wellFormed (.sc32 0x4C#8 0#32 0#32) = true := by decide
/-- V-EN-9. -/
theorem test_wellFormed_length : Instr.wellFormed (.xfer 0#8 [S [0x03#8], ⟨.recv, 3, [0#8, 0#8]⟩]) = false := by decide
/-- V-EN-8. -/
theorem test_wellFormed_noOpcode : Instr.wellFormed (.xfer 0#8 [S [], S [0x03#8]]) = false := by decide
/-- V-EN-7 and, admitted, V-EN-6. -/
theorem test_wellFormed_capacity : Instr.wellFormed (.xfer 0#8 [S (List.replicate 71 0x05#8), R 1]) = false ∧
    Instr.wellFormed (.xfer 0#8 [S (List.replicate 71 0x05#8)]) = true := by decide

/-! ## Register access -/

/-- V-RA-1. -/
theorem test_rd8_txCount :
    after (exec (.wr8 0x48#8 2#8) (start .a [])) (fun t => after (exec (.rd8 0x48#8) t)
      (fun u => u.eng.res == some 0x00000002#32)) = true := by decide
/-- V-RA-3, V-RA-4. -/
theorem test_rd8_refused :
    after (exec (.rd8 0xC6#8) (start .a [])) (fun t => t.refused && t.trace == []) = true ∧
    after (exec (.rd8 0x00#8) (start .a [])) (fun t => t.refused && t.trace == []) = true := by decide
/-- V-RA-2. -/
theorem test_wr8_lastCell :
    after (exec (.wr8 0xC5#8 0x5A#8) (start .a [])) (fun t => t.dev.fifo.read 0xC5 == 0x5A#8 &&
      t.trace == [.wr8 0xC5 0x5A#8]) = true := by decide
/-- V-RA-10, V-RA-11. -/
theorem test_wr8_havoc :
    after (exec (.wr8 0x45#8 1#8) (start .a [])) (fun t => t.dev.havoc) = true ∧
    after (exec (.wr8 0x80#8 1#8) (running .a 1 [0])) (fun t => t.dev.havoc) = true := by decide
/-- V-RA-13: the device stores 1 in no bit that is not storage. -/
theorem test_rd32_ctrl0 :
    after (exec (.rd32 0x00#8) (startWith .a [] (fun d => { d with ctrl0 := 0x7FEEFFFF#32 })))
      (fun t => t.eng.res == some 0x7FEEFFFF#32) = true := by decide
/-- V-RA-15's read: STATUS bit 31 is 0 while `IDLE`, whatever is drawn. -/
theorem test_rd32_status :
    after (exec (.rd32 0x4C#8) (start .b [0xFFFFFFFF])) (fun t => t.eng.res == some 0x7FFFFFFF#32) = true := by decide
/-- V-RA-6. -/
theorem test_wr32_clearAndExec :
    after (exec (.wr32 0x00#8 0x00110000#32) (start .a [])) (fun t => t.dev.havoc && t.dev.events == []) = true := by decide
/-- V-DV-6. -/
theorem test_wr32_trigger :
    after (exec (.wr32 0x00#8 0x00010042#32) (start .a [])) (fun t => t.dev.events == [.start 0#2 0x42#8 [] 0] &&
      t.dev.phase.busy && t.dev.ctrl0 == 0x42#32) = true := by decide
/-- V-RA-7, V-RA-8. -/
theorem test_sc8_setLast :
    after (exec (.sc8 0x1D#8 0x01#8 0x03#8) (startWith .a [] (fun d => { d with cs := 0xF6#8 })))
      (fun t => t.dev.cs == 0xF5#8 && t.eng.res == some 0xF6#32) = true ∧
    after (exec (.sc8 0x1D#8 0x01#8 0x01#8) (start .a [])) (fun t => t.dev.cs == 0x01#8) = true := by decide
/-- V-RA-9. -/
theorem test_sc8_nothing :
    after (exec (.sc8 0x1D#8 0#8 0#8) (startWith .a [] (fun d => { d with cs := 0xA5#8 })))
      (fun t => t.dev.cs == 0xA5#8 && t.trace == [.rd8 0x1D 0xA5#8, .wr8 0x1D 0xA5#8]) = true := by decide
/-- V-RA-15. -/
theorem test_sc32_status :
    after (exec (.sc32 0x4C#8 0#32 0#32) (start .b [7])) (fun t => t.dev.havoc && t.eng.res == some 7#32) = true := by decide

/-! ## Version policy -/

/-- V-VP-1. -/
theorem test_setop_a :
    after (exec (.setop 0x03#8) (startWith .a [] (fun d => { d with ctrl0 := 0x12245678#32 }))) (fun t =>
      t.dev.ctrl0 == 0x12245603#32 && t.trace == [.rd32 0x00 0x12245678#32, .wr32 0x00 0x12245603#32]) = true := by decide
/-- V-VP-2. -/
theorem test_setop_b :
    after (exec (.setop 0x9F#8) (start .b [])) (fun t => t.dev.opcode == 0x9F#8 && t.trace == [.wr8 0x45 0x9F#8]) = true := by
  decide
/-- V-VP-4. -/
theorem test_trig_a :
    after (exec .trig (startWith .a [] (fun d => { d with ctrl0 := 0x9F#32, cs := 0x02#8 }))) (fun t =>
      t.dev.events == [.start 2#2 0x9F#8 [] 0] && t.dev.phase.busy &&
      t.trace == [.rd32 0x00 0x9F#32, .wr32 0x00 0x0001009F#32]) = true := by decide
/-- V-VP-5, V-VP-7. -/
theorem test_trig_b :
    after (exec .trig (startWith .b [] (fun d => { d with trigger := 0x05#7 }))) (fun t =>
      t.trace == [.rd8 0x47 0x05#8, .wr8 0x47 0x85#8] && t.dev.phase.busy && t.dev.trigger == 0x05#7) = true ∧
    after (exec .trig (startWith .b [] (fun d => { d with txCount := 50#8, rxCount := 30#8 }))) (fun t =>
      t.dev.havoc && t.dev.events == []) = true := by decide

/-- V-VP-8. -/
theorem test_policy_queries :
    busyLocation .a = .ok .ctrl0 ∧ busyLocation .b = .ok .status ∧ busyLocation .other = .error .unsupportedVersion ∧
    deassertRequired .a = .ok false ∧ deassertRequired .b = .ok true ∧
    deassertRequired .other = .error .unsupportedVersion := by decide
/-- V-BW-8: NPOLL stays unwritten. -/
theorem test_bwait_unknownVersion : after (exec .bwait (start .other [])) (fun t =>
    t.eng.res == some 2#32 && t.eng.npoll == none && t.trace == []) = true := by decide

/-! ## Chip select -/

/-- V-CS-1's last case, V-CS-2, V-CS-3. -/
theorem test_cssel :
    after (exec (.cssel 7#8) (start .a [])) (fun t => t.dev.cs == 0x03#8) = true ∧
    after (exec (.cssel 7#8) (startWith .a [] (fun d => { d with cs := 0xF4#8 }))) (fun t => t.dev.cs == 0xF7#8) = true ∧
    after (exec (.cssel 0xFF#8) (start .a [])) (fun t => t.dev.cs == 0x03#8) = true := by decide
/-- V-CS-6. -/
theorem test_cssel_busy :
    after (exec (.cssel 1#8) (startWith .a [0, 0] (fun d => { d with cs := 2#8, phase := .rx (txn 1) })))
      (fun t => t.dev.havoc) = true := by decide
/-- V-CS-4, V-CS-5. -/
theorem test_csdesel :
    after (exec (.csdesel 1#8) (startWith .a [] (fun d => { d with cs := 0xF5#8 })))
      (fun t => t.trace == [.rd8 0x1D 0xF5#8, .wr8 0x1D 0xF4#8]) = true ∧
    after (exec (.csdesel 3#8) (startWith .a [] (fun d => { d with cs := 0x80#8 })))
      (fun t => t.trace == [.rd8 0x1D 0x80#8, .wr8 0x1D 0x80#8]) = true := by decide

/-! ## Busy-wait -/

/-- V-BW-2: three polls of a device that stays in `TX`, then its completion. -/
theorem test_bwait_threePolls :
    after (exec .bwait (running .a 0 ([0, 0, 0, 0, 0, 0, 1] ++ List.replicate 80 0))) (fun t =>
      t.eng.res == some 0#32 && t.eng.npoll == some 3 && t.eng.elapsed == 60 && t.trace.length == 4) = true := by
  decide +kernel
/-- V-BW-6, under LOOSE: the bound is exceeded after one read, and the final read sees 0; two reads, so at least one interval
has passed (R163). -/
theorem test_bwait_finalRead :
    after (exec .bwait { running .b 0 ([0, 5, 1, 1, 9, 1] ++ List.replicate 80 0) with
        params := { version := .b, pollTiming := .loose, rxGapAdmitted := true } }) (fun t =>
      t.eng.res == some 0#32 && t.eng.npoll == some 1 && decide (20 ≤ t.eng.elapsed) && t.trace.length == 2) = true := by
  decide +kernel

/-! ## FIFO engine -/

/-- Program P5, its first operation. -/
theorem test_setup :
    after (exec .setup (startWith .a [] (fun d => { d with fifoPtrCleared := false }))) (fun t =>
      t.dev.fifoPtrCleared && t.trace == [.rd32 0x00 0#32, .wr32 0x00 0x00100000#32] && t.eng.res == some 0#32) = true := by
  decide
/-- Program P1, the scenario of the source's §8: the accesses but for STATUS's drawn bits (drawn 0), and the end state. -/
theorem test_xfer_p1 :
    after (exec (.xfer 1#8 [S [0x03#8, 0xAA#8, 0xBB#8], R 2])
        (start .b ([1, 0, 0, 1, 0x11, 0x22] ++ List.replicate 80 0))) (fun t =>
      t.trace == [.rd8 0x1D 0#8, .wr8 0x1D 1#8, .wr8 0x80 0xAA#8, .wr8 0x81 0xBB#8, .wr8 0x48 2#8, .wr8 0x4B 2#8,
        .wr8 0x45 3#8, .rd8 0x47 0#8, .wr8 0x47 0x80#8, .rd32 0x4C 0x80000000#32, .rd32 0x4C 0#32, .rd32 0x4C 0#32,
        .rd8 0x82 0x11#8, .rd8 0x83 0x22#8, .rd8 0x1D 1#8, .wr8 0x1D 0#8] &&
      t.completions == [⟨.success, 5, [S [0x03#8, 0xAA#8, 0xBB#8], ⟨.recv, 2, [0x11#8, 0x22#8]⟩]⟩] &&
      t.dev.events == [.start 1#2 0x03#8 [0xAA#8, 0xBB#8] 2, .done 1#2 0x03#8 [0xAA#8, 0xBB#8] 2 [0x11#8, 0x22#8]] &&
      !t.dev.havoc) = true := by decide +kernel
/-- Program P3: InvalidArgument touches CS only. -/
theorem test_xfer_p3 :
    after (exec (.xfer 2#8 [R 4]) (startWith .b [0] (fun d => { d with cs := 0x80#8, txCount := 0x17#8 }))) (fun t =>
      t.trace == [.rd8 0x1D 0x80#8, .wr8 0x1D 0x82#8, .rd8 0x1D 0x82#8, .wr8 0x1D 0x80#8] &&
      t.dev.txCount == 0x17#8 && t.completions == [⟨.invalidArgument, 0, [R 4]⟩]) = true := by decide

/-! ## Device agent -/

/-- V-DV-2. -/
theorem test_device_completion :
    let x : Txn := { cs := 1#2, op := 3#8, tx := 2, rx := 2, txbytes := [0xAA#8, 0xBB#8] }
    let d := (deviceMove (start .b []).params 1 { (start .b []).dev with cs := 1#8, phase := .rx x }
      { tape := [0x11, 0x22] ++ List.replicate 80 7, used := 0 }).1
    d.fifo.read 0x82 = 0x11#8 ∧ d.fifo.read 0x83 = 0x22#8 ∧ d.fifo.read 0x81 = 7#8 ∧ d.cs = 1#8 ∧ d.txCount = 7#8 ∧
      d.events = [.done 1#2 3#8 [0xAA#8, 0xBB#8] 2 [0x11#8, 0x22#8]] ∧ d.phase = .idle := by
  decide +kernel

/-- The FIFO at reset is in canonical form. -/
theorem test_reset_wf : State.reset.dev.fifo.wf := by decide

/-! ## Witnesses: for each statement with hypotheses, states and operands that meet them together, clause by clause -/

/-- The invariant of the device, where no transaction is in progress. -/
theorem ok_idle {p : Params} {d : Device} (hf : d.fifo.wf) (hc : d.ctrl0 &&& ctrl0Storage = d.ctrl0) (hi : d.phase = .idle) :
    d.Ok p := ⟨hf, hc, fun _ t ht => by simp [hi, Phase.txn] at ht⟩

/-- The message of program P1. -/
def p1 : List Segment := [S [0x03#8, 0xAA#8, 0xBB#8], R 2]

theorem admitted {segs : List Segment} (h : admits segs = true) : ¬ Claim.inadmissible segs := by
  rw [Claim.inadmissible_iff, h]
  simp

theorem refusedMessage {segs : List Segment} (h : admits segs = false) : Claim.inadmissible segs := by
  rw [Claim.inadmissible_iff, h]

theorem hasSend {segs : List Segment} (h : (firstSend segs).isSome = true) : Claim.hasSend segs :=
  (Claim.hasSend_iff segs).2 (Option.isSome_iff_exists.1 h)

theorem hasNoSend {segs : List Segment} (h : firstSend segs = none) : ¬ Claim.hasSend segs := by
  rw [Claim.hasSend_iff, h]
  simp

/-- From a run that was evaluated to the state and the record it delivers. -/
theorem delivered {i : BitVec 8} {segs : List Segment} {s : State} {st : Status} {g : State → Bool}
    (h : after (exec (.xfer i segs) s) (fun t =>
      (match t.completions with | [c] => decide (c.status = st) | _ => false) && g t) = true)
    (hs : s.completions = []) :
    ∃ t c, exec (.xfer i segs) s = .next t ∧ t.completions = s.completions ++ [c] ∧ c.status = st ∧ g t = true := by
  obtain ⟨t, e, h⟩ := after_next h
  simp only [Bool.and_eq_true] at h
  obtain ⟨h1, h2⟩ := h
  split at h1
  · next c hc => exact ⟨t, c, e, by rw [hc, hs]; rfl, by simpa using h1, h2⟩
  · simp at h1

theorem witness_ReservedWordsAreRefused :
    Claim.reserved 0x6000#16 ∧ Claim.reserved 0x7FFF#16 ∧ Claim.reserved 0xF000#16 ∧ Claim.reserved 0x0100#16 ∧
    Claim.reserved 0xEF00#16 ∧ Claim.reserved 0x8001#16 ∧ Claim.reserved 0xA080#16 ∧ Claim.reserved 0xB0FF#16 ∧
    ¬ Claim.reserved 0x5000#16 ∧ ¬ Claim.reserved 0xE0FF#16 ∧
    ({ State.reset with requests := [⟨0x6000#16, .empty⟩] } : State).eng.pc = .idle := by
  unfold Claim.reserved
  refine ⟨?_, ?_, ?_, ?_, ?_, ?_, ?_, ?_, ?_, ?_, ?_⟩ <;> decide

theorem witness_EncodeOfDecodeIsIdentity : decode ⟨0xE001#16, .segs p1⟩ = .ok (.xfer 1#8 p1) := by decide

theorem witness_StepRunsTheDecodedOperation :
    (State.reset.withFetchWord 16 0xB000).eng.pc = .idle ∧
    (State.reset.withFetchWord 16 0xB000).requests = [⟨0xB000#16, .empty⟩] ∧ decode ⟨0xB000#16, .empty⟩ = .ok .bwait := by
  decide

theorem witness_StepWithoutRequestMovesOnlyTheDevice :
    State.reset.eng.pc = .idle ∧ State.reset.requests = [] ∧ State.reset.dev.havoc = false ∧
    State.reset.dev.phase = .idle := by decide

theorem witness_NoOperationStartsDuringAnother : (State.reset.goto .wait1).eng.pc ≠ .idle := by decide

theorem witness_PortLegality : State.reset.eng.pc = .idle ∧
    (∀ off ∈ [0x1D#8, 0x45#8, 0x47#8, 0x48#8, 0x4B#8, 0x80#8, 0xC5#8], Claim.legal8 off) ∧
    (∀ off ∈ [0x00#8, 0x1C#8, 0x46#8, 0x4C#8, 0x7F#8, 0xC6#8, 0xFF#8], ¬ Claim.legal8 off) ∧
    (∀ off ∈ [0x00#8, 0x4C#8], Claim.legal32 off) ∧
    (∀ off ∈ [0x01#8, 0x1D#8, 0x4B#8, 0x4D#8, 0x80#8], ¬ Claim.legal32 off) := by
  unfold Claim.legal8 Claim.legal32
  decide

/-- Serves every statement about a device at rest. -/
theorem witness_ReadByteOfAQuietDevice : (start .a []).quiet ∧ (start .b []).quiet ∧ (start .b []).params.version = .b := by
  decide

theorem witness_ReadsChangeNoDeviceState :
    (running .a 1 [0]).eng.pc = .idle ∧ Claim.legal8 0xC5#8 ∧ Claim.legal32 0x4C#8 := by
  unfold Claim.legal8 Claim.legal32
  decide

/-- Both while `IDLE` and in `TX`. -/
theorem witness_ReadControlRegister :
    ((start .a []).quiet ∧ (start .a []).turn.dev.havoc = false ∧ (start .a []).turn.dev.phase = .idle) ∧
    ((running .a 1 [0]).eng.pc = .idle ∧ (running .a 1 [0]).params.version ≠ .other ∧
      (running .a 1 [0]).turn.dev.havoc = false ∧ (running .a 1 [0]).turn.dev.phase.busy = true) := by decide

theorem witness_ReadStatusRegister :
    (running .b 1 [0]).eng.pc = .idle ∧ (running .b 1 [0]).params.version = .b ∧
    (running .b 1 [0]).turn.dev.havoc = false ∧ (running .b 1 [0]).turn.dev.phase.busy = true := by decide

theorem witness_DrawnReadMayBeAnyByte : (start .a []).eng.pc = .idle ∧ Claim.legal8 0x1D#8 ∧
    (startWith .a [] (fun d => { d with havoc := true })).dev.havoc = true ∧ (start .other []).params.version = .other ∧
    ((running .b 1 []).dev.phase ≠ .idle ∧ Claim.legal8 0xC5#8 ∧ 0x80#8 ≤ 0xC5#8) ∧
    ((start .a []).params.version = .a ∧ Claim.legal8 0x45#8 ∧ Claim.legal8 0x47#8) := by
  unfold Claim.legal8
  decide

theorem witness_WriteByteOfAQuietDevice : (start .a []).quiet ∧ (start .a []).params.version = .a ∧ (start .b []).quiet ∧
    (start .b []).params.version = .b ∧ (0x7F#8)[7] = false ∧ (start .b []).dev.fifo.wf := by decide

theorem witness_WriteTriggerRegister :
    (startWith .b [] (fun d => { d with txCount := 69#8, rxCount := 1#8 })).quiet ∧ (0x80#8)[7] = true ∧
    Claim.canTrigger (startWith .b [] (fun d => { d with txCount := 69#8, rxCount := 1#8 })).dev ∧
    ¬ Claim.canTrigger (startWith .b [] (fun d => { d with txCount := 69#8, rxCount := 2#8 })).dev ∧
    ¬ Claim.canTrigger (startWith .b [] (fun d => { d with fifoPtrCleared := false })).dev := by
  unfold Claim.canTrigger
  decide

theorem witness_WriteWordOfAQuietDevice : (start .b []).quiet ∧ (start .b []).params.version = .b ∧
    (0x00100000#32)[16] = false ∧ (0x00110000#32)[16] = true ∧ (0x00110000#32)[20] = true ∧ (0x00010000#32)[16] = true ∧
    (0x00010000#32)[20] = false := by decide

theorem witness_WriteControlRegisterTriggers :
    (start .a []).quiet ∧ (start .a []).params.version = .a ∧ (0x00010042#32)[16] = true ∧ (0x00010042#32)[20] = false ∧
    Claim.canTrigger (start .a []).dev ∧
    ¬ Claim.canTrigger (startWith .a [] (fun d => { d with txCount := 70#8, rxCount := 1#8 })).dev := by
  unfold Claim.canTrigger
  decide

theorem witness_SetClearByteOfAQuietDevice : (start .b []).quiet ∧ (start .b []).params.version = .b ∧
    (start .b []).dev.fifo.wf := by decide

theorem witness_SetClearWordOfAQuietDevice :
    (start .a []).quiet ∧ (start .a []).params.version = .a ∧ (0x00100000#32)[16] = false := by decide

theorem witness_ReadModifyWriteUsesTheValueRead :
    (running .b 1 [0, 0]).eng.pc = .idle ∧ Claim.legal8 0x80#8 ∧ Claim.legal8 0xC5#8 ∧ Claim.legal32 0x00#8 ∧
    (portRead8 .trigger (running .b 1 [0, 1])).1 &&& Claim.selfClearing8 0x47#8 ≠ 0#8 ∧
    (portRead8 .trigger (running .b 1 [0, 0])).1 &&& Claim.selfClearing8 0x47#8 = 0#8 ∧
    (portRead32 .ctrl0 (running .a 1 [0, 1])).1 &&& Claim.selfClearing32 0x00#8 ≠ 0#32 ∧
    (portRead32 .ctrl0 (running .a 1 [0, 0])).1 &&& Claim.selfClearing32 0x00#8 = 0#32 := by
  unfold Claim.legal8 Claim.legal32
  decide

/-- A device whose turn completes its transaction. -/
theorem witness_AccessActsAfterTheDevicesTurn :
    (running .a 0 ([1] ++ List.replicate 80 0)).dev.phase ≠ .idle ∧
    (running .a 0 ([1] ++ List.replicate 80 0)).turn.dev.phase = .idle ∧
    (running .a 0 ([1] ++ List.replicate 80 0)).turn.dev.havoc = false := by decide +kernel

theorem witness_WriteWhileBusySetsHavoc :
    ((running .a 1 [0]).eng.pc = .idle ∧ (running .a 1 [0]).turn.dev.phase ≠ .idle) ∧
    ((start .other []).eng.pc = .idle ∧ (start .other []).params.version = .other) ∧
    (startWith .b [] (fun d => { d with havoc := true })).turn.dev.havoc = true := by
  refine ⟨by decide, by decide, rfl⟩

/-- A device in `TX` whose transaction, without receive bytes, is over after the first access. -/
def ending (v : Version) (tape : List Nat) : State := running v 0 (tape ++ List.replicate 80 0)

/-- The EXEC bit read before a transaction ends, and written back after it, may be 0 and 1. -/
theorem witness_SetopInVariantA_atRest :
    (ending .a [0, 0, 1]).eng.pc = .idle ∧ (ending .a [0, 0, 1]).dev.havoc = false ∧
    (ending .a [0, 0, 1]).params.version = .a ∧
    (portRead32 .ctrl0 (ending .a [0, 0, 1])).2.turn.dev.phase = .idle ∧
    (portRead32 .ctrl0 (ending .a [0, 0, 1])).1[16] = false ∧
    (portRead32 .ctrl0 (ending .a [0, 1, 1])).2.turn.dev.phase = .idle ∧
    (portRead32 .ctrl0 (ending .a [0, 1, 1])).1[16] = true := by decide +kernel

/-- The same with every later draw odd, the choice of log entry 25 among them. -/
def endingOdd (v : Version) (tape : List Nat) : State := running v 0 (tape ++ List.replicate 80 1)

/-- EXEC was read as 1 and is written back once the transaction is over: nothing starts (R310), or the write triggers (R23). -/
theorem test_setop_staleExec :
    after (exec (.setop 0x03#8) (ending .a [0, 1, 1])) (fun t => t.dev.phase == .idle && !t.dev.havoc &&
      t.dev.ctrl0 == 0x03#32 && t.trace == [.rd32 0x00 0x80010000#32, .wr32 0x00 0x80010003#32]) = true ∧
    after (exec (.setop 0x03#8) (endingOdd .a [0, 1, 1])) (fun t => t.dev.phase.busy && !t.dev.havoc &&
      t.trace == [.rd32 0x00 0x80010000#32, .wr32 0x00 0x80010003#32]) = true := by decide +kernel

/-- SETUP after such a read clears the cursor (R310), or sets havoc (R24, R267). -/
theorem test_setup_staleExec :
    after (exec .setup (ending .a [0, 1, 1])) (fun t => t.dev.phase == .idle && !t.dev.havoc &&
      t.trace == [.rd32 0x00 0x80010000#32, .wr32 0x00 0x80110000#32]) = true ∧
    after (exec .setup (endingOdd .a [0, 1, 1])) (fun t => t.dev.havoc &&
      t.trace == [.rd32 0x00 0x80010000#32, .wr32 0x00 0x80110000#32]) = true := by decide +kernel

/-- Bit 7 of TRIGGER was read as 1 and is written back once the transaction is over: nothing starts (R310), or the write
triggers (R30). -/
theorem test_sc8_staleTrigger :
    after (exec (.sc8 0x47#8 0#8 0#8) (ending .b [0, 1, 1])) (fun t => t.dev.phase == .idle && !t.dev.havoc &&
      t.eng.res == some 0x80#32 && t.trace == [.rd8 0x47 0x80#8, .wr8 0x47 0x80#8]) = true ∧
    after (exec (.sc8 0x47#8 0#8 0#8) (endingOdd .b [0, 1, 1])) (fun t => t.dev.phase.busy && !t.dev.havoc &&
      t.trace == [.rd8 0x47 0x80#8, .wr8 0x47 0x80#8]) = true := by decide +kernel

/-- A malformed state, resumed at LOAD with a send buffer shorter than its segment, and at DRAIN with a receive buffer shorter
than its segment: the fault of log entry 10. -/
theorem test_shortBuffer :
    labelStep { start .a [] with eng := { (start .a []).eng with
      pc := .load, opc := some none, msg := some { cs := 0#8, segs := [⟨.send, 3, [0x03#8, 0x04#8]⟩] } } } =
      .error .noSuchBufferByte ∧
    labelStep { start .a [] with eng := { (start .a []).eng with
      pc := .drain, txc := some 0, rxc := some 1, msg := some { cs := 0#8, segs := [⟨.recv, 1, []⟩] } } } =
      .error .noSuchBufferByte := ⟨rfl, rfl⟩

/-- A device as `ending` has it, but with SETUP not made: a trigger is not accepted. -/
def endingUnset (v : Version) (tape : List Nat) : State :=
  { ending v tape with dev := { (ending v tape).dev with fifoPtrCleared := false } }

/-- A transaction that ends before TRIG's write, with the next one admitted and not. -/
theorem witness_TrigInVariantA_afterTheEnd :
    (ending .a [0, 1, 1]).params.version = .a ∧ (ending .a [0, 1, 1]).eng.pc = .idle ∧
    (ending .a [0, 1, 1]).dev.havoc = false ∧ (portRead32 .ctrl0 (ending .a [0, 1, 1])).2.turn.dev.phase = .idle ∧
    Claim.canTrigger (portRead32 .ctrl0 (ending .a [0, 1, 1])).2.turn.dev ∧
    (endingUnset .a [0, 1, 1]).dev.havoc = false ∧
    (portRead32 .ctrl0 (endingUnset .a [0, 1, 1])).2.turn.dev.phase = .idle ∧
    ¬ Claim.canTrigger (portRead32 .ctrl0 (endingUnset .a [0, 1, 1])).2.turn.dev := by
  unfold Claim.canTrigger
  decide +kernel

/-- The same in Variant B. -/
theorem witness_TrigInVariantB_afterTheEnd :
    (ending .b [0, 1, 1]).params.version = .b ∧ (ending .b [0, 1, 1]).eng.pc = .idle ∧
    (ending .b [0, 1, 1]).dev.havoc = false ∧ (portRead8 .trigger (ending .b [0, 1, 1])).2.turn.dev.phase = .idle ∧
    Claim.canTrigger (portRead8 .trigger (ending .b [0, 1, 1])).2.turn.dev ∧
    (endingUnset .b [0, 1, 1]).dev.havoc = false ∧
    (portRead8 .trigger (endingUnset .b [0, 1, 1])).2.turn.dev.phase = .idle ∧
    ¬ Claim.canTrigger (portRead8 .trigger (endingUnset .b [0, 1, 1])).2.turn.dev := by
  unfold Claim.canTrigger
  decide +kernel

/-- A transaction that ends before SETUP's write, in either variant. -/
theorem witness_SetupClearsTheFifoCursor_afterTheEnd :
    (ending .a [0, 1, 1]).eng.pc = .idle ∧ (ending .a [0, 1, 1]).params.version ≠ .other ∧
    (ending .a [0, 1, 1]).dev.havoc = false ∧ (portRead32 .ctrl0 (ending .a [0, 1, 1])).2.turn.dev.phase = .idle ∧
    (ending .b [0, 1, 1, 1]).eng.pc = .idle ∧ (ending .b [0, 1, 1, 1]).params.version ≠ .other ∧
    (ending .b [0, 1, 1, 1]).dev.havoc = false ∧
    (portRead32 .ctrl0 (ending .b [0, 1, 1, 1])).2.turn.dev.phase = .idle := by decide +kernel

theorem witness_SetopInVariantA : (start .a []).params.version = .a ∧ (start .a []).quiet ∧
    (start .a []).dev.Ok (start .a []).params ∧ (running .a 1 [0, 0, 0]).eng.pc = .idle ∧
    (portRead32 .ctrl0 (running .a 1 [0, 0, 0])).2.turn.dev.phase ≠ .idle := by
  refine ⟨by decide, by decide, ok_idle (by decide) (by decide) (by decide), by decide, by decide⟩

theorem witness_SetopInVariantB : (start .b []).params.version = .b ∧ (start .b []).quiet ∧
    ((running .b 1 [0]).eng.pc = .idle ∧ (running .b 1 [0]).turn.dev.phase ≠ .idle) ∧
    (ending .b [1]).eng.pc = .idle ∧ (ending .b [1]).turn.dev.phase = .idle ∧ (ending .b [1]).turn.dev.havoc = false := by
  decide +kernel

theorem witness_TrigInVariantA : (start .a []).quiet ∧ (start .a []).params.version = .a ∧
    (start .a []).dev.Ok (start .a []).params ∧ Claim.canTrigger (start .a []).dev ∧
    (startWith .a [] (fun d => { d with fifoPtrCleared := false })).quiet ∧
    (startWith .a [] (fun d => { d with fifoPtrCleared := false })).dev.Ok (start .a []).params ∧
    ¬ Claim.canTrigger (startWith .a [] (fun d => { d with fifoPtrCleared := false })).dev ∧
    (running .a 1 [0, 0, 0]).params.version = .a ∧ (running .a 1 [0, 0, 0]).eng.pc = .idle ∧
    (portRead32 .ctrl0 (running .a 1 [0, 0, 0])).2.turn.dev.phase ≠ .idle := by
  unfold Claim.canTrigger
  exact ⟨by decide, by decide, ok_idle (by decide) (by decide) (by decide), by decide, by decide,
    ok_idle (by decide) (by decide) (by decide), by decide, by decide, by decide, by decide⟩

theorem witness_TrigInVariantB : (start .b []).quiet ∧ (start .b []).params.version = .b ∧ Claim.canTrigger (start .b []).dev ∧
    (startWith .b [] (fun d => { d with txCount := 70#8, rxCount := 1#8 })).quiet ∧
    ¬ Claim.canTrigger (startWith .b [] (fun d => { d with txCount := 70#8, rxCount := 1#8 })).dev ∧
    (running .b 1 [0, 0, 0]).params.version = .b ∧ (running .b 1 [0, 0, 0]).eng.pc = .idle ∧
    (portRead8 .trigger (running .b 1 [0, 0, 0])).2.turn.dev.phase ≠ .idle := by
  unfold Claim.canTrigger
  decide

theorem witness_UnknownVersionMakesNoAccess : (start .other []).eng.pc = .idle ∧ (start .other []).params.version = .other ∧
    (((start .other []).setOpc (some 0x03#8)).goto .setop).eng.opc = some (some 0x03#8) ∧
    (((start .other []).setOpc (some 0x03#8)).goto .setop).eng.pc = .setop ∧
    ((start .other []).goto .trig).eng.pc = .trig ∧ ((start .other []).goto .trig).params.version = .other := by
  decide

theorem witness_CsselSelectsTheIndexModuloFour : (start .a []).eng.pc = .idle ∧ (start .a []).quiet ∧
    (running .a 1 [0, 0]).eng.pc = .idle ∧ (portRead8 .cs (running .a 1 [0, 0])).2.turn.dev.phase ≠ .idle ∧
    (ending .a [0, 1]).eng.pc = .idle ∧ (ending .a [0, 1]).params.version ≠ .other ∧ (ending .a [0, 1]).dev.havoc = false ∧
    (portRead8 .cs (ending .a [0, 1])).2.turn.dev.phase = .idle := by decide +kernel

theorem witness_CsdeselClearsTheField : (start .b []).eng.pc = .idle ∧ (start .b []).quiet ∧
    (running .b 1 [0, 0]).eng.pc = .idle ∧ (portRead8 .cs (running .b 1 [0, 0])).2.turn.dev.phase ≠ .idle ∧
    (ending .b [0, 1]).eng.pc = .idle ∧ (ending .b [0, 1]).params.version ≠ .other ∧ (ending .b [0, 1]).dev.havoc = false ∧
    (portRead8 .cs (ending .b [0, 1])).2.turn.dev.phase = .idle := by decide +kernel

theorem witness_BwaitSucceedsAtOnceWhenIdle : (start .a []).quiet ∧ (start .b []).quiet := by decide

theorem witness_BwaitIsBounded : (running .a 1 []).eng.pc = .idle := by decide

/-- V-BW-9's state, a device in `GAP`, among others. -/
theorem witness_BwaitDecidesByTheLastRead : (startWith .b [] (fun d => { d with phase := .gap (txn 1) })).eng.pc = .idle ∧
    (startWith .b [] (fun d => { d with phase := .gap (txn 1) })).params.version ≠ .other := by decide

theorem running_fields (v : Version) (rx : Nat) (tape : List Nat) : (running v rx tape).eng.pc = .idle ∧
    (running v rx tape).params.version = v ∧ (running v rx tape).params.pollTiming = .exact ∧
    (running v rx tape).dev.havoc = false ∧ (running v rx tape).dev.phase = .tx (txn rx) ∧
    (running v rx tape).oracle.tape = tape := ⟨rfl, rfl, rfl, rfl, rfl, rfl⟩

theorem witness_BwaitTimesOutExactly : ∃ s : State, s.eng.pc = .idle ∧ s.params.version = .a ∧
    s.params.pollTiming = .exact ∧ s.dev.havoc = false ∧ s.dev.phase = .tx (txn 1) ∧
    s.oracle.tape = List.replicate (2 * 100002) 0 := ⟨_, running_fields .a 1 _⟩

theorem witness_SetupClearsTheFifoCursor : State.reset.quiet ∧ State.reset.dev.Ok State.reset.params ∧
    State.reset.dev.fifoPtrCleared = false :=
  ⟨by decide, ok_idle (by decide) (by decide) (by decide), by decide⟩

theorem witness_SetupElsewhereSetsHavoc :
    ((start .other []).eng.pc = .idle ∧ (start .other []).params.version = .other) ∧
    ((running .b 1 [0, 0, 0, 0]).eng.pc = .idle ∧
      (portRead32 .ctrl0 (running .b 1 [0, 0, 0, 0])).2.turn.dev.phase ≠ .idle) := by decide

/-- V-EN-7, V-EN-8 and V-EN-9: each of the three grounds. -/
theorem witness_XferRefusesInadmissibleMessages : State.reset.eng.pc = .idle ∧
    Claim.inadmissible [S (List.replicate 71 0x05#8), R 1] ∧ Claim.inadmissible [S [], S [0x03#8]] ∧
    Claim.inadmissible [S [0x03#8], ⟨.recv, 3, [0#8, 0#8]⟩] :=
  ⟨by decide, refusedMessage (by decide), refusedMessage (by decide), refusedMessage (by decide)⟩

/-- At the capacity, and with no send segment. -/
theorem witness_XferDeliversExactlyOneRecord : State.reset.eng.pc = .idle ∧
    ¬ Claim.inadmissible [S (List.replicate 71 0x05#8)] ∧ ¬ Claim.inadmissible [R 71] ∧ ¬ Claim.inadmissible [] :=
  ⟨by decide, admitted (by decide), admitted (by decide), admitted (by decide)⟩

/-- A run that ends in Success, with no gap admitted, and without havoc: serves the statements about Success. -/
theorem witness_XferReceivesTheTargetsBytes :
    let s : State := { start .b ([1, 0, 0, 1, 0x11, 0x22] ++ List.replicate 80 0) with
      params := { version := .b, pollTiming := .exact, rxGapAdmitted := false } }
    s.quiet ∧ s.dev.Ok s.params ∧ s.dev.fifoPtrCleared = true ∧ s.params.rxGapAdmitted = false ∧
    ¬ Claim.inadmissible p1 ∧ sentBytes p1 = 0x03#8 :: [0xAA#8, 0xBB#8] ∧
    ∃ t c, exec (.xfer 1#8 p1) s = .next t ∧ t.completions = s.completions ++ [c] ∧ c.status = .success ∧
      (!t.dev.havoc) = true := by
  refine ⟨by decide, ok_idle (by decide) (by decide) (by decide), by decide, by decide, admitted (by decide), by decide, ?_⟩
  exact delivered (by decide +kernel) rfl

/-- Success, at an index above 3. -/
theorem witness_XferActualLength : ¬ Claim.inadmissible [S [0x06#8]] ∧
    ∃ t c, exec (.xfer 7#8 [S [0x06#8]]) (start .a ([1] ++ List.replicate 80 0)) = .next t ∧
      t.completions = (start .a ([1] ++ List.replicate 80 0)).completions ++ [c] ∧ c.status = .success ∧
      (!t.dev.havoc) = true :=
  ⟨admitted (by decide), delivered (by decide +kernel) rfl⟩

/-- V-EN-12: a run that ends in UnsupportedVersion. -/
theorem witness_XferStatusByCause_unsupported : ¬ Claim.inadmissible [S [0x03#8, 0xAA#8], R 1] ∧
    (start .other (List.replicate 80 0)).params.version = .other ∧
    ∃ t c, exec (.xfer 0#8 [S [0x03#8, 0xAA#8], R 1]) (start .other (List.replicate 80 0)) = .next t ∧
      t.completions = (start .other (List.replicate 80 0)).completions ++ [c] ∧ c.status = .unsupportedVersion ∧
      (t.trace.length == 5) = true :=
  ⟨admitted (by decide), by decide, delivered (by decide +kernel) rfl⟩

/-- InvalidArgument. -/
theorem witness_XferStatusByCause : ¬ Claim.inadmissible [R 4] ∧ ¬ Claim.hasSend [R 4] ∧ Claim.hasSend p1 ∧
    ∃ t c, exec (.xfer 2#8 [R 4]) (start .b [0]) = .next t ∧ t.completions = (start .b [0]).completions ++ [c] ∧
      c.status = .invalidArgument ∧ (!t.dev.havoc) = true :=
  ⟨admitted (by decide), hasNoSend (by decide), hasSend (by decide), delivered (by decide) rfl⟩

/-- A run that fails: serves the statements about a status other than Success. -/
theorem witness_XferBuffersOnFailure : ¬ Claim.inadmissible [R 4] ∧
    ∃ t c, exec (.xfer 2#8 [R 4]) (start .a [0]) = .next t ∧ t.completions = (start .a [0]).completions ++ [c] ∧
      c.status = .invalidArgument ∧ decide (t.trace = (start .a [0]).trace ++ [.rd8 0x1D 0#8, .wr8 0x1D 2#8]) = true :=
  ⟨admitted (by decide), delivered (by decide) rfl⟩

theorem witness_XferInvalidArgumentTouchesOnlyCs : (start .a []).quiet ∧ (start .a []).params.version = .a ∧
    (start .b []).quiet ∧ (start .b []).params.version = .b ∧ ¬ Claim.hasSend [R 4, R 0] ∧
    ∀ seg ∈ [R 4, R 0], seg.len = seg.buf.length :=
  ⟨by decide, by decide, by decide, by decide, hasNoSend (by decide), by decide⟩

/-- V-EN-12's message. -/
theorem witness_XferUnknownVersionAccesses : (start .other []).eng.pc = .idle ∧ (start .other []).params.version = .other ∧
    ¬ Claim.inadmissible [S [0x03#8, 0xAA#8], R 1] ∧ Claim.hasSend [S [0x03#8, 0xAA#8], R 1] :=
  ⟨by decide, by decide, admitted (by decide), hasSend (by decide)⟩

/-- V-EN-2's run in Variant A. -/
theorem witness_XferRecordsOneTransaction :
    let s := start .a ([1] ++ List.replicate 80 0)
    s.quiet ∧ s.dev.Ok s.params ∧ s.dev.fifoPtrCleared = true ∧ ¬ Claim.inadmissible [S [0x06#8]] ∧
    sentBytes [S [0x06#8]] = 0x06#8 :: [] ∧ ∃ t, exec (.xfer 0#8 [S [0x06#8]]) s = .next t ∧ t.dev.havoc = false := by
  refine ⟨by decide, ok_idle (by decide) (by decide) (by decide), by decide, admitted (by decide), by decide, ?_⟩
  obtain ⟨t, e, h⟩ := after_next (o := exec (.xfer 0#8 [S [0x06#8]]) (start .a ([1] ++ List.replicate 80 0)))
    (f := fun t => decide (t.dev.havoc = false)) (by decide +kernel)
  exact ⟨t, e, by simpa using h⟩

/-- The same of Variant B, with CS bits 7:2 and TRIGGER set. -/
theorem witness_XferLeavesTheOtherRegisters :
    let s := startWith .b ([0, 0, 1] ++ List.replicate 80 0) (fun d => { d with cs := 0xF4#8, trigger := 0x55#7 })
    s.quiet ∧ s.dev.Ok s.params ∧ ¬ Claim.inadmissible [S [0x06#8]] ∧
    ∃ t, exec (.xfer 2#8 [S [0x06#8]]) s = .next t ∧ t.dev.havoc = false := by
  refine ⟨by decide, ok_idle (by decide) (by decide) (by decide), admitted (by decide), ?_⟩
  obtain ⟨t, e, h⟩ := after_next (o := exec (.xfer 2#8 [S [0x06#8]])
      (startWith .b ([0, 0, 1] ++ List.replicate 80 0) (fun d => { d with cs := 0xF4#8, trigger := 0x55#7 })))
    (f := fun t => decide (t.dev.havoc = false)) (by decide +kernel)
  exact ⟨t, e, by simpa using h⟩

theorem witness_XferFailureReadsNoFifoByte : ¬ Claim.inadmissible [R 4] ∧
    ∃ t c l, exec (.xfer 2#8 [R 4]) (start .a [0]) = .next t ∧ t.completions = (start .a [0]).completions ++ [c] ∧
      t.trace = (start .a [0]).trace ++ l ∧ c.status ≠ .success ∧ ∃ off v, Access.rd8 off v ∈ l := by
  obtain ⟨h, t, c, e, hc, hs, ht⟩ := witness_XferBuffersOnFailure
  exact ⟨h, t, c, _, e, hc, of_decide_eq_true ht, by rw [hs]; decide, 0x1D, 0#8, by simp⟩

theorem witness_XferAccessBound : (running .a 1 []).eng.pc = .idle ∧ ¬ Claim.inadmissible p1 :=
  ⟨by decide, admitted (by decide)⟩

theorem witness_XferLeavesItsStatusCode : ¬ Claim.inadmissible [R 4] ∧
    ∃ t c, exec (.xfer 2#8 [R 4]) (start .a [0]) = .next t ∧ t.completions = (start .a [0]).completions ++ [c] := by
  obtain ⟨h, t, c, e, hc, -⟩ := witness_XferBuffersOnFailure
  exact ⟨h, t, c, e, hc⟩

/-- A device in each phase; V-DV-3 and V-DV-4 among them. -/
theorem witness_DeviceTransitions : State.reset.dev.phase = .idle ∧ (running .a 0 []).dev.phase = .tx (txn 0) ∧
    (txn 0).rx = 0 ∧ (running .a 3 []).dev.phase = .tx (txn 3) ∧ 0 < (txn 3).rx ∧
    (running .a 3 []).params.rxGapAdmitted = true ∧
    (startWith .a [] (fun d => { d with phase := .gap (txn 3) })).dev.phase = .gap (txn 3) ∧
    (startWith .a [] (fun d => { d with phase := .rx (txn 3) })).dev.phase = .rx (txn 3) := by decide

theorem witness_CompletionOfATransaction : (txn 70).fits ∧ (txn 0).fits ∧
    (startWith .a [] (fun d => { d with phase := .rx (txn 70) })).dev.phase = .rx (txn 70) ∧
    (running .b 0 []).dev.phase = .tx (txn 0) ∧ (txn 0).rx = 0 ∧ (running .b 0 []).params.version = .b := by decide

theorem witness_TargetMayAnswerAnyBytes :
    (startWith .a [] (fun d => { d with phase := .rx (txn 2) })).dev.phase = .rx (txn 2) ∧
    [0x11#8, 0x22#8].length = (txn 2).rx := by decide

theorem witness_ConstructionMeetsTheInvariant :
    ResetDraws.zero.fifo.wf ∧ ResetDraws.zero.ctrl0 &&& 0x7FEEFFFF#32 = ResetDraws.zero.ctrl0 ∧
    ({ ResetDraws.zero with fifo := [(0x80, 1#8), (0xC5, 0xFF#8)] } : ResetDraws).fifo.wf := by decide

theorem reset_inv : State.reset.Inv := ⟨rfl, rfl, ok_idle (by decide) (by decide) (by decide)⟩

/-- The first step of P5 from reset. -/
theorem witness_StepKeepsTheInvariant : (State.reset.withFetchWord 16 0x8000).Inv ∧
    ∃ t, step (State.reset.withFetchWord 16 0x8000) = .next t :=
  ⟨⟨rfl, rfl, ok_idle (by decide) (by decide) (by decide)⟩, _, rfl⟩

theorem witness_StepNeverStops : State.reset.Inv := reset_inv

/-- Serves the statements about every next state. -/
theorem witness_StepKeepsTheParameters : ∃ t, step State.reset = .next t ∧ t.dev.havoc = false := ⟨_, rfl, rfl⟩

theorem witness_StepKeepsWhatIsSticky : ∃ t,
    step (startWith .a [] (fun d => { d with havoc := true })) = .next t ∧ t.dev.havoc = true := ⟨_, rfl, rfl⟩

theorem witness_OnlyXferDeliversARecord : (∀ k segs, Instr.setup ≠ .xfer k segs) ∧ ∃ t, exec .setup State.reset = .next t :=
  ⟨fun _ _ h => by simp at h, _, rfl⟩

theorem witness_StepOnlyAddsToTheRecord : ∃ t, step (State.reset.withFetchWord 16 0x001D) = .next t := ⟨_, rfl⟩

theorem witness_GapReassertsBusy : (startWith .a [] (fun d => { d with phase := .gap (txn 1) })).dev.phase = .gap (txn 1) ∧
    (startWith .a [] (fun d => { d with phase := .gap (txn 1) })).dev.havoc = false ∧
    (startWith .b [] (fun d => { d with phase := .gap (txn 1) })).params.version = .b := by decide


end Sys2Proof.Tests
end

section
/-! The version policy under an unknown version tag (41_version_policy.md; 43_busy_wait.md for BWAIT): the operations whose
query fails end at once with UnsupportedVersion. -/

namespace Sys2Proof.Machine

/-- R43: the gate of an operation is open when the engine is `IDLE`. -/
theorem startOp_idle {s : State} (h : s.eng.pc = .idle) (k : State → Host.Outcome State Fault Refusal) :
    startOp s k = k s := if_pos h

/-- With no access and RES written, the statements' word for the next state is the model's. -/
theorem afterRead_nil (s : State) (v : Word) : Claim.afterRead s v [] = s.setRes v := by
  simp [Claim.afterRead, State.setRes]

/-! ### The operations' meanings -/

theorem setop_other {s : State} (h : s.params.version = .other) (b : Byte) :
    setop b s = endOp .unsupportedVersion s := by
  simp only [setop, h]

theorem trig_other {s : State} (h : s.params.version = .other) : trig s = endOp .unsupportedVersion s := by
  simp only [trig, h]

theorem bwait_other {s : State} (h : s.params.version = .other) : bwait s = endOp .unsupportedVersion s := by
  simp only [bwait, busyLocation, h]

/-! ### Standalone: RES holds UnsupportedVersion's code, and nothing else changes -/

/-- An operation that ends at once with UnsupportedVersion only writes its code to RES. -/
theorem startOp_unsupported {s : State} {op : State → Status × State} (hpc : s.eng.pc = .idle)
    (h : op s = endOp .unsupportedVersion s) :
    startOp s (fun s => .next (op s).2) = .next (Claim.afterRead s 2#32 []) := by
  rw [startOp_idle hpc, h, afterRead_nil]
  rfl

theorem exec_setop_other {s : State} (hpc : s.eng.pc = .idle) (hv : s.params.version = .other) (b : Byte) :
    exec (.setop b) s = .next (Claim.afterRead s 2#32 []) :=
  startOp_unsupported hpc (setop_other hv b)

theorem exec_trig_other {s : State} (hpc : s.eng.pc = .idle) (hv : s.params.version = .other) :
    exec .trig s = .next (Claim.afterRead s 2#32 []) :=
  startOp_unsupported hpc (trig_other hv)

theorem exec_bwait_other {s : State} (hpc : s.eng.pc = .idle) (hv : s.params.version = .other) :
    exec .bwait s = .next (Claim.afterRead s 2#32 []) :=
  startOp_unsupported hpc (bwait_other hv)

/-! ### Inside XFER: the error path to FINAL (R270) -/

theorem continueWith_unsupported (s : State) (l : Label) :
    continueWith (endOp .unsupportedVersion s) l = .ok (raiseStatus .unsupportedVersion (s.setRes 2#32)) := rfl

theorem labelStep_setop_other {s : State} {b : Byte} (hpc : s.eng.pc = .setop) (hopc : s.eng.opc = some (some b))
    (hv : s.params.version = .other) :
    labelStep s = .ok (raiseStatus .unsupportedVersion (s.setRes 2#32)) := by
  simp only [labelStep, hpc, stepSetop, bind_ok, readReg_ok]
  exact ⟨some b, hopc, by simp only [setop_other hv, continueWith_unsupported]⟩

theorem labelStep_trig_other {s : State} (hpc : s.eng.pc = .trig) (hv : s.params.version = .other) :
    labelStep s = .ok (raiseStatus .unsupportedVersion (s.setRes 2#32)) := by
  simp only [labelStep, hpc, stepTrig]
  rw [trig_other hv, continueWith_unsupported]

/-- Settles O27: the operations end at once with UnsupportedVersion, whose code RES then holds; inside XFER that status takes
the error path. -/
theorem unknownVersionMakesNoAccess : Obligations.UnknownVersionMakesNoAccess := by
  unfold Obligations.UnknownVersionMakesNoAccess
  intro s b hv
  refine ⟨fun hpc => ⟨?setop, ?trig, ?bwait⟩, fun hpc hopc => ?setopInXfer, fun hpc => ?trigInXfer⟩
  case setop => exact exec_setop_other hpc hv b
  case trig => exact exec_trig_other hpc hv
  case bwait => exact exec_bwait_other hpc hv
  case setopInXfer => exact labelStep_setop_other hpc hopc hv
  case trigInXfer => exact labelStep_trig_other hpc hv

end Sys2Proof.Machine
end

section
/-! The device re-asserts busy when it leaves `GAP` (45_device_agent.md R228), and each variant polls the register that
shows it (10_state.md R25, R31). -/

namespace Sys2Proof.Machine

/-- R228: `GAP` has one transition, to `RX`, whatever the scheduler's choice. -/
theorem deviceMove_gap (p : Params) (n : Nat) {d : Device} {x : Txn} (o : Oracle) (h : d.phase = .gap x) :
    deviceMove p n d o = ({ d with phase := .rx x }, o) := by
  simp only [deviceMove, h]

/-- What a CTRL0 read gives in Variant A (R25): busy at bit 31. -/
theorem ctrl0Read_busy {p : Params} (h : p.version = .a) (d : Device) (o : Oracle) :
    (ctrl0Read p d o).1[31] = d.phase.busy := by
  obtain ⟨ex, bu, o', hread, -, hbusy, -⟩ := ctrl0Read_spec p d o
  obtain ⟨-, -, -, hbit⟩ := ctrl0Value_bits d.ctrl0 ex bu
  simp only [hread, hbit]
  exact hbusy h

/-- R25: in Variant A bit 31 of CTRL0 reads the busy flag. -/
theorem devRead32_ctrl0_busy {p : Params} {d : Device} (hv : p.version = .a) (hh : d.havoc = false) (o : Oracle) :
    (devRead32 p d .ctrl0 o).1[31] = d.phase.busy := by
  have known : p.version ≠ .other := by simp [hv]
  rw [devRead32_known known hh]
  exact ctrl0Read_busy hv d o

/-- R31: in Variant B bit 31 of STATUS reads the busy flag. -/
theorem devRead32_status_busy {p : Params} {d : Device} (hv : p.version = .b) (hh : d.havoc = false) (o : Oracle) :
    (devRead32 p d .status o).1[31] = d.phase.busy := by
  have known : p.version ≠ .other := by simp [hv]
  rw [devRead32_known known hh]
  exact statusRead_busy hv d o

/-- Settles O60: from `GAP` the device moves to `RX`, where busy is 1, and the polled register reads the busy flag. -/
theorem gapReassertsBusy : Obligations.GapReassertsBusy := by
  unfold Obligations.GapReassertsBusy
  intro p d o n x hgap hh
  rw [deviceMove_gap p n o hgap]
  refine ⟨by rw [hgap]; rfl, rfl, fun o' => ⟨fun hv => ?ctrl0, fun hv => ?status⟩⟩
  case ctrl0 => exact devRead32_ctrl0_busy (d := { d with phase := .rx x }) hv hh o'
  case status => exact devRead32_status_busy (d := { d with phase := .rx x }) hv hh o'

end Sys2Proof.Machine
end

section
/-! The operation word and its record (30_encoding.md): the decoder and the encoder are inverse to each other, and a reserved
word is the word of no operation. -/

namespace Sys2Proof

open Machine

/-! ### Decoding what the encoder gives -/

/-- A word made of its fields is read by its `op` alone: its reserved field is 0 (R81). -/
theorem decode_opWord (op : BitVec 4) (imm : BitVec 8) (r : Record) :
    decode ⟨opWord op imm, r⟩ = decodeOp op imm r := by
  simp only [decode, zField_opWord, opField_opWord, immField_opWord, if_true]

/-- Settles O3: each operation's word is made of its row's `op` and its own immediate, which the decoder reads back. -/
theorem decodeOfEncodeIsIdentity : Obligations.DecodeOfEncodeIsIdentity := by
  unfold Obligations.DecodeOfEncodeIsIdentity
  intro i
  cases i with
  | rd8 off => exact decode_opWord 0x0#4 off _
  | wr8 off v => exact decode_opWord 0x1#4 off _
  | rd32 off => exact decode_opWord 0x2#4 off _
  | wr32 off v => exact decode_opWord 0x3#4 off _
  | sc8 off a c => exact decode_opWord 0x4#4 off _
  | sc32 off a c => exact decode_opWord 0x5#4 off _
  | setup => exact decode_opWord 0x8#4 0#8 _
  | setop b => exact decode_opWord 0x9#4 b _
  | trig => exact decode_opWord 0xA#4 0#8 _
  | bwait => exact decode_opWord 0xB#4 0#8 _
  | cssel i => exact decode_opWord 0xC#4 i _
  | csdesel i => exact decode_opWord 0xD#4 i _
  | xfer i segs => exact decode_opWord 0xE#4 i _

/-! ### Encoding what decodes -/

/-- A SETUP, TRIG or BWAIT word decodes with an empty record and the immediate 0 only (R81, R84). -/
theorem decodePlain_ok {imm : BitVec 8} {r : Record} {i j : Instr} (h : decodePlain imm r i = .ok j) :
    r = .empty ∧ imm = 0#8 ∧ j = i := by
  unfold decodePlain at h
  split at h
  · split at h
    · exact ⟨rfl, ‹_›, by simpa using h.symm⟩
    · simp at h
  · simp at h

/-- What an `op`, an immediate and a record decode to has that `op`, immediate and record as its encoding (R83). -/
theorem encode_of_decodeOp {op : BitVec 4} {imm : BitVec 8} {r : Record} {i : Instr} (h : decodeOp op imm r = .ok i) :
    encode i = ⟨opWord op imm, r⟩ := by
  have hop : op = BitVec.ofNat 4 op.toNat := by simp
  rw [hop]
  unfold decodeOp at h
  split at h
  case h_7 hrow | h_9 hrow | h_10 hrow =>
    obtain ⟨rfl, rfl, rfl⟩ := decodePlain_ok h
    rw [hrow]
    rfl
  case h_14 => simp at h
  all_goals
    rename_i hrow
    split at h
    · simp only [Except.ok.injEq] at h
      rw [hrow, ← h]
      rfl
    · simp at h

/-- Settles O4: a word that decodes has the reserved field 0, so it is made of its `op` and its immediate. -/
theorem encodeOfDecodeIsIdentity : Obligations.EncodeOfDecodeIsIdentity := by
  unfold Obligations.EncodeOfDecodeIsIdentity
  intro q i h
  unfold decode at h
  split at h
  · rw [encode_of_decodeOp h, opWord_fields ‹_›]
  · simp at h

/-- Settles O1: the seven words of R89, decoded and encoded. -/
theorem workedEncodingsDecodeAndEncode : Obligations.WorkedEncodingsDecodeAndEncode := by
  unfold Obligations.WorkedEncodingsDecodeAndEncode
  decide

/-! ### Reserved words -/

/-- No operation's word is reserved (R84). -/
theorem encode_not_reserved (i : Instr) : ¬ Claim.reserved (encode i).word := by
  have word (op : BitVec 4) (imm : BitVec 8) (h : op.toNat < 6 ∨ 8 ≤ op.toNat ∧ op.toNat < 15)
      (h0 : op.toNat = 8 ∨ op.toNat = 10 ∨ op.toNat = 11 → imm = 0#8) : ¬ Claim.reserved (opWord op imm) := by
    have himm := imm.isLt
    have h0' : op.toNat = 8 ∨ op.toNat = 10 ∨ op.toNat = 11 → imm.toNat = 0 := fun hop => by simp [h0 hop]
    unfold Claim.reserved
    rw [opWord_toNat]
    omega
  cases i <;> exact word _ _ (by decide) (by simp)

/-- The decoder refuses every reserved word: what it answers for a word has that word (R84). -/
theorem decode_reserved {q : Request} (h : Claim.reserved q.word) : ∃ e, decode q = .error e := by
  rcases hd : decode q with e | i
  · exact ⟨e, rfl⟩
  · rw [← encodeOfDecodeIsIdentity q i hd] at h
    exact absurd h (encode_not_reserved i)

/-! ### The step of an idle engine -/

/-- A word that spells no operation is taken and refused (R84). -/
theorem step_illegal {s : State} {q : Request} {rest : List Request} {e : DecodeError} (hpc : s.eng.pc = .idle)
    (hr : s.requests = q :: rest) (hd : decode q = .error e) :
    step s = .next { s with requests := rest, refused := true } := by
  simp only [step, hpc, if_true, fetch, hr, hd, State.refuse]

/-- A word that spells an operation is taken and the operation run (R80). -/
theorem step_operation {s : State} {q : Request} {rest : List Request} {i : Instr} (hpc : s.eng.pc = .idle)
    (hr : s.requests = q :: rest) (hd : decode q = .ok i) : step s = exec i { s with requests := rest } := by
  simp only [step, hpc, if_true, fetch, hr, hd]

/-- With nothing handed over the device has its turn (R220). -/
theorem step_nothing {s : State} (hpc : s.eng.pc = .idle) (hr : s.requests = []) : step s = .next s.turn := by
  simp only [step, hpc, if_true, fetch, hr]

/-- Settles O2: a reserved word is no operation's word, so the decoder refuses it and the step sets the mark. -/
theorem reservedWordsAreRefused : Obligations.ReservedWordsAreRefused := by
  unfold Obligations.ReservedWordsAreRefused
  intro q hq
  obtain ⟨e, he⟩ := decode_reserved hq
  exact ⟨⟨e, he⟩, fun s rest hpc hr => step_illegal hpc hr he⟩

/-- Settles O5: the step's equation for a decoded request. -/
theorem stepRunsTheDecodedOperation : Obligations.StepRunsTheDecodedOperation := by
  unfold Obligations.StepRunsTheDecodedOperation
  intro s q rest i hpc hr hd
  exact step_operation hpc hr hd

/-- Settles O6: the step is the device's turn, which leaves a device at rest as it is. -/
theorem stepWithoutRequestMovesOnlyTheDevice : Obligations.StepWithoutRequestMovesOnlyTheDevice := by
  unfold Obligations.StepWithoutRequestMovesOnlyTheDevice
  intro s hpc hr
  refine ⟨s.turn.dev, s.turn.oracle, step_nothing hpc hr, fun hh hi => ?_⟩
  rw [State.turn_idle hh hi]
  exact ⟨rfl, rfl⟩

end Sys2Proof
end

section
/-! What each operation answers, and what every step keeps: the invariant, the construction arguments, what is sticky, and the
records of the past (10_state.md, 60_exceptions.md). -/

namespace Sys2Proof.Machine

/-! ### The operations but XFER, run by an idle engine -/

/-- What an operation but XFER does; XFER, which may fault, is left out. -/
def plainOp : Instr → State → State
  | .rd8 off => rd8 off.toNat
  | .wr8 off v => wr8 off.toNat v
  | .rd32 off => rd32 off.toNat
  | .wr32 off v => wr32 off.toNat v
  | .sc8 off a c => sc8 off.toNat a c
  | .sc32 off a c => sc32 off.toNat a c
  | .setup => setup
  | .setop b => fun s => (setop b s).2
  | .trig => fun s => (trig s).2
  | .bwait => fun s => (bwait s).2
  | .cssel i => cssel i
  | .csdesel _ => csdesel
  | .xfer _ _ => id

/-- Every operation but XFER completes (R110, R166). -/
theorem exec_plain {i : Instr} {s : State} (hi : ∀ k segs, i ≠ .xfer k segs) (hpc : s.eng.pc = .idle) :
    exec i s = .next (plainOp i s) := by
  cases i with
  | xfer k segs => exact absurd rfl (hi k segs)
  | _ => exact if_pos hpc

/-- No operation starts but from `IDLE` (R43). -/
theorem exec_busy (i : Instr) {s : State} (hpc : s.eng.pc ≠ .idle) : exec i s = .refused .operationInProgress := by
  cases i <;> exact if_neg hpc

/-- Settles O7: each operation begins with the gate of R43. -/
theorem noOperationStartsDuringAnother : Obligations.NoOperationStartsDuringAnother := by
  unfold Obligations.NoOperationStartsDuringAnother
  intro i s hpc
  exact exec_busy i hpc

/-- An operation that answers a next state has found the engine `IDLE`. -/
theorem exec_next_idle {i : Instr} {s t : State} (h : exec i s = .next t) : s.eng.pc = .idle := by
  by_contra hpc
  rw [exec_busy i hpc] at h
  simp at h

theorem wr8_keeps {off : Nat} {r : Reg8} (h : port8 off = some r) (v : Byte) (s : State) : KeepsMessage s (wr8 off v s) := by
  rw [wr8_legal h]
  exact portWrite8_keeps r v s

/-- Every operation but XFER leaves the message and the host's state alone, or is refused and changes nothing but the mark
(R45, R266). -/
theorem plainOp_frame (i : Instr) (s : State) : KeepsMessage s (plainOp i s) ∨ plainOp i s = s.refuse := by
  cases i with
  | rd8 off =>
    rcases h : port8 off.toNat with _ | r
    · exact .inr (by simp [plainOp, rd8, h])
    · exact .inl (by simpa [plainOp, rd8_legal h] using (portRead8_keeps r s).setRes _)
  | wr8 off v =>
    rcases h : port8 off.toNat with _ | r
    · exact .inr (by simp [plainOp, wr8, h])
    · exact .inl (wr8_keeps h v s)
  | rd32 off =>
    rcases h : port32 off.toNat with _ | r
    · exact .inr (by simp [plainOp, rd32, h])
    · exact .inl (by simpa [plainOp, rd32_legal h] using (portRead32_keeps r s).setRes _)
  | wr32 off v =>
    rcases h : port32 off.toNat with _ | r
    · exact .inr (by simp [plainOp, wr32, h])
    · exact .inl (by simpa [plainOp, wr32_legal h] using portWrite32_keeps r v s)
  | sc8 off a c =>
    rcases h : port8 off.toNat with _ | r
    · exact .inr (by simp [plainOp, sc8, h])
    · exact .inl (sc8_keeps h a c s)
  | sc32 off a c =>
    rcases h : port32 off.toNat with _ | r
    · exact .inr (by simp [plainOp, sc32, h])
    · exact .inl (sc32_keeps h a c s)
  | setup => exact .inl (setup_keeps s)
  | setop b => exact .inl (setop_spec b s).2
  | trig => exact .inl (trig_spec s).2
  | bwait => exact .inl (bwait_spec s).2.2
  | cssel i => exact .inl (cssel_keeps i s)
  | csdesel i => exact .inl (csdesel_keeps s)
  | xfer i segs => exact .inl (.refl s)

/-- Where the message is left alone, only RES, NPOLL and the elapsed time of the engine may have changed. -/
theorem KeepsMessage.eng {s t : State} (h : KeepsMessage s t) :
    t.eng = { s.eng with res := t.eng.res, npoll := t.eng.npoll, elapsed := t.eng.elapsed } := by
  dsimp only
  rw [← h.pc, ← h.opc, ← h.txc, ← h.rxc, ← h.cur, ← h.status, ← h.actual, ← h.msg]

/-- Settles O58: what an operation but XFER leaves, or a refusal, which leaves all but the mark. -/
theorem onlyXferDeliversARecord : Obligations.OnlyXferDeliversARecord := by
  unfold Obligations.OnlyXferDeliversARecord
  intro i s t hi h
  rw [exec_plain hi (exec_next_idle h), Host.Outcome.next.injEq] at h
  subst h
  rcases plainOp_frame i s with hk | hr
  · exact ⟨hk.completions, hk.requests, hk.eng⟩
  · rw [hr]
    exact ⟨rfl, rfl, rfl⟩

/-! ### XFER, run by an idle engine -/

/-- A message that is not admitted is refused (R182, R266). -/
theorem exec_xfer_refused {i : BitVec 8} {segs : List Segment} {s : State} (hpc : s.eng.pc = .idle)
    (h : admits segs = false) : exec (.xfer i segs) s = .next s.refuse := by
  change execXfer i segs s = _
  rw [execXfer, startOp_idle hpc]
  simp [h]

/-- At SETOP the message in progress is the caller's, and the host's state is as at the start (R184 to R187). -/
theorem programmed_keeps (i : BitVec 8) (segs : List Segment) (b : Byte) {tx : List Byte} (rx : Nat) (s : State)
    (hfit : tx.length ≤ Config.fifoCapacity) :
    (programmed tx.length rx (packed i segs b tx s)).params = s.params ∧
    (programmed tx.length rx (packed i segs b tx s)).requests = s.requests ∧
    (programmed tx.length rx (packed i segs b tx s)).completions = s.completions ∧
    (programmed tx.length rx (packed i segs b tx s)).refused = s.refused ∧
    (programmed tx.length rx (packed i segs b tx s)).eng.msg = some { cs := i, segs := segs } := by
  have kc := cssel_keeps i (startXfer i segs s)
  have kl := loadWrites_keeps 0 tx (selected i segs s) (by omega)
  simp only [programmed, packed, loaded, State.goto_params, State.goto_requests, State.goto_completions,
    State.goto_refused, State.goto_eng_msg, portWrite8_params, portWrite8_requests, portWrite8_completions,
    portWrite8_refused, portWrite8_eng, State.setOpc_params, State.setOpc_requests, State.setOpc_completions,
    State.setOpc_refused, State.setOpc_eng_msg, kl.params, kl.requests, kl.completions, kl.refused, kl.msg]
  simp only [selected, State.goto_params, State.goto_requests, State.goto_completions, State.goto_refused,
    State.goto_eng_msg, kc.params, kc.requests, kc.completions, kc.refused, kc.msg]
  exact ⟨rfl, rfl, rfl, rfl, rfl⟩

/-- An admitted message comes to FINAL with a status, and then delivers its record (R183, R193). -/
theorem exec_xfer_delivers (i : BitVec 8) {segs : List Segment} {s : State} (hpc : s.eng.pc = .idle)
    (h : admits segs = true) :
    ∃ (tx rx : Nat) (st : Status) (m : Message) (u : State) (len : Nat) (o : Oracle), AtFinal tx rx s st m u ∧
      exec (.xfer i segs) s = .next (notified m st len o (finalized u)) := by
  rcases hf : firstSend segs with _ | seg0
  · obtain ⟨len, o, e⟩ := xfer_none (i := i) hpc h hf
    have kc := cssel_keeps i (startXfer i segs s)
    refine ⟨0, 0, _, _, _, len, o, ?_, e⟩
    exact ⟨kc.params, kc.requests, kc.completions, kc.refused, rfl, rfl, kc.msg, fun h => by simp at h⟩
  · obtain ⟨b, tx, st, m, u, len, o, -, hfit, hx, e, -⟩ := xfer_some (i := i) hpc h hf
    obtain ⟨hparams, hrequests, hcompletions, hrefused, hmsg⟩ :=
      programmed_keeps i segs b (totalLen .recv segs) s (tx := tx) (by omega)
    have ha := hx.atFinal hmsg
    exact ⟨_, _, st, m, u, len, o, ⟨ha.params.trans hparams, ha.requests.trans hrequests,
      ha.completions.trans hcompletions, ha.refused.trans hrefused, ha.pc, ha.status, ha.msg, ha.actual⟩, e⟩

/-! ### Every operation completes, and the engine is `IDLE` without a message after it -/

/-- An operation on an idle engine that holds no message answers a state whose engine is again so (R43, R180, R193). -/
theorem exec_completes (i : Instr) {s : State} (hpc : s.eng.pc = .idle) (hmsg : s.eng.msg = none) :
    ∃ t, exec i s = .next t ∧ t.eng.pc = .idle ∧ t.eng.msg = none := by
  by_cases hi : ∀ k segs, i ≠ .xfer k segs
  · refine ⟨_, exec_plain hi hpc, ?_⟩
    rcases plainOp_frame i s with hk | hr
    · exact ⟨hk.pc.trans hpc, hk.msg.trans hmsg⟩
    · rw [hr]
      exact ⟨hpc, hmsg⟩
  · obtain ⟨k, segs, rfl⟩ : ∃ k segs, i = .xfer k segs := by simpa using hi
    rcases ha : admits segs with _ | _
    · exact ⟨_, exec_xfer_refused hpc ha, hpc, hmsg⟩
    · obtain ⟨-, -, st, m, u, len, o, -, e⟩ := exec_xfer_delivers k hpc ha
      exact ⟨_, e, rfl, rfl⟩

/-- A step from a state that meets the invariant answers a state whose engine is `IDLE` and without a message. -/
theorem step_completes {s : State} (h : s.Inv) : ∃ t, step s = .next t ∧ t.eng.pc = .idle ∧ t.eng.msg = none := by
  obtain ⟨hpc, hmsg, -⟩ := h
  rcases hr : s.requests with _ | ⟨q, rest⟩
  · exact ⟨_, step_nothing hpc hr, hpc, hmsg⟩
  · rcases hd : decode q with e | i
    · exact ⟨_, step_illegal hpc hr hd, hpc, hmsg⟩
    · rw [step_operation hpc hr hd]
      exact exec_completes i hpc hmsg

/-- Settles O55: such a step completes, whichever operation it hands over. -/
theorem stepNeverStops : Obligations.StepNeverStops := by
  unfold Obligations.StepNeverStops
  intro s h
  obtain ⟨t, ht, -⟩ := step_completes h
  exact ⟨t, ht⟩

/-! ### What each micro-step keeps -/

theorem micro_params {s t : State} (h : Micro s t) : t.params = s.params := by
  cases h <;> rfl

/-- No micro-step spoils the device (R34, R39, R222). -/
theorem micro_dev_ok {s t : State} (h : Micro s t) (hs : s.dev.Ok s.params) : t.dev.Ok t.params := by
  cases h with
  | turn | read8 | read32 => exact deviceTurn_ok _ hs
  | write8 r v | writeBack8 r c a k => exact devWrite8_ok r _ (deviceTurn_ok _ hs)
  | write32 r v | writeBack32 r c a k => exact devWrite32_ok r _ (deviceTurn_ok _ hs)
  | engine | refuse | deliver | take => exact hs

/-- No micro-step takes the device back (R37, R38, R40). -/
theorem micro_later {s t : State} (h : Micro s t) : s.dev.Later t.dev := by
  cases h with
  | turn | read8 | read32 => exact deviceTurn_later _ _ _
  | write8 r v | writeBack8 r c a k => exact Device.later_trans (deviceTurn_later _ _ _) (devWrite8_later _ _ r _)
  | write32 r v | writeBack32 r c a k => exact Device.later_trans (deviceTurn_later _ _ _) (devWrite32_later _ _ r _)
  | engine | refuse | deliver | take => exact Device.later_refl _

/-- No micro-step clears the refused mark (R47). -/
theorem micro_refused {s t : State} (h : Micro s t) (hs : s.refused = true) : t.refused = true := by
  cases h with
  | refuse => rfl
  | _ => exact hs

/-- A micro-step adds to the trace and to the records, and takes nothing from them (R45, R67). -/
theorem micro_record {s t : State} (h : Micro s t) : s.trace <+: t.trace ∧ s.completions <+: t.completions := by
  cases h with
  | read8 | read32 | write8 | write32 | writeBack8 | writeBack32 => exact ⟨List.prefix_append _ _, List.prefix_refl _⟩
  | deliver => exact ⟨List.prefix_refl _, List.prefix_append _ _⟩
  | turn | engine | refuse | take => exact ⟨List.prefix_refl _, List.prefix_refl _⟩

/-! ### What every step keeps -/

theorem trail_params {s t : State} (h : Trail s t) : t.params = s.params :=
  h.keeps (P := fun u => u.params = s.params) (fun _ _ hm hu => (micro_params hm).trans hu) rfl

theorem trail_dev_ok {s t : State} (h : Trail s t) (hs : s.dev.Ok s.params) : t.dev.Ok t.params :=
  h.keeps (P := fun u => u.dev.Ok u.params) (fun _ _ hm hu => micro_dev_ok hm hu) hs

theorem trail_later {s t : State} (h : Trail s t) : s.dev.Later t.dev :=
  h.keeps (P := fun u => s.dev.Later u.dev) (fun _ _ hm hu => Device.later_trans hu (micro_later hm)) (Device.later_refl _)

theorem trail_refused {s t : State} (h : Trail s t) (hs : s.refused = true) : t.refused = true :=
  h.keeps (P := fun u => u.refused = true) (fun _ _ hm hu => micro_refused hm hu) hs

theorem trail_record {s t : State} (h : Trail s t) : s.trace <+: t.trace ∧ s.completions <+: t.completions :=
  h.keeps (P := fun u => s.trace <+: u.trace ∧ s.completions <+: u.completions)
    (fun _ _ hm hu => ⟨hu.1.trans (micro_record hm).1, hu.2.trans (micro_record hm).2⟩)
    ⟨List.prefix_refl _, List.prefix_refl _⟩

/-- Settles O54: the step completes with the engine `IDLE` and without a message, and each of its micro-steps keeps the
device. -/
theorem stepKeepsTheInvariant : Obligations.StepKeepsTheInvariant := by
  unfold Obligations.StepKeepsTheInvariant
  intro s t hs h
  obtain ⟨t', ht', hpc, hmsg⟩ := step_completes hs
  obtain rfl : t' = t := by simpa using ht'.symm.trans h
  exact ⟨hpc, hmsg, trail_dev_ok (step_trail h) hs.dev_ok⟩

/-- Settles O56: no micro-step of the step's trail changes them. -/
theorem stepKeepsTheParameters : Obligations.StepKeepsTheParameters := by
  unfold Obligations.StepKeepsTheParameters
  intro s t h
  exact trail_params (step_trail h)

/-- Settles O57: no micro-step takes the device back or clears the mark. -/
theorem stepKeepsWhatIsSticky : Obligations.StepKeepsWhatIsSticky := by
  unfold Obligations.StepKeepsWhatIsSticky
  intro s t h
  obtain ⟨hhavoc, hclean⟩ := trail_later (step_trail h)
  refine ⟨hhavoc, trail_refused (step_trail h), fun hh => ⟨(hclean hh).1, ?_⟩⟩
  obtain ⟨l, hl⟩ := (hclean hh).2
  exact ⟨l, hl.symm⟩

/-- Settles O59: each micro-step adds one access or one record, or none. -/
theorem stepOnlyAddsToTheRecord : Obligations.StepOnlyAddsToTheRecord := by
  unfold Obligations.StepOnlyAddsToTheRecord
  intro s t h
  obtain ⟨⟨l, hl⟩, ⟨l', hl'⟩⟩ := trail_record (step_trail h)
  exact ⟨⟨l, hl.symm⟩, ⟨l', hl'.symm⟩⟩

/-! ### Construction (R300) -/

/-- Settles O52: the table of R300 read off the construction. -/
theorem constructionIsTheResetState : Obligations.ConstructionIsTheResetState := by
  unfold Obligations.ConstructionIsTheResetState
  intro p d
  exact ⟨rfl, rfl, rfl, rfl, rfl, rfl, rfl, rfl, rfl, rfl, rfl, rfl, rfl, rfl, rfl, rfl, rfl, rfl, rfl, rfl, rfl, rfl,
    rfl, rfl⟩

/-- A machine constructed with draws of the cells and of CTRL0's storage bits meets the invariant: no transaction is in
progress. -/
theorem construct_inv (p : Params) {d : ResetDraws} (hf : d.fifo.wf) (hc : d.ctrl0 &&& ctrl0Storage = d.ctrl0) :
    (State.construct p d).Inv :=
  ⟨rfl, rfl, hf, hc, fun _ t ht => by simp [State.construct, Device.reset, Phase.txn] at ht⟩

/-- Settles O53: what the draws must meet is the hypothesis, and the reset state's draws meet it. -/
theorem constructionMeetsTheInvariant : Obligations.ConstructionMeetsTheInvariant := by
  unfold Obligations.ConstructionMeetsTheInvariant
  exact ⟨fun p d hf hc => construct_inv p hf hc, construct_inv _ (by decide) (by decide)⟩

end Sys2Proof.Machine
end

section
/-! Register access of a device at rest (40_register_access.md R101 to R109, 10_state.md): what each register reads and stores,
said once per register, and the operations built on it. -/

namespace Sys2Proof.Machine

/-! ### The port operations of an idle engine -/

theorem exec_rd8 {s : State} (hpc : s.eng.pc = .idle) (off : BitVec 8) :
    exec (.rd8 off) s = .next (rd8 off.toNat s) := if_pos hpc

theorem exec_wr8 {s : State} (hpc : s.eng.pc = .idle) (off : BitVec 8) (v : Byte) :
    exec (.wr8 off v) s = .next (wr8 off.toNat v s) := if_pos hpc

theorem exec_rd32 {s : State} (hpc : s.eng.pc = .idle) (off : BitVec 8) :
    exec (.rd32 off) s = .next (rd32 off.toNat s) := if_pos hpc

theorem exec_wr32 {s : State} (hpc : s.eng.pc = .idle) (off : BitVec 8) (v : Word) :
    exec (.wr32 off v) s = .next (wr32 off.toNat v s) := if_pos hpc

theorem exec_sc8 {s : State} (hpc : s.eng.pc = .idle) (off : BitVec 8) (a c : Byte) :
    exec (.sc8 off a c) s = .next (sc8 off.toNat a c s) := if_pos hpc

theorem exec_sc32 {s : State} (hpc : s.eng.pc = .idle) (off : BitVec 8) (a c : Word) :
    exec (.sc32 off a c) s = .next (sc32 off.toNat a c s) := if_pos hpc

/-! ### Legality (R109) -/

/-- A legal offset of width 8 names a register. -/
theorem legal8_port {off : BitVec 8} (h : Claim.legal8 off) : ∃ r, port8 off.toNat = some r :=
  Option.isSome_iff_exists.1 ((Claim.legal8_iff off).1 h)

/-- A legal offset of width 32 names a register. -/
theorem legal32_port {off : BitVec 8} (h : Claim.legal32 off) : ∃ r, port32 off.toNat = some r :=
  Option.isSome_iff_exists.1 ((Claim.legal32_iff off).1 h)

theorem port8_illegal {off : BitVec 8} (h : ¬ Claim.legal8 off) : port8 off.toNat = none := by
  rw [Claim.legal8_iff] at h
  simpa using h

theorem port32_illegal {off : BitVec 8} (h : ¬ Claim.legal32 off) : port32 off.toNat = none := by
  rw [Claim.legal32_iff] at h
  simpa using h

/-- Settles O8: at an offset that names no register the operation is refused; at one that does it is made of accesses, which
leave the mark alone. -/
theorem portLegality : Obligations.PortLegality := by
  unfold Obligations.PortLegality
  intro s off v a c v' a' c' hpc
  rw [exec_rd8 hpc, exec_wr8 hpc, exec_sc8 hpc, exec_rd32 hpc, exec_wr32 hpc, exec_sc32 hpc]
  refine ⟨fun h => ?illegal8, fun h => ?illegal32, fun h => ?legal8, fun h => ?legal32⟩
  case illegal8 =>
    simp only [rd8, wr8, sc8, port8_illegal h]
    exact ⟨rfl, rfl, rfl⟩
  case illegal32 =>
    simp only [rd32, wr32, sc32, port32_illegal h]
    exact ⟨rfl, rfl, rfl⟩
  case legal8 =>
    obtain ⟨r, hp⟩ := legal8_port h
    rw [rd8_legal hp, wr8_legal hp, sc8_legal hp]
    exact ⟨⟨_, rfl, rfl⟩, ⟨_, rfl, rfl⟩, ⟨_, rfl, rfl⟩⟩
  case legal32 =>
    obtain ⟨r, hp⟩ := legal32_port h
    rw [rd32_legal hp, wr32_legal hp, sc32_legal hp]
    exact ⟨⟨_, rfl, rfl⟩, ⟨_, rfl, rfl⟩, ⟨_, rfl, rfl⟩⟩

/-! ### The byte registers at rest -/

/-- What a byte register of a device at rest holds (R27 to R34). -/
def Reg8.held (d : Device) : Reg8 → Byte
  | .cs => d.cs
  | .opcode => d.opcode
  | .trigger => d.trigger.setWidth 8
  | .txCount => d.txCount
  | .rxCount => d.rxCount
  | .fifo i => d.fifo.read (Config.fifoBase + i.val)

/-- The device with a byte stored in a register, TRIGGER's bit 7 apart (R27 to R34). -/
def Reg8.stored (d : Device) (v : Byte) : Reg8 → Device
  | .cs => { d with cs := v }
  | .opcode => { d with opcode := v }
  | .trigger => { d with trigger := v.setWidth 7 }
  | .txCount => { d with txCount := v }
  | .rxCount => { d with rxCount := v }
  | .fifo i => { d with fifo := d.fifo.write (Config.fifoBase + i.val) v }

/-- A register that is the variant's own: OPCODE and TRIGGER are Variant B's (R29, R30, R35). -/
abbrev Reg8.OfVersion (ver : Version) (r : Reg8) : Prop := r = .opcode ∨ r = .trigger → ver = .b

/-- A read of a device at rest gives what the register holds and draws nothing (R105). -/
theorem devRead8_held {p : Params} {d : Device} {r : Reg8} (hv : p.version ≠ .other) (hh : d.havoc = false)
    (hi : d.phase = .idle) (hr : r.OfVersion p.version) (o : Oracle) : devRead8 p d r o = (r.held d, o) := by
  cases r with
  | opcode => simp [devRead8, hh, hr (.inl rfl), Reg8.held]
  | trigger => simp [devRead8, triggerRead, hh, hi, hr (.inr rfl), Reg8.held, Phase.isIdle]
  | _ => simp [devRead8, hv, hh, hi, Reg8.held, Phase.isIdle]

/-- A write to a device at rest that triggers nothing stores its byte (R106). -/
theorem devWrite8_stored {p : Params} {d : Device} {r : Reg8} {v : Byte} (hv : p.version ≠ .other) (hh : d.havoc = false)
    (hi : d.phase = .idle) (hr : r.OfVersion p.version) (h7 : r = .trigger → v[7] = false) :
    devWrite8 p d r v = r.stored d v := by
  cases r with
  | opcode => simp [devWrite8, hh, hi, hr (.inl rfl), Reg8.stored, Phase.isIdle]
  | trigger => simp [devWrite8, triggerWrite, hh, hi, hr (.inr rfl), h7 rfl, Reg8.stored, Phase.isIdle]
  | _ => simp [devWrite8, hv, hh, hi, Reg8.stored, Phase.isIdle]

/-- A write of OPCODE or TRIGGER in Variant A sets havoc (R35). -/
theorem devWrite8_absent {p : Params} {d : Device} {r : Reg8} (hv : p.version = .a) (hh : d.havoc = false)
    (hr : r = .opcode ∨ r = .trigger) (v : Byte) : devWrite8 p d r v = { d with havoc := true } := by
  rcases hr with rfl | rfl <;> simp [devWrite8, triggerWrite, hv, hh, Device.setHavoc]

/-- RD8 of a device at rest (R101). -/
theorem exec_rd8_quiet {s : State} (hq : s.quiet) {off : BitVec 8} {r : Reg8} (hp : port8 off.toNat = some r)
    (hr : r.OfVersion s.params.version) :
    exec (.rd8 off) s = .next (Claim.afterRead s ((r.held s.dev).setWidth 32) [.rd8 r.offset (r.held s.dev)]) := by
  obtain ⟨hpc, hh, hi, hv⟩ := hq
  rw [exec_rd8 hpc, rd8_legal hp, portRead8_rest hh hi, devRead8_held hv hh hi hr]
  rfl

/-- WR8 to a device at rest (R102). -/
theorem exec_wr8_quiet {s : State} (hq : s.quiet) {off : BitVec 8} {r : Reg8} (hp : port8 off.toNat = some r) (v : Byte) :
    exec (.wr8 off v) s = .next (Claim.afterWrite s (devWrite8 s.params s.dev r v) [.wr8 r.offset v]) := by
  obtain ⟨hpc, hh, hi, -⟩ := hq
  rw [exec_wr8 hpc, wr8_legal hp, portWrite8_rest hh hi]
  rfl

/-- A value that shares no bit with a mask is as it is without the mask's bits. -/
theorem and_not_of_and_zero {w : Nat} {v m : BitVec w} (h : v &&& m = 0#w) : v &&& ~~~m = v := by
  have hbit : ∀ i, (v.getLsbD i && m.getLsbD i) = false := fun i => by rw [← BitVec.getLsbD_and, h, BitVec.getLsbD_zero]
  apply BitVec.eq_of_getLsbD_eq
  intro i hi
  have := hbit i
  rw [BitVec.getLsbD_and, BitVec.getLsbD_not]
  cases hv : v.getLsbD i <;> simp_all

/-- No register of a device at rest holds a self-clearing bit (R30). -/
theorem held_noStale (r : Reg8) (d : Device) : r.held d &&& ~~~r.selfClearing = r.held d := by
  by_cases ht : r = .trigger
  · subst ht
    refine and_not_of_and_zero (BitVec.eq_of_getLsbD_eq fun i hi => ?_)
    have hbit : ∀ i < 7, Reg8.trigger.selfClearing.getLsbD i = false := by decide
    rw [BitVec.getLsbD_and, BitVec.getLsbD_zero]
    rcases Nat.lt_or_ge i 7 with h7 | h7
    · rw [hbit i h7, Bool.and_false]
    · simp [Reg8.held, BitVec.getLsbD_of_ge _ _ h7]
  · exact Reg8.selfClearing_of_ne ht _

/-- SC8 of a device at rest (R107). -/
theorem sc8_rest {s : State} (hh : s.dev.havoc = false) (hi : s.dev.phase = .idle) (hv : s.params.version ≠ .other)
    {off : Nat} {r : Reg8} (hp : port8 off = some r) (hr : r.OfVersion s.params.version) (a c : Byte) :
    sc8 off a c s =
      Claim.afterBoth s (devWrite8 s.params s.dev r (setClear (r.held s.dev) a c)) ((r.held s.dev).setWidth 32)
        [.rd8 r.offset (r.held s.dev), .wr8 r.offset (setClear (r.held s.dev) a c)] := by
  rw [sc8_legal hp, portRead8_rest hh hi, devRead8_held hv hh hi hr, portWriteBack8_eq (held_noStale r _),
    portWrite8_rest (by exact hh) (by exact hi)]
  simp [Claim.afterBoth, State.setRes]

/-- The offset of FIFO cell `k`, as an operand, names it (R62, R86). -/
theorem port8_cell {k : Nat} (hk : k < 70) : port8 (BitVec.ofNat 8 (0x80 + k)).toNat = some (.fifo ⟨k, hk⟩) := by
  rw [BitVec.toNat_ofNat, Nat.mod_eq_of_lt (by omega)]
  exact port8_fifo hk

/-- Settles O9: each register's read gives what it holds. -/
theorem readByteOfAQuietDevice : Obligations.ReadByteOfAQuietDevice := by
  unfold Obligations.ReadByteOfAQuietDevice
  intro s hq
  refine ⟨exec_rd8_quiet hq (r := .cs) rfl (by simp), exec_rd8_quiet hq (r := .txCount) rfl (by simp),
    exec_rd8_quiet hq (r := .rxCount) rfl (by simp), fun k hk => ?cell, fun hb => ⟨?opcode, ?trigger⟩⟩
  case cell => exact exec_rd8_quiet hq (port8_cell hk) (by simp)
  case opcode => exact exec_rd8_quiet hq (r := .opcode) rfl (fun _ => hb)
  case trigger =>
    have h := exec_rd8_quiet hq (off := 0x47#8) (r := .trigger) rfl (fun _ => hb)
    rwa [Reg8.held, BitVec.setWidth_setWidth (by decide)] at h

/-- What a write of a FIFO cell leaves in the cells (R34, R106). -/
theorem stored_cell {k : Nat} (hk : k < 70) (d : Device) (v : Byte) :
    (Reg8.fifo ⟨k, hk⟩).stored d v = { d with fifo := d.fifo.write (0x80 + k) v } ∧
      (∀ a, a ≠ 0x80 + k → (d.fifo.write (0x80 + k) v).read a = d.fifo.read a) ∧
      (d.fifo.wf → (d.fifo.write (0x80 + k) v).read (0x80 + k) = v) :=
  ⟨rfl, fun a ha => Memory.read_write_other _ _ a v ha, fun hw => Memory.read_write_same _ _ v hw.1⟩

/-- Settles O14: each register of the variant stores the byte, and one the variant lacks sets havoc. -/
theorem writeByteOfAQuietDevice : Obligations.WriteByteOfAQuietDevice := by
  unfold Obligations.WriteByteOfAQuietDevice
  intro s v hq
  obtain ⟨-, hh, hi, hv⟩ := id hq
  have write {off : BitVec 8} {r : Reg8} (hp : port8 off.toNat = some r) (hr : r.OfVersion s.params.version)
      (h7 : r = .trigger → v[7] = false) :
      exec (.wr8 off v) s = .next (Claim.afterWrite s (r.stored s.dev v) [.wr8 r.offset v]) := by
    rw [exec_wr8_quiet hq hp, devWrite8_stored hv hh hi hr h7]
  refine ⟨write (r := .cs) rfl (by simp) (by simp), write (r := .txCount) rfl (by simp) (by simp),
    write (r := .rxCount) rfl (by simp) (by simp), fun k hk => ?cell, fun hb => ⟨?opcode, fun h7 => ?trigger⟩,
    fun ha => ⟨?noOpcode, ?noTrigger⟩⟩
  case cell =>
    obtain ⟨hm, hother, hsame⟩ := stored_cell hk s.dev v
    exact ⟨_, write (port8_cell hk) (by simp) (by simp), hother, hsame⟩
  case opcode => exact write (r := .opcode) rfl (fun _ => hb) (by simp)
  case trigger =>
    rw [BitVec.ofNat_toNat]
    exact write (r := .trigger) rfl (fun _ => hb) (fun _ => h7)
  case noOpcode =>
    rw [exec_wr8_quiet hq (r := .opcode) rfl, devWrite8_absent ha hh (.inl rfl)]
    rfl
  case noTrigger =>
    rw [exec_wr8_quiet hq (r := .trigger) rfl, devWrite8_absent ha hh (.inr rfl)]
    rfl

/-- Settles O18: the value read is what the register holds, and the value stored is made of it. -/
theorem setClearByteOfAQuietDevice : Obligations.SetClearByteOfAQuietDevice := by
  unfold Obligations.SetClearByteOfAQuietDevice
  intro s a c ⟨hpc, hh, hi, hv⟩
  have setClear8 {off : BitVec 8} {r : Reg8} (hp : port8 off.toNat = some r) (hr : r.OfVersion s.params.version)
      (ht : r ≠ .trigger) : exec (.sc8 off a c) s =
        .next (Claim.afterBoth s (r.stored s.dev (setClear (r.held s.dev) a c)) ((r.held s.dev).setWidth 32)
          [.rd8 r.offset (r.held s.dev), .wr8 r.offset (setClear (r.held s.dev) a c)]) := by
    rw [exec_sc8 hpc, sc8_rest hh hi hv hp hr, devWrite8_stored hv hh hi hr (fun h => absurd h ht)]
  refine ⟨setClear8 (r := .cs) rfl (by simp) (by simp), setClear8 (r := .txCount) rfl (by simp) (by simp),
    setClear8 (r := .rxCount) rfl (by simp) (by simp), fun hb => setClear8 (r := .opcode) rfl (fun _ => hb) (by simp),
    fun k hk => ?_⟩
  obtain ⟨hm, hother, hsame⟩ := stored_cell hk s.dev (setClear (s.dev.fifo.read (0x80 + k)) a c)
  exact ⟨_, setClear8 (port8_cell hk) (by simp) (by simp), hother, hsame⟩

/-! ### The trigger (R221 to R223, R231) -/

/-- A trigger that R222 accepts starts the transaction the registers describe. -/
theorem triggerDevice_accepted {p : Params} {d : Device} {op : Byte} (h : Claim.canTrigger d)
    (hop : op = if p.version = .a then BitVec.ofNat 8 d.ctrl0.toNat else d.opcode) :
    triggerDevice p d = Claim.triggered d op := by
  obtain ⟨hptr, hcount⟩ := h
  have capture : captureTxn p d =
      { cs := BitVec.ofNat 2 d.cs.toNat, op := op, tx := d.txCount.toNat, rx := d.rxCount.toNat,
        txbytes := (List.range d.txCount.toNat).map (fun j => d.fifo.read (0x80 + j)) } := by
    have hcs : d.cs.extractLsb' 0 2 = BitVec.ofNat 2 d.cs.toNat := BitVec.eq_of_toNat_eq (by simp)
    rw [captureTxn, hop, Memory.bytes_eq_map, lowByte_eq, hcs]
  rcases triggerDevice_cases p d with ⟨hno | hno, -⟩ | ⟨-, -, e⟩
  · simp [hptr] at hno
  · exact absurd hcount (Nat.not_le.2 hno)
  · rw [e, capture]
    rfl

/-- A trigger that R222 does not accept sets havoc. -/
theorem triggerDevice_refused {p : Params} {d : Device} (h : ¬ Claim.canTrigger d) :
    triggerDevice p d = { d with havoc := true } := by
  rcases triggerDevice_cases p d with ⟨-, e⟩ | ⟨hptr, hcount, -⟩
  · exact e
  · exact absurd ⟨hptr, hcount⟩ h

/-- A write of TRIGGER with bit 7 set stores bits 6:0 and triggers (R30, R106). -/
theorem devWrite8_trigger {p : Params} {d : Device} {v : Byte} (hb : p.version = .b) (hh : d.havoc = false)
    (hi : d.phase = .idle) (h7 : v[7] = true) :
    devWrite8 p d .trigger v = triggerDevice p { d with trigger := v.setWidth 7 } := by
  simp [devWrite8, triggerWrite, hb, hh, hi, h7, Phase.isIdle]

/-- Settles O15: the write stores bits 6:0, and the trigger is accepted or refused by R222. -/
theorem writeTriggerRegister : Obligations.WriteTriggerRegister := by
  unfold Obligations.WriteTriggerRegister
  intro s v hq hb h7
  obtain ⟨-, hh, hi, -⟩ := id hq
  rw [exec_wr8_quiet hq (r := .trigger) rfl, devWrite8_trigger hb hh hi h7, BitVec.ofNat_toNat]
  refine ⟨fun h => ?accepted, fun h => ?refused⟩
  case accepted =>
    rw [triggerDevice_accepted (op := s.dev.opcode) (by exact h) (by simp [hb])]
    rfl
  case refused =>
    rw [triggerDevice_refused (by exact h)]
    rfl

/-! ### CTRL0 and STATUS at rest -/

/-- Without bit 16 a CTRL0 write stores (R106). -/
theorem ctrl0Write_store {v : Word} (h16 : v[16] = false) (p : Params) (d : Device) :
    ctrl0Write p d v = ctrl0Stored d v := by
  simp [ctrl0Write, ctrl0Stored, h16]

/-- Bits 16 and 20 together set havoc (R267). -/
theorem ctrl0Write_both {v : Word} (h16 : v[16] = true) (h20 : v[20] = true) (p : Params) (d : Device) :
    ctrl0Write p d v = { d with havoc := true } := by
  simp [ctrl0Write, h16, h20, Device.setHavoc]

/-- Bit 16 alone triggers in Variant A (R23). -/
theorem ctrl0Write_trigger {p : Params} {v : Word} (ha : p.version = .a) (h16 : v[16] = true) (h20 : v[20] = false)
    (d : Device) : ctrl0Write p d v = triggerDevice p { d with ctrl0 := v &&& 0x7FEEFFFF#32 } := by
  simp [ctrl0Write, ha, h16, h20, ctrl0Storage_eq]

/-- Bit 16 alone sets havoc in Variant B (R23). -/
theorem ctrl0Write_noExec {p : Params} {v : Word} (hb : p.version = .b) (h16 : v[16] = true) (h20 : v[20] = false)
    (d : Device) : ctrl0Write p d v = { d with ctrl0 := v &&& 0x7FEEFFFF#32, havoc := true } := by
  simp [ctrl0Write, hb, h16, h20, ctrl0Storage_eq, Device.setHavoc]

/-- What a triggering CTRL0 write of Variant A leaves: the storage bits, and the transaction with the written low byte as its
opcode, or havoc (R221 to R223). -/
theorem ctrl0Write_triggers {p : Params} {v : Word} (ha : p.version = .a) (h16 : v[16] = true) (h20 : v[20] = false)
    (d : Device) :
    (Claim.canTrigger d → ctrl0Write p d v =
      Claim.triggered { d with ctrl0 := v &&& 0x7FEEFFFF#32 } (BitVec.ofNat 8 v.toNat)) ∧
    (¬ Claim.canTrigger d → ctrl0Write p d v = { d with ctrl0 := v &&& 0x7FEEFFFF#32, havoc := true }) := by
  rw [ctrl0Write_trigger ha h16 h20]
  refine ⟨fun h => triggerDevice_accepted (by exact h) ?_, fun h => triggerDevice_refused (by exact h)⟩
  rw [if_pos ha, ← lowByte_storage, lowByte_eq, ctrl0Storage_eq]

/-- A CTRL0 write to an idle device without havoc (R106). -/
theorem devWrite32_ctrl0 {p : Params} {d : Device} (hv : p.version ≠ .other) (hh : d.havoc = false) (hi : d.phase = .idle)
    (v : Word) : devWrite32 p d .ctrl0 v = ctrl0Write p d v := by
  simp [devWrite32, hv, hh, hi, Phase.isIdle]

/-- A STATUS write sets havoc (R31). -/
theorem devWrite32_status {p : Params} {d : Device} (hh : d.havoc = false) (v : Word) :
    devWrite32 p d .status v = { d with havoc := true } := by
  simp [devWrite32, hh, Device.setHavoc]

/-- WR32 to a device at rest (R104). -/
theorem exec_wr32_quiet {s : State} (hq : s.quiet) {off : BitVec 8} {r : Reg32} (hp : port32 off.toNat = some r)
    (v : Word) :
    exec (.wr32 off v) s = .next (Claim.afterWrite s (devWrite32 s.params s.dev r v) [.wr32 r.offset v]) := by
  obtain ⟨hpc, hh, hi, -⟩ := hq
  rw [exec_wr32 hpc, wr32_legal hp, portWrite32_rest hh hi]
  rfl

/-- WR32 of CTRL0 to a device at rest. -/
theorem exec_wr32_ctrl0 {s : State} (hq : s.quiet) (v : Word) :
    exec (.wr32 0x00#8 v) s = .next (Claim.afterWrite s (ctrl0Write s.params s.dev v) [.wr32 0x00 v]) := by
  obtain ⟨-, hh, hi, hv⟩ := id hq
  rw [exec_wr32_quiet hq (r := .ctrl0) rfl, devWrite32_ctrl0 hv hh hi]
  rfl

/-- Settles O16: the cases of bits 16 and 20, and STATUS. -/
theorem writeWordOfAQuietDevice : Obligations.WriteWordOfAQuietDevice := by
  unfold Obligations.WriteWordOfAQuietDevice
  intro s v hq
  rw [exec_wr32_ctrl0 hq]
  refine ⟨fun h16 => ?store, fun h16 h20 => ?both, fun h16 h20 hb => ?exec, ?status⟩
  case store => rw [ctrl0Write_store h16]; rfl
  case both => rw [ctrl0Write_both h16 h20]
  case exec => rw [ctrl0Write_noExec hb h16 h20]
  case status =>
    rw [exec_wr32_quiet hq (r := .status) rfl, devWrite32_status hq.2.1]
    rfl

/-- Settles O17: the general trigger, its opcode the low byte of the value written. -/
theorem writeControlRegisterTriggers : Obligations.WriteControlRegisterTriggers := by
  unfold Obligations.WriteControlRegisterTriggers
  intro s v hq ha h16 h20
  obtain ⟨accepted, refused⟩ := ctrl0Write_triggers ha h16 h20 s.dev
  rw [exec_wr32_ctrl0 hq]
  exact ⟨fun h => by rw [accepted h], fun h => by rw [refused h]⟩

/-- A read of CTRL0 of a Variant A device at rest draws nothing (R105). -/
theorem devRead32_ctrl0_rest {p : Params} {d : Device} (ha : p.version = .a) (hh : d.havoc = false) (hi : d.phase = .idle)
    (o : Oracle) : devRead32 p d .ctrl0 o = (Claim.ctrl0Idle d, o) := by
  simp [devRead32, ctrl0Read, ha, hh, hi, Phase.isIdle, Phase.busy, bitAt, Claim.ctrl0Idle, ctrl0Storage_eq]

/-- The bits of CTRL0 a known variant without havoc reads, in every phase (R22 to R26, R105). -/
theorem devRead32_ctrl0_bits {p : Params} {d : Device} (hv : p.version ≠ .other) (hh : d.havoc = false) (o : Oracle) :
    (devRead32 p d .ctrl0 o).1 &&& ctrl0Storage = d.ctrl0 &&& ctrl0Storage ∧
    (devRead32 p d .ctrl0 o).1[20] = false ∧ (d.phase = .idle → (devRead32 p d .ctrl0 o).1[16] = false) ∧
    (p.version = .a → (devRead32 p d .ctrl0 o).1[31] = d.phase.busy) := by
  obtain ⟨ex, bu, o', hread, hexec, hbusy, -⟩ := ctrl0Read_spec p d o
  obtain ⟨hstore, h16, h20, h31⟩ := ctrl0Value_bits d.ctrl0 ex bu
  simp only [devRead32_known hv hh, hread, hstore, h16, h20, h31]
  exact ⟨trivial, trivial, hexec, hbusy⟩

/-- A value of CTRL0 with bits 16 and 20 clear has no stale bit (R23, R24). -/
theorem ctrl0_noStale {x : Word} (h16 : x[16] = false) (h20 : x[20] = false) : x &&& ~~~Reg32.ctrl0.selfClearing = x := by
  refine and_not_of_and_zero (BitVec.eq_of_getLsbD_eq fun i hi => ?_)
  have hbit : ∀ i < 32, i ≠ 16 → i ≠ 20 → Reg32.ctrl0.selfClearing.getLsbD i = false := by decide
  rw [BitVec.getLsbD_and, BitVec.getLsbD_zero]
  by_cases k16 : i = 16
  · subst k16
    exact Bool.and_eq_false_imp.2 fun h => absurd (h.symm.trans h16) (by simp)
  by_cases k20 : i = 20
  · subst k20
    exact Bool.and_eq_false_imp.2 fun h => absurd (h.symm.trans h20) (by simp)
  · rw [hbit i hi k16 k20, Bool.and_false]

/-- SC32 of CTRL0 of a device at rest: the value read has no stale bit, so it is written back as SC32 makes it (R108). -/
theorem sc32_rest {s : State} (hv : s.params.version ≠ .other) (hh : s.dev.havoc = false) (hi : s.dev.phase = .idle)
    (a c : Word) {v : Word} {o : Oracle} (hread : devRead32 s.params s.dev .ctrl0 s.oracle = (v, o)) :
    sc32 Reg32.ctrl0.offset a c s =
      { Claim.afterBoth s (ctrl0Write s.params s.dev (setClear v a c)) v
          [.rd32 0x00 v, .wr32 0x00 (setClear v a c)] with oracle := o } := by
  obtain ⟨-, h20, h16, -⟩ := devRead32_ctrl0_bits hv hh s.oracle
  simp only [hread] at h20 h16
  rw [sc32_legal (port32_offset .ctrl0), portRead32_rest hh hi, hread, portWriteBack32_eq (ctrl0_noStale (h16 hi) h20),
    portWrite32_rest (by exact hh) (by exact hi)]
  simp only [State.setRes_params, State.setRes_dev, devWrite32_ctrl0 hv hh hi]
  simp [Claim.afterBoth, State.setRes, Reg32.offset]

/-- SC32 of CTRL0 of a Variant A device at rest draws nothing (R108). -/
theorem sc32_rest_a {s : State} (ha : s.params.version = .a) (hh : s.dev.havoc = false) (hi : s.dev.phase = .idle)
    (a c : Word) :
    sc32 Reg32.ctrl0.offset a c s =
      Claim.afterBoth s (ctrl0Write s.params s.dev (setClear (Claim.ctrl0Idle s.dev) a c)) (Claim.ctrl0Idle s.dev)
        [.rd32 0x00 (Claim.ctrl0Idle s.dev), .wr32 0x00 (setClear (Claim.ctrl0Idle s.dev) a c)] :=
  sc32_rest (by simp [ha]) hh hi a c (devRead32_ctrl0_rest ha hh hi s.oracle)

/-- Settles O19: the value written has bit 16 clear, as the value read has, so it is stored. -/
theorem setClearWordOfAQuietDevice : Obligations.SetClearWordOfAQuietDevice := by
  unfold Obligations.SetClearWordOfAQuietDevice
  rintro s a c ⟨hpc, hh, hi, -⟩ ha h16
  have bits : (setClear (Claim.ctrl0Idle s.dev) a c)[16] = a[16] ∧ (setClear (Claim.ctrl0Idle s.dev) a c)[20] = a[20] := by
    simp [setClear, Claim.ctrl0Idle, show (0x7FEEFFFF#32)[16] = false from rfl, show (0x7FEEFFFF#32)[20] = false from rfl]
  rw [exec_sc32 hpc, show (0x00#8).toNat = Reg32.ctrl0.offset from rfl, sc32_rest_a ha hh hi,
    ctrl0Write_store (bits.1.trans h16), ctrl0Stored, bits.2]
  rfl

end Sys2Proof.Machine
end

section
/-! Register access in every phase (40_register_access.md R101 to R111): an access follows the device's turn, a read changes no
device state, a drawn read may give any value, and a read-modify-write is a read and a write. -/

namespace Sys2Proof.Machine

/-! ### Reads -/

/-- Settles O10: a read is the device's turn, a draw at most, RES and the trace. -/
theorem readsChangeNoDeviceState : Obligations.ReadsChangeNoDeviceState := by
  unfold Obligations.ReadsChangeNoDeviceState
  intro s off hpc
  refine ⟨fun h => ?byte, fun h => ?word⟩
  case byte =>
    obtain ⟨r, hp⟩ := legal8_port h
    rw [exec_rd8 hpc, rd8_legal hp, ← offset_of_port8 hp]
    exact ⟨(portRead8 r s).1, (portRead8 r s).2.oracle, rfl⟩
  case word =>
    obtain ⟨r, hp⟩ := legal32_port h
    rw [exec_rd32 hpc, rd32_legal hp, ← offset_of_port32 hp]
    exact ⟨(portRead32 r s).1, (portRead32 r s).2.oracle, rfl⟩

/-- Settles O11: the bits of the value read after the turn; a Variant A device at rest draws nothing. -/
theorem readControlRegister : Obligations.ReadControlRegister := by
  unfold Obligations.ReadControlRegister
  intro s hpc hv hh
  rw [exec_rd32 hpc, rd32_legal (r := .ctrl0) rfl]
  refine ⟨⟨(portRead32 .ctrl0 s).1, _, rfl, rfl, rfl, devRead32_ctrl0_bits hv hh _⟩, fun ha hq => ?_⟩
  obtain ⟨-, hh0, hi, -⟩ := hq
  rw [portRead32_rest hh0 hi, devRead32_ctrl0_rest ha hh0 hi]
  rfl

/-- Settles O12: bit 31 of the word read is busy, whatever else is drawn. -/
theorem readStatusRegister : Obligations.ReadStatusRegister := by
  unfold Obligations.ReadStatusRegister
  intro s hpc hb hh
  rw [exec_rd32 hpc, rd32_legal (r := .status) rfl]
  exact ⟨(portRead32 .status s).1, _, rfl, rfl, rfl, devRead32_status_busy hb hh _⟩

/-! ### Drawn reads (D17) -/

/-- The device's turn may leave the device as it is, whatever follows in the free choices; under havoc nothing is chosen
(R68, R232). -/
theorem deviceTurn_mayStand (p : Params) (d : Device) (u : Nat) :
    ∃ (pre : List Nat) (d' : Device) (u' : Nat), d'.havoc = d.havoc ∧ (d.havoc = false → d' = d) ∧
      ∀ rest, deviceTurn p d { tape := pre ++ rest, used := u } = (d', { tape := rest, used := u' }) := by
  rcases hh : d.havoc with _ | _
  · by_cases hi : d.phase = .idle
    · exact ⟨[], d, u, hh, fun _ => rfl, fun rest => deviceTurn_idle hh hi _⟩
    · have busy : d.phase.isIdle = false := by
        rw [Bool.eq_false_iff, ne_eq, Phase.isIdle_iff]
        exact hi
      refine ⟨[0], d, u + 1, hh, fun _ => rfl, fun rest => ?_⟩
      simp [deviceTurn, deviceMoves, hh, busy, Oracle.next]
  · refine ⟨[], havocDevice u, u + 1, havocDevice_havoc u, by simp, fun rest => ?_⟩
    simp [deviceTurn, hh]

/-- The reads that are draws (R34, R35, R37, R105). -/
theorem devRead8_drawn {p : Params} {d : Device} {r : Reg8} (o : Oracle)
    (h : d.havoc = true ∨ p.version = .other ∨ (d.phase ≠ .idle ∧ ∃ i, r = .fifo i) ∨
      (p.version = .a ∧ (r = .opcode ∨ r = .trigger))) : devRead8 p d r o = o.bits 8 := by
  rcases h with h | h | ⟨hi, i, rfl⟩ | ⟨ha, rfl | rfl⟩
  · simp [devRead8, h]
  · simp [devRead8, h]
  · have busy : d.phase.isIdle = false := by
      rw [Bool.eq_false_iff, ne_eq, Phase.isIdle_iff]
      exact hi
    simp [devRead8, busy]
  · simp [devRead8, ha]
  · simp [devRead8, triggerRead, ha]

/-- An offset of a FIFO cell names the cell (R62, R86). -/
theorem port8_high {off : BitVec 8} {r : Reg8} (hp : port8 off.toNat = some r) (h : 0x80#8 ≤ off) : ∃ i, r = .fifo i := by
  have hge : 0x80 ≤ r.offset := by
    rw [offset_of_port8 hp]
    simpa [BitVec.le_def] using h
  cases r with
  | fifo i => exact ⟨i, rfl⟩
  | _ => exact absurd hge (by decide)

/-- An 8-bit offset that names a register names it alone. -/
theorem port8_eq {off : BitVec 8} {r r' : Reg8} (hp : port8 off.toNat = some r) (h : off.toNat = r'.offset) : r = r' := by
  rw [h, port8_offset, Option.some.injEq] at hp
  exact hp.symm

/-- Settles O13: the free choices let the device stand through its turn, and then give the byte. -/
theorem drawnReadMayBeAnyByte : Obligations.DrawnReadMayBeAnyByte := by
  unfold Obligations.DrawnReadMayBeAnyByte
  intro s off b hpc hleg hdrawn
  obtain ⟨r, hp⟩ := legal8_port hleg
  obtain ⟨pre, d', u', hhavoc, hsame, hturn⟩ := deviceTurn_mayStand s.params s.dev s.oracle.used
  refine ⟨pre ++ [b.toNat], _, exec_rd8 (by exact hpc) off, ?_⟩
  have drawn : devRead8 s.params d' r { tape := [b.toNat], used := u' } = (Oracle.bits 8 { tape := [b.toNat], used := u' }) := by
    apply devRead8_drawn
    rcases hdrawn with h | h | ⟨h, hoff⟩ | ⟨h, hoff⟩
    · exact .inl (hhavoc.trans h)
    · exact .inr (.inl h)
    · rcases hh : s.dev.havoc with _ | _
      · rw [hsame hh]
        exact .inr (.inr (.inl ⟨h, port8_high hp hoff⟩))
      · exact .inl (hhavoc.trans hh)
    · refine .inr (.inr (.inr ⟨h, ?_⟩))
      rcases hoff with rfl | rfl
      · exact .inl (port8_eq hp rfl)
      · exact .inr (port8_eq hp rfl)
  simp only [rd8_legal hp, portRead8, State.setRes_eng_res, State.turn, hturn [b.toNat], drawn]
  simp [Oracle.bits, Oracle.next]

/-! ### Accesses after the device's turn -/

/-- Settles O21: where the turn leaves the device at rest it has no second turn to take. -/
theorem accessActsAfterTheDevicesTurn : Obligations.AccessActsAfterTheDevicesTurn := by
  unfold Obligations.AccessActsAfterTheDevicesTurn
  intro s off v w hi hh
  have hturn : s.turn.turn = s.turn := State.turn_idle hh hi
  by_cases hpc : s.eng.pc = .idle
  · rw [exec_rd8 hpc, exec_wr8 hpc, exec_rd32 hpc, exec_wr32 hpc, exec_rd8 (s := s.turn) hpc, exec_wr8 (s := s.turn) hpc,
      exec_rd32 (s := s.turn) hpc, exec_wr32 (s := s.turn) hpc]
    refine ⟨fun h => ?byte, fun h => ?word⟩
    case byte =>
      obtain ⟨r, hp⟩ := legal8_port h
      simp only [rd8_legal hp, wr8_legal hp, portRead8, portWrite8, hturn, and_self]
    case word =>
      obtain ⟨r, hp⟩ := legal32_port h
      simp only [rd32_legal hp, wr32_legal hp, portRead32, portWrite32, hturn, and_self]
  · simp only [exec_busy _ hpc, exec_busy _ (s := s.turn) hpc, and_self, implies_true]

/-- What bars a write: a transaction in progress, an unknown version tag, havoc (R37, R106, R307). -/
def WriteBarred (p : Params) (d : Device) : Prop := d.phase ≠ .idle ∨ p.version = .other ∨ d.havoc = true

/-- A byte write that is barred sets havoc and does nothing else (R106). -/
theorem devWrite8_barred {p : Params} {d : Device} (h : WriteBarred p d) (r : Reg8) (v : Byte) :
    devWrite8 p d r v = { d with havoc := true } := by
  rcases devWrite8_cases p d r v with ⟨hh, e⟩ | e | ⟨hh, hi, hv, -⟩
  · rw [e, ← hh]
  · exact e
  · rcases h with h | h | h
    · exact absurd hi h
    · exact absurd h hv
    · simp [hh] at h

/-- A word write that is barred sets havoc and does nothing else (R106). -/
theorem devWrite32_barred {p : Params} {d : Device} (h : WriteBarred p d) (r : Reg32) (v : Word) :
    devWrite32 p d r v = { d with havoc := true } := by
  rcases devWrite32_cases p d r v with ⟨hh, e⟩ | e | ⟨hh, hi, hv, -⟩
  · rw [e, ← hh]
  · exact e
  · rcases h with h | h | h
    · exact absurd hi h
    · exact absurd h hv
    · simp [hh] at h

/-- Settles O22: the write's answer where it is barred. -/
theorem writeWhileBusySetsHavoc : Obligations.WriteWhileBusySetsHavoc := by
  unfold Obligations.WriteWhileBusySetsHavoc
  intro s off hpc hbarred
  have barred : WriteBarred s.turn.params s.turn.dev := hbarred
  refine ⟨fun v h => ?byte, fun v h => ?word⟩
  case byte =>
    obtain ⟨r, hp⟩ := legal8_port h
    rw [exec_wr8 hpc, wr8_legal hp, portWrite8, devWrite8_barred barred, offset_of_port8 hp]
    rfl
  case word =>
    obtain ⟨r, hp⟩ := legal32_port h
    rw [exec_wr32 hpc, wr32_legal hp, portWrite32, devWrite32_barred barred, offset_of_port32 hp]
    rfl

/-! ### Read-modify-write (R107, R108) -/

/-- The self-clearing bits of the register an offset names (R30). -/
theorem selfClearing8_eq {off : BitVec 8} {r : Reg8} (hp : port8 off.toNat = some r) :
    Claim.selfClearing8 off = r.selfClearing := by
  by_cases h : off = 0x47#8
  · subst h
    rw [port8_eq hp (r' := .trigger) rfl]
    rfl
  · have ht : r ≠ .trigger := by
      rintro rfl
      exact h (BitVec.eq_of_toNat_eq (offset_of_port8 hp).symm)
    rw [Claim.selfClearing8, if_neg h]
    cases r with
    | trigger => exact absurd rfl ht
    | _ => rfl

/-- The self-clearing bits of the register an offset names (R23, R24). -/
theorem selfClearing32_eq {off : BitVec 8} {r : Reg32} (hp : port32 off.toNat = some r) :
    Claim.selfClearing32 off = r.selfClearing := by
  have hoff := offset_of_port32 hp
  cases r with
  | ctrl0 =>
    obtain rfl : off = 0x00#8 := BitVec.eq_of_toNat_eq hoff.symm
    rfl
  | status =>
    obtain rfl : off = 0x4C#8 := BitVec.eq_of_toNat_eq hoff.symm
    rfl

/-- Settles O20: the model's read-modify-write is the read and then a write, of the value read as `writtenBack` says the device
takes it. -/
theorem readModifyWriteUsesTheValueRead : Obligations.ReadModifyWriteUsesTheValueRead := by
  unfold Obligations.ReadModifyWriteUsesTheValueRead
  intro s off hpc
  refine ⟨fun a c h => ?byte, fun a c h => ?word⟩
  case byte =>
    obtain ⟨r, hp⟩ := legal8_port h
    generalize hv : (portRead8 r s).1 = v
    generalize ht : (portRead8 r s).2.setRes (v.setWidth 32) = t
    have htpc : t.eng.pc = .idle := by rw [← ht]; exact hpc
    have htrace : t.trace = s.trace ++ [.rd8 off.toNat v] := by rw [← ht, ← hv, ← offset_of_port8 hp]; rfl
    refine ⟨v, t, portWriteBack8 r v a c t, ?_, by rw [← ht]; rfl, ?_, rfl, ?_, fun hclear => ?_, ?_⟩
    · rw [exec_rd8 hpc, rd8_legal hp, hv, ht]
    · rw [exec_sc8 hpc, sc8_legal hp, hv, ht]
    · rw [portWriteBack8_trace, htrace, offset_of_port8 hp, setClear]
      simp
    · rw [selfClearing8_eq hp] at hclear
      rw [exec_wr8 htpc, wr8_legal hp, portWriteBack8_eq (and_not_of_and_zero hclear)]
      rfl
    · refine ⟨(writtenBack v r.selfClearing t.turn.oracle).1, _, ?_, exec_wr8 htpc _ _, ?_⟩
      · rw [selfClearing8_eq hp]
        exact writtenBack_cases _ _ _
      · rw [wr8_legal hp]
        rfl
  case word =>
    obtain ⟨r, hp⟩ := legal32_port h
    generalize hv : (portRead32 r s).1 = v
    generalize ht : (portRead32 r s).2.setRes v = t
    have htpc : t.eng.pc = .idle := by rw [← ht]; exact hpc
    have htrace : t.trace = s.trace ++ [.rd32 off.toNat v] := by rw [← ht, ← hv, ← offset_of_port32 hp]; rfl
    refine ⟨v, t, portWriteBack32 r v a c t, ?_, by rw [← ht]; rfl, ?_, rfl, ?_, fun hclear => ?_, ?_⟩
    · rw [exec_rd32 hpc, rd32_legal hp, hv, ht]
    · rw [exec_sc32 hpc, sc32_legal hp, hv, ht]
    · rw [portWriteBack32_trace, htrace, offset_of_port32 hp, setClear]
      simp
    · rw [selfClearing32_eq hp] at hclear
      rw [exec_wr32 htpc, wr32_legal hp, portWriteBack32_eq (and_not_of_and_zero hclear)]
      rfl
    · refine ⟨(writtenBack v r.selfClearing t.turn.oracle).1, _, ?_, exec_wr32 htpc _ _, ?_⟩
      · rw [selfClearing32_eq hp]
        exact writtenBack_cases _ _ _
      · rw [wr32_legal hp]
        rfl

end Sys2Proof.Machine
end

section
/-! The operations made of one read and one write: the version policy (41_version_policy.md), the chip select
(42_chip_select.md) and SETUP (44_fifo_engine.md R181). The device has a turn before each access, so the read may find it in a
transaction and the write at rest (R68, R310). -/

namespace Sys2Proof.Machine

/-! ### The write of a read-modify-write -/

/-- SC8 of a register: the accesses, and the device as its write leaves it, for the value read or for it without its stale bit
(R107, R310). -/
theorem sc8_spec (r : Reg8) (a c : Byte) (s : State) :
    ∃ e, (e = (portRead8 r s).1 ∨ e = (portRead8 r s).1 &&& ~~~r.selfClearing) ∧
      (sc8 r.offset a c s).dev = devWrite8 s.params (portRead8 r s).2.turn.dev r (setClear e a c) ∧
      (sc8 r.offset a c s).eng = { s.eng with res := some ((portRead8 r s).1.setWidth 32) } ∧
      (sc8 r.offset a c s).trace =
        s.trace ++ [.rd8 r.offset (portRead8 r s).1, .wr8 r.offset (setClear (portRead8 r s).1 a c)] := by
  rw [sc8_legal (port8_offset r)]
  exact ⟨_, writtenBack_cases _ _ _, rfl, rfl, List.append_assoc s.trace _ _⟩

/-- SC32 of a register, likewise (R108, R310). -/
theorem sc32_spec (r : Reg32) (a c : Word) (s : State) :
    ∃ e, (e = (portRead32 r s).1 ∨ e = (portRead32 r s).1 &&& ~~~r.selfClearing) ∧
      (sc32 r.offset a c s).dev = devWrite32 s.params (portRead32 r s).2.turn.dev r (setClear e a c) ∧
      (sc32 r.offset a c s).eng = { s.eng with res := some (portRead32 r s).1 } ∧
      (sc32 r.offset a c s).trace =
        s.trace ++ [.rd32 r.offset (portRead32 r s).1, .wr32 r.offset (setClear (portRead32 r s).1 a c)] := by
  rw [sc32_legal (port32_offset r)]
  exact ⟨_, writtenBack_cases _ _ _, rfl, rfl, List.append_assoc s.trace _ _⟩

/-- Setting bits that are also cleared is setting them (R100). -/
theorem setClear_self {w : Nat} (x m : BitVec w) : setClear x m m = x ||| m := by
  apply BitVec.eq_of_getLsbD_eq
  intro i hi
  simp only [setClear, BitVec.getLsbD_or, BitVec.getLsbD_and, BitVec.getLsbD_not]
  cases x.getLsbD i <;> cases m.getLsbD i <;> simp [hi]

/-! ### CTRL0 between the two accesses -/

/-- The device at the write of a read-modify-write has havoc only if it had. -/
theorem turn_after_read32 {s : State} (hh : s.dev.havoc = false) (r : Reg32) :
    (portRead32 r s).2.turn.dev.havoc = false :=
  (deviceTurn_havoc _ _ _).trans ((portRead32_havoc r s).trans hh)

theorem turn_after_read8 {s : State} (hh : s.dev.havoc = false) (r : Reg8) :
    (portRead8 r s).2.turn.dev.havoc = false :=
  (deviceTurn_havoc _ _ _).trans ((portRead8_havoc r s).trans hh)

/-- Every bit of CTRL0 but 16, 20 and 31 is storage (R22 to R26). -/
theorem ctrl0Storage_bit {k : Nat} (hk : k < 32) (h16 : k ≠ 16) (h20 : k ≠ 20) (h31 : k ≠ 31) :
    ctrl0Storage.getLsbD k = true := by
  revert h16 h20 h31
  revert k
  decide

/-- Values with the same storage bits agree on each of them. -/
theorem storage_bits_eq {x y : Word} (h : x &&& ctrl0Storage = y &&& ctrl0Storage) {k : Nat} (h16 : k ≠ 16) (h20 : k ≠ 20)
    (h31 : k ≠ 31) : x.getLsbD k = y.getLsbD k := by
  by_cases hk : k < 32
  · have hbit := congrArg (BitVec.getLsbD · k) h
    simpa only [BitVec.getLsbD_and, ctrl0Storage_bit hk h16 h20 h31, Bool.and_true] using hbit
  · simp [BitVec.getLsbD_of_ge, Nat.not_lt.1 hk]

/-- What a read of CTRL0 shows of CTRL0 as it was before the device's turn: bit 20 is 0, and the storage bits above the opcode
field are as stored (R22 to R26, R230). -/
theorem portRead32_ctrl0_kept {s : State} (hv : s.params.version ≠ .other) (hh : s.dev.havoc = false) :
    (portRead32 .ctrl0 s).1[20] = false ∧
    ∀ k, 8 ≤ k → k ≠ 16 → k ≠ 20 → k ≠ 31 → (portRead32 .ctrl0 s).1.getLsbD k = s.dev.ctrl0.getLsbD k := by
  have hht : s.turn.dev.havoc = false := (deviceTurn_havoc _ _ _).trans hh
  obtain ⟨hstore, h20, -, -⟩ := devRead32_ctrl0_bits (p := s.turn.params) hv hht s.turn.oracle
  have hsame := deviceTurn_same (p := s.params) hh s.oracle
  refine ⟨h20, fun k hk k16 k20 k31 => ?_⟩
  rw [← hsame.ctrl0High k hk]
  exact storage_bits_eq hstore k16 k20 k31

/-- A read-modify-write of CTRL0 whose write finds the device `IDLE` without havoc, on a known variant. -/
theorem sc32_ctrl0_idle {s : State} (hv : s.params.version ≠ .other) (hh : s.dev.havoc = false) (a c : Word)
    (hi : (portRead32 .ctrl0 s).2.turn.dev.phase = .idle) :
    ∃ e, (e = (portRead32 .ctrl0 s).1 ∨ e = (portRead32 .ctrl0 s).1 &&& ~~~Reg32.ctrl0.selfClearing) ∧
      (sc32 Reg32.ctrl0.offset a c s).dev =
        ctrl0Write s.params (portRead32 .ctrl0 s).2.turn.dev (setClear e a c) ∧
      (sc32 Reg32.ctrl0.offset a c s).eng = { s.eng with res := some (portRead32 .ctrl0 s).1 } ∧
      (sc32 Reg32.ctrl0.offset a c s).trace =
        s.trace ++ [.rd32 0x00 (portRead32 .ctrl0 s).1, .wr32 0x00 (setClear (portRead32 .ctrl0 s).1 a c)] := by
  obtain ⟨e, he, hdev, heng, htrace⟩ := sc32_spec .ctrl0 a c s
  rw [devWrite32_ctrl0 hv (turn_after_read32 hh _) hi] at hdev
  exact ⟨e, he, hdev, heng, htrace⟩

/-- A read-modify-write of CTRL0 whose write is barred sets havoc (R66, R307). -/
theorem sc32_ctrl0_barred {s : State} (h : WriteBarred s.params (portRead32 .ctrl0 s).2.turn.dev) (a c : Word) :
    ∃ t, .next ((sc32 Reg32.ctrl0.offset a c s).setRes 0#32) = (.next t : Host.Outcome State Fault Refusal) ∧
      t.dev.havoc = true ∧ t.eng = { s.eng with res := some 0#32 } := by
  obtain ⟨e, -, hdev, heng, -⟩ := sc32_spec .ctrl0 a c s
  rw [devWrite32_barred h] at hdev
  refine ⟨_, rfl, by rw [State.setRes_dev, hdev], ?_⟩
  rw [State.setRes, heng]

/-! ### SETOP (R121, R122) -/

theorem setop_a {s : State} (ha : s.params.version = .a) (b : Byte) :
    (setop b s).2 = (sc32 Reg32.ctrl0.offset (b.setWidth 32) opcodeMask s).setRes 0#32 := by
  simp only [setop, ha]
  rfl

theorem setop_b {s : State} (hb : s.params.version = .b) (b : Byte) :
    (setop b s).2 = (portWrite8 .opcode b s).setRes 0#32 := by
  simp only [setop, hb]
  rfl

theorem exec_setop {s : State} (hpc : s.eng.pc = .idle) (b : Byte) :
    exec (.setop b) s = .next (setop b s).2 := if_pos hpc

/-- The words of SETOP, CSSEL and CSDESEL: the row's `op` above the immediate (R81, R83). -/
theorem opWord_row (op : BitVec 4) (imm : BitVec 8) : (opWord op imm).toNat = 4096 * op.toNat + imm.toNat := by
  rw [opWord_toNat, Nat.mul_comm]

/-- The bits above the opcode field that a SETOP in Variant A writes (R121). -/
theorem setOpcode_high (x : Word) (b : Byte) (k : Nat) (hk : 8 ≤ k) :
    (setClear x (b.setWidth 32) opcodeMask).getLsbD k = x.getLsbD k := by
  by_cases hk32 : k < 32
  · have hmask : opcodeMask.getLsbD k = false := by interval_cases k <;> rfl
    simp only [setClear, BitVec.getLsbD_or, BitVec.getLsbD_and, BitVec.getLsbD_not, hmask, BitVec.getLsbD_setWidth,
      BitVec.getLsbD_of_ge b k hk]
    simp [hk32]
  · simp [BitVec.getLsbD_of_ge, Nat.not_lt.1 hk32]

/-- The opcode field that a SETOP in Variant A writes (R121). -/
theorem setOpcode_low (x : Word) (b : Byte) : BitVec.ofNat 8 (setClear x (b.setWidth 32) opcodeMask).toNat = b := by
  rw [← lowByte_eq]
  apply BitVec.eq_of_getLsbD_eq
  intro i hi
  have hmask : opcodeMask.getLsbD i = true := by interval_cases i <;> rfl
  simp [setClear, hi, hmask]
  omega

/-- What a SETOP in Variant A leaves where its write finds the device `IDLE`: the opcode and the bits read are stored, and a
stale EXEC may trigger (R121, R310). -/
theorem setOpcode_write {p : Params} (ha : p.version = .a) (d : Device) {v e : Word} (b : Byte) (h20 : v[20] = false)
    (he : e = v ∨ e = v &&& ~~~Reg32.ctrl0.selfClearing) :
    ctrl0Write p d (setClear e (b.setWidth 32) opcodeMask) =
      { d with ctrl0 := setClear v (b.setWidth 32) opcodeMask &&& 0x7FEEFFFF#32 } ∨
    v[16] = true ∧ Claim.canTrigger d ∧ ctrl0Write p d (setClear e (b.setWidth 32) opcodeMask) =
      Claim.triggered { d with ctrl0 := setClear v (b.setWidth 32) opcodeMask &&& 0x7FEEFFFF#32 } b ∨
    v[16] = true ∧ ¬ Claim.canTrigger d ∧ ctrl0Write p d (setClear e (b.setWidth 32) opcodeMask) =
      { d with ctrl0 := setClear v (b.setWidth 32) opcodeMask &&& 0x7FEEFFFF#32, havoc := true } := by
  have hbit (k : Nat) (hk : 8 ≤ k) := setOpcode_high e b k hk
  have stores (w : Word) (w16 : w[16] = false) (w20 : w[20] = false) :
      ctrl0Write p d w = { d with ctrl0 := w &&& 0x7FEEFFFF#32 } := by
    simp [ctrl0Write_store w16, ctrl0Stored, w20, ctrl0Storage_eq]
  rcases he with rfl | rfl
  · have w20 : (setClear e (b.setWidth 32) opcodeMask)[20] = false := (hbit 20 (by decide)).trans h20
    rcases h16 : e[16] with _ | _
    · exact .inl (stores _ ((hbit 16 (by decide)).trans h16) w20)
    · obtain ⟨accepted, refused⟩ := ctrl0Write_triggers ha ((hbit 16 (by decide)).trans h16) w20 d
      by_cases hc : Claim.canTrigger d
      · rw [setOpcode_low] at accepted
        exact .inr (.inl ⟨rfl, hc, accepted hc⟩)
      · exact .inr (.inr ⟨rfl, hc, refused hc⟩)
  · obtain ⟨w16, w20, hstore⟩ := writeBack_ctrl0 v (b.setWidth 32) opcodeMask
    have high (k : Nat) (hk : 8 ≤ k) : (b.setWidth 32).getLsbD k = false := by
      simp [BitVec.getLsbD_of_ge b k hk]
    refine .inl ?_
    rw [stores _ (w16.trans (high 16 (by decide))) (w20.trans (high 20 (by decide))), ← ctrl0Storage_eq, hstore]

/-- SETOP of a Variant A device at rest whose CTRL0 holds storage bits only (R121). -/
theorem setop_rest_a {s : State} (ha : s.params.version = .a) (hh : s.dev.havoc = false) (hi : s.dev.phase = .idle)
    (hc : s.dev.ctrl0 &&& ctrl0Storage = s.dev.ctrl0) (b : Byte) :
    (setop b s).2 =
      Claim.afterBoth s { s.dev with ctrl0 := setClear s.dev.ctrl0 (b.setWidth 32) opcodeMask } 0#32
        [.rd32 0x00 s.dev.ctrl0, .wr32 0x00 (setClear s.dev.ctrl0 (b.setWidth 32) opcodeMask)] := by
  have hidle : Claim.ctrl0Idle s.dev = s.dev.ctrl0 := hc
  obtain ⟨w16, w20, hstore, -, -⟩ := opcode_value s.dev.ctrl0 b hc
  rw [setop_a ha, sc32_rest_a ha hh hi, hidle, ctrl0Write_store w16, ctrl0Stored, hstore, w20, Bool.or_false]
  rfl

/-- Settles O23: at rest CTRL0 is read as stored and its opcode field replaced; a barred write sets havoc; elsewhere the value
read is what `setOpcode_write` says is written back. -/
theorem setopInVariantA : Obligations.SetopInVariantA := by
  unfold Obligations.SetopInVariantA
  intro s b ha
  have hv : s.params.version ≠ .other := by simp [ha]
  refine ⟨opWord_row 0x9#4 b, rfl, fun ⟨hpc, hh, hi, _⟩ hok => ?rest, fun hpc hbusy => ?barred,
    fun hpc hh d hd hi => ?idle⟩
  case rest =>
    obtain ⟨-, -, -, hlow, hhigh⟩ := opcode_value s.dev.ctrl0 b hok.ctrl0_storage
    exact ⟨_, by rw [exec_setop hpc, setop_rest_a ha hh hi hok.ctrl0_storage], hlow, hhigh⟩
  case barred =>
    rw [exec_setop hpc, setop_a ha]
    exact sc32_ctrl0_barred (.inl hbusy) _ _
  case idle =>
    subst hd
    obtain ⟨h20, hkept⟩ := portRead32_ctrl0_kept hv hh
    obtain ⟨e, he, hdev, heng, htrace⟩ := sc32_ctrl0_idle hv hh (b.setWidth 32) opcodeMask hi
    rw [exec_setop hpc, setop_a ha]
    refine ⟨(portRead32 .ctrl0 s).1, _, _, rfl, by rw [State.setRes, heng], htrace, setOpcode_low _ b, setOpcode_high _ b,
      h20, hkept, ?_⟩
    rw [State.setRes_dev, hdev]
    exact setOpcode_write ha _ b h20 he

/-- SETOP in Variant B where the device's turn leaves it at rest (R122). -/
theorem setop_idle_b {s : State} (hb : s.params.version = .b) (hi : s.turn.dev.phase = .idle)
    (hh : s.turn.dev.havoc = false) (b : Byte) :
    (setop b s).2 = Claim.afterBoth s.turn { s.turn.dev with opcode := b } 0#32 [.wr8 0x45 b] := by
  have hw : devWrite8 s.turn.params s.turn.dev .opcode b = { s.turn.dev with opcode := b } :=
    devWrite8_stored (by simp [hb]) hh hi (fun _ => hb) (by simp)
  rw [setop_b hb, portWrite8, hw]
  rfl

/-- SETOP of a Variant B device at rest (R122). -/
theorem setop_rest_b {s : State} (hb : s.params.version = .b) (hh : s.dev.havoc = false) (hi : s.dev.phase = .idle)
    (b : Byte) : (setop b s).2 = Claim.afterBoth s { s.dev with opcode := b } 0#32 [.wr8 0x45 b] := by
  have hturn := State.turn_idle hh hi
  rw [setop_idle_b hb (by rw [hturn, hi]) (by rw [hturn, hh]), hturn]

/-- Settles O24: SETOP is one write of OPCODE, to the device as its turn leaves it. -/
theorem setopInVariantB : Obligations.SetopInVariantB := by
  unfold Obligations.SetopInVariantB
  intro s b hb
  refine ⟨opWord_row 0x9#4 b, rfl, fun ⟨hpc, hh, hi, _⟩ => ?rest, fun hpc hbusy => ?barred, fun hpc hi hh => ?idle⟩
  case rest => rw [exec_setop hpc, setop_rest_b hb hh hi]
  case barred =>
    rw [exec_setop hpc, setop_b hb, portWrite8, devWrite8_barred (.inl hbusy)]
    rfl
  case idle => rw [exec_setop hpc, setop_idle_b hb hi hh]

/-! ### TRIG (R124, R125) -/

theorem trig_a {s : State} (ha : s.params.version = .a) :
    (trig s).2 = (sc32 Reg32.ctrl0.offset execBit execBit s).setRes 0#32 := by
  simp only [trig, ha]
  rfl

theorem trig_b {s : State} (hb : s.params.version = .b) :
    (trig s).2 = (sc8 Reg8.trigger.offset triggerBit triggerBit s).setRes 0#32 := by
  simp only [trig, hb]
  rfl

theorem exec_trig {s : State} (hpc : s.eng.pc = .idle) : exec .trig s = .next (trig s).2 := if_pos hpc

/-- TRIG of a Variant A device at rest whose CTRL0 holds storage bits only (R124). -/
theorem trig_rest_a {s : State} (ha : s.params.version = .a) (hh : s.dev.havoc = false) (hi : s.dev.phase = .idle)
    (hc : s.dev.ctrl0 &&& ctrl0Storage = s.dev.ctrl0) :
    (Claim.canTrigger s.dev → (trig s).2 =
      Claim.afterBoth s (Claim.triggered s.dev (BitVec.ofNat 8 s.dev.ctrl0.toNat)) 0#32
        [.rd32 0x00 s.dev.ctrl0, .wr32 0x00 (s.dev.ctrl0 ||| 0x00010000#32)]) ∧
    (¬ Claim.canTrigger s.dev → (trig s).2 =
      Claim.afterBoth s { s.dev with havoc := true } 0#32
        [.rd32 0x00 s.dev.ctrl0, .wr32 0x00 (s.dev.ctrl0 ||| 0x00010000#32)]) := by
  have hidle : Claim.ctrl0Idle s.dev = s.dev.ctrl0 := hc
  obtain ⟨hval, w16, w20, hstore⟩ := exec_value s.dev.ctrl0 hc
  obtain ⟨accepted, refused⟩ := ctrl0Write_triggers ha w16 w20 s.dev
  rw [← ctrl0Storage_eq, hstore] at accepted refused
  rw [← lowByte_storage, hstore, lowByte_eq] at accepted
  rw [trig_a ha, sc32_rest_a ha hh hi, hidle, hval]
  exact ⟨fun h => by rw [accepted h]; rfl, fun h => by rw [refused h]; rfl⟩

/-- Settles O25: at rest CTRL0 is read as stored and EXEC set; a barred write sets havoc; elsewhere EXEC is set whatever became
of a stale one, and the storage bits are those read. -/
theorem trigInVariantA : Obligations.TrigInVariantA := by
  unfold Obligations.TrigInVariantA
  intro s ha
  have hv : s.params.version ≠ .other := by simp [ha]
  refine ⟨fun ⟨hpc, hh, hi, _⟩ hok => ?rest, fun hpc hbusy => ?barred, fun hpc hh d hd hi => ?idle⟩
  case rest =>
    obtain ⟨accepted, refused⟩ := trig_rest_a ha hh hi hok.ctrl0_storage
    rw [exec_trig hpc]
    exact ⟨fun h => by rw [accepted h], fun h => by rw [refused h]⟩
  case barred =>
    rw [exec_trig hpc, trig_a ha]
    exact sc32_ctrl0_barred (.inl hbusy) _ _
  case idle =>
    subst hd
    obtain ⟨h20, hkept⟩ := portRead32_ctrl0_kept hv hh
    obtain ⟨e, he, hdev, heng, htrace⟩ := sc32_ctrl0_idle hv hh execBit execBit hi
    generalize (portRead32 .ctrl0 s).1 = v at *
    generalize (portRead32 .ctrl0 s).2.turn.dev = d at *
    have hexec : (setClear e execBit execBit)[16] = true ∧ (setClear e execBit execBit)[20] = false ∧
        setClear e execBit execBit &&& ctrl0Storage = v &&& ctrl0Storage := by
      have hstore (x : Word) : setClear x execBit execBit &&& ctrl0Storage = x &&& ctrl0Storage := by
        rw [setClear_self, BitVec.and_or_distrib_right, show execBit &&& ctrl0Storage = 0#32 from rfl, BitVec.or_zero]
      rcases he with rfl | rfl
      · refine ⟨?_, ?_, hstore e⟩
        · simp [setClear, show execBit[16] = true from rfl]
        · simp [setClear, h20, show execBit[20] = false from rfl]
      · obtain ⟨w16, w20, hback⟩ := writeBack_ctrl0 v execBit execBit
        exact ⟨w16, w20, hback.trans (hstore v)⟩
    obtain ⟨w16, w20, hstore⟩ := hexec
    obtain ⟨accepted, refused⟩ := ctrl0Write_triggers ha w16 w20 d
    rw [← ctrl0Storage_eq, hstore] at accepted refused
    rw [← lowByte_storage, hstore, lowByte_storage] at accepted
    rw [exec_trig hpc, trig_a ha]
    refine ⟨v, _, rfl, by rw [State.setRes, heng], by rw [State.setRes_trace, htrace, setClear_self]; rfl,
      h20, hkept, ?_⟩
    rw [State.setRes_dev, hdev]
    exact ⟨accepted, refused⟩

/-- Bits 6:0 of a read of TRIGGER in Variant B without havoc are as stored, in every phase (R30, R105). -/
theorem devRead8_trigger_low {p : Params} {d : Device} (hb : p.version = .b) (hh : d.havoc = false) (o : Oracle) :
    (devRead8 p d .trigger o).1.setWidth 7 = d.trigger := by
  have low (ex : Bool) : ((if ex then triggerBit else 0#8) ||| d.trigger.setWidth 8).setWidth 7 = d.trigger := by
    apply BitVec.eq_of_getLsbD_eq
    intro i hi
    cases ex <;> simp [hi]
  simp only [devRead8, triggerRead, hb, hh]
  exact low _

/-- What a TRIG in Variant B writes: bit 7, and bits 6:0 as read, whatever became of a stale bit 7 (R125, R310). -/
theorem setTrigger_value {v e : Byte} (he : e = v ∨ e = v &&& ~~~Reg8.trigger.selfClearing) :
    (setClear e triggerBit triggerBit)[7] = true ∧
      (setClear e triggerBit triggerBit).setWidth 7 = v.setWidth 7 := by
  have low (x : Byte) : (setClear x triggerBit triggerBit).setWidth 7 = x.setWidth 7 := by
    rw [setClear_self, BitVec.setWidth_or, show triggerBit.setWidth 7 = 0#7 from rfl, BitVec.or_zero]
  have set (x : Byte) : (setClear x triggerBit triggerBit)[7] = true := by
    simp [setClear, show triggerBit[7] = true from rfl]
  rcases he with rfl | rfl
  · exact ⟨set e, low e⟩
  · exact ⟨set _, (writeBack_trigger v _ _).2.trans (low v)⟩

/-- Where a TRIG in Variant B finds the device `IDLE` at its write, it stores bits 6:0 as read and triggers (R125). -/
theorem setTrigger_write {p : Params} {d : Device} (hb : p.version = .b) (hh : d.havoc = false) (hi : d.phase = .idle)
    {v e : Byte} (he : e = v ∨ e = v &&& ~~~Reg8.trigger.selfClearing) :
    (Claim.canTrigger d → devWrite8 p d .trigger (setClear e triggerBit triggerBit) =
      Claim.triggered { d with trigger := v.setWidth 7 } d.opcode) ∧
    (¬ Claim.canTrigger d → devWrite8 p d .trigger (setClear e triggerBit triggerBit) =
      { d with trigger := v.setWidth 7, havoc := true }) := by
  obtain ⟨w7, wlow⟩ := setTrigger_value he
  rw [devWrite8_trigger hb hh hi w7, wlow]
  exact ⟨fun h => triggerDevice_accepted (by exact h) (by simp [hb]), fun h => triggerDevice_refused (by exact h)⟩

/-- TRIG of a Variant B device at rest (R125). -/
theorem trig_rest_b {s : State} (hb : s.params.version = .b) (hh : s.dev.havoc = false) (hi : s.dev.phase = .idle) :
    (Claim.canTrigger s.dev → (trig s).2 =
      Claim.afterBoth s (Claim.triggered s.dev s.dev.opcode) 0#32
        [.rd8 0x47 (s.dev.trigger.setWidth 8), .wr8 0x47 (s.dev.trigger.setWidth 8 ||| 0x80#8)]) ∧
    (¬ Claim.canTrigger s.dev → (trig s).2 =
      Claim.afterBoth s { s.dev with havoc := true } 0#32
        [.rd8 0x47 (s.dev.trigger.setWidth 8), .wr8 0x47 (s.dev.trigger.setWidth 8 ||| 0x80#8)]) := by
  have hv : s.params.version ≠ .other := by simp [hb]
  obtain ⟨accepted, refused⟩ := setTrigger_write (v := Reg8.trigger.held s.dev) hb hh hi (.inl rfl)
  have hsame : (Reg8.trigger.held s.dev).setWidth 7 = s.dev.trigger := by
    rw [← devRead8_trigger_low hb hh s.oracle, devRead8_held (r := .trigger) hv hh hi (fun _ => hb)]
  rw [hsame, setClear_self] at accepted refused
  rw [trig_b hb, sc8_rest hh hi hv (port8_offset .trigger) (fun _ => hb), setClear_self]
  exact ⟨fun h => by rw [accepted h]; rfl, fun h => by rw [refused h]; rfl⟩

/-- Settles O26: at rest TRIGGER is read as stored; a barred write sets havoc; elsewhere bits 6:0 are read as stored too, and
bit 7 is set whatever became of a stale one. -/
theorem trigInVariantB : Obligations.TrigInVariantB := by
  unfold Obligations.TrigInVariantB
  intro s hb
  have hv : s.params.version ≠ .other := by simp [hb]
  obtain ⟨e, he, hdev, heng, htrace⟩ := sc8_spec .trigger triggerBit triggerBit s
  refine ⟨fun ⟨hpc, hh, hi, _⟩ => ?rest, fun hpc hbusy => ?barred, fun hpc hh d hd hi => ?idle⟩
  case rest =>
    obtain ⟨accepted, refused⟩ := trig_rest_b hb hh hi
    rw [exec_trig hpc]
    exact ⟨fun h => by rw [accepted h], fun h => by rw [refused h]⟩
  case barred =>
    rw [devWrite8_barred (.inl hbusy)] at hdev
    refine ⟨_, by rw [exec_trig hpc, trig_b hb], by rw [State.setRes_dev, hdev], by rw [State.setRes, heng]⟩
  case idle =>
    subst hd
    have hlow : (portRead8 .trigger s).1.setWidth 7 = s.dev.trigger :=
      (devRead8_trigger_low hb ((deviceTurn_havoc _ _ _).trans hh) _).trans (deviceTurn_same (p := s.params) hh s.oracle).trigger
    obtain ⟨accepted, refused⟩ := setTrigger_write hb (turn_after_read8 hh .trigger) hi he
    rw [hlow] at accepted refused
    rw [exec_trig hpc, trig_b hb]
    refine ⟨(portRead8 .trigger s).1, _, rfl, by rw [State.setRes, heng],
      by rw [State.setRes_trace, htrace, setClear_self]; rfl, by rw [BitVec.ofNat_toNat, hlow], ?_⟩
    rw [State.setRes_dev, hdev]
    exact ⟨accepted, refused⟩

/-! ### CSSEL and CSDESEL (R140, R141) -/

/-- CS is read as stored in every phase (R28, R105). -/
theorem portRead8_cs {s : State} (hv : s.params.version ≠ .other) (hh : s.dev.havoc = false) :
    (portRead8 .cs s).1 = s.dev.cs := by
  have hht : (deviceTurn s.params s.dev s.oracle).1.havoc = false := (deviceTurn_havoc _ _ _).trans hh
  have hread : (devRead8 s.turn.params s.turn.dev .cs s.turn.oracle).1 = s.turn.dev.cs := by
    simp [devRead8, hv, hht]
  exact hread.trans (deviceTurn_same (p := s.params) hh s.oracle).cs

/-- CS read, and a byte made of the byte read written: CSSEL and CSDESEL are of this form (R140, R141). -/
def csUpdate (f : Byte → Byte) (s : State) : State :=
  (portWrite8 .cs (f (portRead8 .cs s).1) (portRead8 .cs s).2).setRes 0#32

theorem exec_cssel {s : State} (hpc : s.eng.pc = .idle) (i : BitVec 8) :
    exec (.cssel i) s = .next (csUpdate (fun x => setClear x (csIndex i) csMask) s) := by
  rw [exec_plain (by simp) hpc, plainOp, cssel, sc8_plain (port8_offset .cs) (by simp)]
  rfl

theorem exec_csdesel {s : State} (hpc : s.eng.pc = .idle) (i : BitVec 8) :
    exec (.csdesel i) s = .next (csUpdate (fun x => x &&& ~~~csMask) s) := by
  rw [exec_plain (by simp) hpc]
  rfl

/-- Where the write is barred a CS update sets havoc (R66, R307). -/
theorem csUpdate_barred {s : State} (h : WriteBarred s.params (portRead8 .cs s).2.turn.dev) (f : Byte → Byte) :
    (csUpdate f s).dev.havoc = true := by
  rw [csUpdate, State.setRes_dev, portWrite8_dev, devWrite8_barred (by exact h)]

/-- Where the write finds the device `IDLE`, a CS update stores what it made of CS as it was (R28, R310). -/
theorem csUpdate_idle {s : State} (hv : s.params.version ≠ .other) (hh : s.dev.havoc = false)
    (hi : (portRead8 .cs s).2.turn.dev.phase = .idle) (f : Byte → Byte) :
    (csUpdate f s).dev = { (portRead8 .cs s).2.turn.dev with cs := f s.dev.cs } ∧
      (csUpdate f s).trace = s.trace ++ [.rd8 0x1D s.dev.cs, .wr8 0x1D (f s.dev.cs)] := by
  have hcs := portRead8_cs hv hh
  refine ⟨?_, ?_⟩
  · rw [csUpdate, State.setRes_dev, portWrite8_dev, hcs]
    exact devWrite8_stored (r := .cs) hv (turn_after_read8 hh .cs) hi (by simp) (by simp)
  · rw [csUpdate, State.setRes_trace, portWrite8_trace, portRead8_snd_trace, hcs]
    simp [Reg8.offset]

/-- A CS update of a device at rest. -/
theorem csUpdate_rest {s : State} (hv : s.params.version ≠ .other) (hh : s.dev.havoc = false) (hi : s.dev.phase = .idle)
    (f : Byte → Byte) :
    csUpdate f s = Claim.afterBoth s { s.dev with cs := f s.dev.cs } 0#32 [.rd8 0x1D s.dev.cs, .wr8 0x1D (f s.dev.cs)] := by
  rw [csUpdate, portRead8_rest hh hi, devRead8_held (r := .cs) hv hh hi (by simp),
    portWrite8_rest (by exact hh) (by exact hi)]
  simp only [devWrite8_stored (r := .cs) hv hh hi (by simp) (by simp)]
  simp [Claim.afterBoth, State.setRes, Reg8.held, Reg8.stored, Reg8.offset]

/-- Settles O28: a CS update with the index in the field. -/
theorem csselSelectsTheIndexModuloFour : Obligations.CsselSelectsTheIndexModuloFour := by
  unfold Obligations.CsselSelectsTheIndexModuloFour
  intro s i hpc
  rw [exec_cssel hpc]
  refine ⟨opWord_row 0xC#4 i, rfl, ⟨_, rfl, rfl, rfl, fun hbusy => csUpdate_barred (.inl hbusy) _⟩,
    fun ⟨_, hh, hi, hv⟩ => ?rest, fun hv hh d hd hi => ?idle⟩
  case rest => exact ⟨_, by rw [csUpdate_rest hv hh hi], select_value s.dev.cs i⟩
  case idle =>
    subst hd
    obtain ⟨hdev, htrace⟩ := csUpdate_idle hv hh hi (fun x => setClear x (csIndex i) csMask)
    exact ⟨_, _, rfl, hdev, htrace, select_value s.dev.cs i⟩

/-- Settles O29: a CS update with the field cleared. -/
theorem csdeselClearsTheField : Obligations.CsdeselClearsTheField := by
  unfold Obligations.CsdeselClearsTheField
  intro s i hpc
  rw [exec_csdesel hpc]
  refine ⟨opWord_row 0xD#4 i, rfl, ⟨_, rfl, rfl, rfl, fun hbusy => csUpdate_barred (.inl hbusy) _⟩,
    fun ⟨_, hh, hi, hv⟩ => ?rest, fun hv hh d hd hi => ?idle⟩
  case rest => exact ⟨_, by rw [csUpdate_rest hv hh hi], deselect_value s.dev.cs⟩
  case idle =>
    subst hd
    obtain ⟨hdev, htrace⟩ := csUpdate_idle hv hh hi (fun x => x &&& ~~~csMask)
    exact ⟨_, _, rfl, hdev, htrace, deselect_value s.dev.cs⟩

/-! ### SETUP (R181) -/

theorem exec_setup {s : State} (hpc : s.eng.pc = .idle) :
    exec .setup s = .next ((sc32 Reg32.ctrl0.offset fifoClearBit fifoClearBit s).setRes 0#32) := by
  rw [exec_plain (by simp) hpc]
  rfl

/-- The storage bits of a value with FIFO_CLEAR set are its own (R24). -/
theorem setFifoClear_storage (x : Word) : setClear x fifoClearBit fifoClearBit &&& ctrl0Storage = x &&& ctrl0Storage := by
  rw [setClear_self, BitVec.and_or_distrib_right, show fifoClearBit &&& ctrl0Storage = 0#32 from rfl, BitVec.or_zero]

/-- Setting FIFO_CLEAR leaves EXEC as it is. -/
theorem setFifoClear_bits (x : Word) : (setClear x fifoClearBit fifoClearBit)[16] = x[16] ∧
    (setClear x fifoClearBit fifoClearBit)[20] = true := by
  simp [setClear, show fifoClearBit[16] = false from rfl, show fifoClearBit[20] = true from rfl]

/-- What SETUP's write leaves where it finds the device `IDLE` without havoc: the cursor cleared and the storage bits read
stored, or havoc for a stale EXEC (R24, R267, R310). -/
theorem setup_write (p : Params) (d : Device) {v e : Word}
    (he : e = v ∨ e = v &&& ~~~Reg32.ctrl0.selfClearing) :
    ctrl0Write p d (setClear e fifoClearBit fifoClearBit) =
      { d with ctrl0 := v &&& ctrl0Storage, fifoPtrCleared := true } ∨
    v[16] = true ∧ ctrl0Write p d (setClear e fifoClearBit fifoClearBit) = { d with havoc := true } := by
  have stores (w : Word) (w16 : w[16] = false) (w20 : w[20] = true) (hw : w &&& ctrl0Storage = v &&& ctrl0Storage) :
      ctrl0Write p d w = { d with ctrl0 := v &&& ctrl0Storage, fifoPtrCleared := true } := by
    rw [ctrl0Write_store w16, ctrl0Stored, w20, hw, Bool.or_true]
  rcases he with rfl | rfl
  · obtain ⟨w16, w20⟩ := setFifoClear_bits e
    rcases h16 : e[16] with _ | _
    · exact .inl (stores _ (w16.trans h16) w20 (setFifoClear_storage e))
    · exact .inr ⟨rfl, ctrl0Write_both (w16.trans h16) w20 p d⟩
  · obtain ⟨w16, w20, hback⟩ := writeBack_ctrl0 v fifoClearBit fifoClearBit
    exact .inl (stores _ w16 w20 (hback.trans (setFifoClear_storage v)))

/-- Settles O34: at rest EXEC reads 0, so nothing is stale, and CTRL0 is written as it was. -/
theorem setupClearsTheFifoCursor : Obligations.SetupClearsTheFifoCursor := by
  unfold Obligations.SetupClearsTheFifoCursor
  intro s
  refine ⟨fun ⟨hpc, hh, hi, hv⟩ hok => ?rest, fun hpc hv hh d hd hi => ?idle⟩
  case rest =>
    obtain ⟨hstore, h20, hexec, -⟩ := devRead32_ctrl0_bits hv hh s.oracle
    rcases hread : devRead32 s.params s.dev .ctrl0 s.oracle with ⟨v, o⟩
    simp only [hread, hok.ctrl0_storage] at hstore h20 hexec
    refine ⟨v, o, ?_, hstore, hexec hi, h20⟩
    rw [exec_setup hpc, sc32_rest hv hh hi _ _ hread]
    rcases setup_write s.params s.dev (.inl (Eq.refl v)) with h | ⟨hno, -⟩
    · rw [h, hstore, setClear_self]
      rfl
    · rw [hexec hi] at hno
      simp at hno
  case idle =>
    subst hd
    obtain ⟨h20, hkept⟩ := portRead32_ctrl0_kept hv hh
    obtain ⟨e, he, hdev, heng, htrace⟩ := sc32_ctrl0_idle hv hh fifoClearBit fifoClearBit hi
    refine ⟨(portRead32 .ctrl0 s).1, _, exec_setup hpc, by rw [State.setRes, heng],
      by rw [State.setRes_trace, htrace, setClear_self]; rfl, hkept, ?_⟩
    rw [State.setRes_dev, hdev]
    exact setup_write _ _ he

/-- Settles O35: both causes bar the write, and a barred write sets havoc. -/
theorem setupElsewhereSetsHavoc : Obligations.SetupElsewhereSetsHavoc := by
  unfold Obligations.SetupElsewhereSetsHavoc
  intro s hpc h
  rw [exec_setup hpc]
  refine sc32_ctrl0_barred ?_ _ _
  rcases h with hv | hbusy
  · exact .inr (.inl hv)
  · exact .inl hbusy

end Sys2Proof.Machine
end

section
/-! The busy-wait poller (43_busy_wait.md R160 to R166). -/

namespace Sys2Proof.Machine

/-- The register a known variant polls: its offset, and that bit 31 of it reads the busy flag (R25, R31, R127). -/
theorem busyLocation_known {p : Params} (hv : p.version ≠ .other) :
    ∃ r, busyLocation p.version = .ok r ∧ r.offset = (if p.version = .a then 0x00 else 0x4C) ∧
      ∀ d o, d.havoc = false → (devRead32 p d r o).1[31] = d.phase.busy := by
  rcases hver : p.version with _ | _ | _
  · exact ⟨.ctrl0, rfl, rfl, fun d o hh => devRead32_ctrl0_busy hver hh o⟩
  · exact ⟨.status, rfl, rfl, fun d o hh => devRead32_status_busy hver hh o⟩
  · exact absurd hver hv

/-- The state at the first read of a wait (R160, R163). -/
def waitStart (s : State) : State := (s.setNpoll 0).setElapsed 0

/-- BWAIT on a known variant is the poll loop, and its status code in RES (R160). -/
theorem bwait_polls {s : State} {r : Reg32} (h : busyLocation s.params.version = .ok r) :
    bwait s = endOp (pollLoop r (100001 + 1) 0 (waitStart s)).1 (pollLoop r (100001 + 1) 0 (waitStart s)).2 := by
  simp only [bwait, h]
  rfl

theorem exec_bwait {s : State} (hpc : s.eng.pc = .idle) : exec .bwait s = .next (bwait s).2 := if_pos hpc

/-- Settles O30: the first read, of a device at rest, sees busy clear. -/
theorem bwaitSucceedsAtOnceWhenIdle : Obligations.BwaitSucceedsAtOnceWhenIdle := by
  unfold Obligations.BwaitSucceedsAtOnceWhenIdle
  rintro s ⟨hpc, hh, hi, hv⟩
  obtain ⟨r, hr, hoff, hbusy⟩ := busyLocation_known hv
  have hclear : (portRead32 r (waitStart s)).1[31] = false := by
    rw [portRead32_rest (by exact hh) (by exact hi)]
    exact (hbusy s.dev s.oracle hh).trans (by rw [hi]; rfl)
  have hdev : (portRead32 r (waitStart s)).2.dev = s.dev := by
    rw [portRead32_rest (by exact hh) (by exact hi)]
    rfl
  have hloop : pollLoop r (100001 + 1) 0 (waitStart s) = (.success, (portRead32 r (waitStart s)).2) := by
    rw [pollLoop]
    simp [hclear]
  refine ⟨r.offset, (portRead32 r (waitStart s)).1, _, exec_bwait hpc, hoff, hclear, ?_⟩
  rw [bwait_polls hr, hloop]
  exact ⟨rfl, hdev, rfl, rfl, rfl⟩

/-- BWAIT makes at most 100,003 reads, of a word each, and no other access (R166). -/
theorem bwait_reads (s : State) :
    ∃ l, (bwait s).2.trace = s.trace ++ l ∧ l.length ≤ 100002 + 1 ∧ ∀ x ∈ l, ∃ off v, x = Access.rd32 off v := by
  by_cases hv : s.params.version = .other
  · refine ⟨[], ?_, by simp, by simp⟩
    rw [bwait_other hv]
    simp [endOp]
  · obtain ⟨r, hr, -⟩ := busyLocation_known hv
    obtain ⟨l, v, m, hw, hl⟩ := pollLoop_reads r 100001 0 (waitStart s) rfl rfl
    refine ⟨l ++ [.rd32 r.offset v], ?_, by simp; omega, fun x hx => ?_⟩
    · rw [bwait_polls hr, endOp, State.setRes_trace, hw.trace, List.append_assoc]
      rfl
    · rcases List.mem_append.1 hx with hx | hx
      · obtain ⟨w, rfl, -⟩ := hw.busy x hx
        exact ⟨_, w, rfl⟩
      · rw [List.mem_singleton.1 hx]
        exact ⟨_, v, rfl⟩

/-- Settles O31: each read takes one from the count of reads left. -/
theorem bwaitIsBounded : Obligations.BwaitIsBounded := by
  unfold Obligations.BwaitIsBounded
  intro s hpc
  obtain ⟨l, htrace, hlen, hreads⟩ := bwait_reads s
  exact ⟨_, l, exec_bwait hpc, htrace, hlen, hreads⟩

/-- Settles O32: what the poll loop says of a wait, from its start on. -/
theorem bwaitDecidesByTheLastRead : Obligations.BwaitDecidesByTheLastRead := by
  unfold Obligations.BwaitDecidesByTheLastRead
  intro s hpc hv
  obtain ⟨r, hr, hoff, -⟩ := busyLocation_known hv
  obtain ⟨l, v, m, hw, -⟩ := pollLoop_reads r 100001 0 (waitStart s) rfl rfl
  have hcode : (pollLoop r (100001 + 1) 0 (waitStart s)).1.code = if v[31] then 3#32 else 0#32 := by
    rw [hw.status]
    split <;> rfl
  have htime := hw.time
  simp only [Took, waitStart, State.setElapsed_eng_elapsed, Nat.zero_add] at htime
  refine ⟨_, m, r.offset, l, v, exec_bwait hpc, hoff, ?_⟩
  rw [bwait_polls hr]
  refine ⟨hw.trace, fun x hx => hw.busy x hx, ?_, hw.most, fun h => by rw [hw.count h, Nat.zero_add], htime.1, htime.2,
    hw.havoc, hw.keeps.completions, hw.keeps.refused⟩
  rw [endOp, State.setRes, hcode, hw.eng]
  rfl

/-! ### A wait that times out (R161) -/

/-- A Variant A device in `TX` whose scheduler takes no step is read busy, at the cost of two free choices: whether it steps,
and EXEC. -/
theorem portRead32_standing {s : State} {x : Txn} {y : Nat} {rest : List Nat} (ha : s.params.version = .a)
    (hh : s.dev.havoc = false) (hp : s.dev.phase = .tx x) (ht : s.oracle.tape = 0 :: y :: rest) :
    ∃ v : Word, v[31] = true ∧ portRead32 .ctrl0 s =
      (v, { s with oracle := { tape := rest, used := s.oracle.used + 2 }, trace := s.trace ++ [.rd32 0x00 v] }) := by
  have hturn : deviceTurn s.params s.dev s.oracle = (s.dev, { tape := y :: rest, used := s.oracle.used + 1 }) := by
    simp [deviceTurn, deviceMoves, hh, hp, Phase.isIdle, Oracle.next, ht]
  have horacle : (devRead32 s.params s.dev .ctrl0 { tape := y :: rest, used := s.oracle.used + 1 }).2 =
      { tape := rest, used := s.oracle.used + 2 } := by
    rw [devRead32_known (by simp [ha]) hh]
    simp [ctrl0Read, ha, hp, Phase.isIdle, Oracle.flag, Oracle.next]
  refine ⟨(devRead32 s.params s.dev .ctrl0 { tape := y :: rest, used := s.oracle.used + 1 }).1, ?_, ?_⟩
  · rw [devRead32_ctrl0_busy ha hh, hp]
    rfl
  · simp only [portRead32, State.turn, hturn, horacle]
    rfl

/-- Under `EXACT` the time between two reads is the time slept (R163). -/
theorem pass_exact {s : State} (he : s.params.pollTiming = .exact) (k : Nat) :
    pass k s = s.setElapsed (s.eng.elapsed + k) := by
  simp only [pass, he]

/-- The poll loop over a device that stands in `TX`, under `EXACT`: it reads until the bound, and times out (R160, R161). -/
theorem pollLoop_standing {x : Txn} (k n : Nat) (s : State) (hn : n + (k + 1) = Config.maxBusyReads)
    (ha : s.params.version = .a) (he : s.params.pollTiming = .exact) (hh : s.dev.havoc = false) (hp : s.dev.phase = .tx x)
    (ht : s.oracle.tape = List.replicate (2 * (k + 1)) 0) :
    (pollLoop .ctrl0 (k + 1) n s).1 = .timeout ∧ (pollLoop .ctrl0 (k + 1) n s).2.dev = s.dev ∧
      (pollLoop .ctrl0 (k + 1) n s).2.trace.length = s.trace.length + (k + 1) ∧
      (pollLoop .ctrl0 (k + 1) n s).2.eng =
        { s.eng with npoll := some Config.maxBusyReads, elapsed := s.eng.elapsed + Config.pollInterval * k } := by
  induction k generalizing n s with
  | zero =>
    obtain ⟨v, hv, hread⟩ := portRead32_standing (rest := []) ha hh hp ht
    have hbound : boundExceeded (n + 1) = true := by
      rw [show n + 1 = Config.maxBusyReads from hn]
      decide
    rw [pollLoop]
    simp only [hread, hv, if_true, timeoutNow, State.setNpoll_params, he, hbound, boundReached, State.setOracle_params,
      finalRead]
    refine ⟨rfl, rfl, by simp, ?_⟩
    simp [State.setOracle, State.setNpoll, hn]
  | succ k ih =>
    obtain ⟨v, hv, hread⟩ := portRead32_standing (rest := List.replicate (2 * (k + 1)) 0) ha hh hp ht
    have hbound : boundExceeded (n + 1) = false := by
      simp only [boundExceeded, decide_eq_false_iff_not, Config.pollInterval, Config.pollTimeout]
      simp only [Config.maxBusyReads, Config.pollInterval, Config.pollTimeout] at hn
      omega
    rw [pollLoop]
    simp only [hread, hv, if_true, timeoutNow, State.setNpoll_params, he, hbound, Bool.false_eq_true, if_false]
    rw [pass_exact (by exact he)]
    generalize hs' : State.setElapsed _ _ = s'
    have heng : s'.eng = { s.eng with npoll := some (n + 1), elapsed := s.eng.elapsed + Config.pollInterval } := by
      rw [← hs']
      rfl
    have htrace : s'.trace.length = s.trace.length + 1 := by
      rw [← hs']
      simp
    have hdev : s'.dev = s.dev := by rw [← hs']; rfl
    have hpar : s'.params = s.params := by rw [← hs']; rfl
    obtain ⟨h1, h2, h3, h4⟩ := ih (n + 1) s' (by omega) (by rw [hpar, ha]) (by rw [hpar, he]) (by rw [hdev, hh])
      (by rw [hdev, hp]) (by rw [← hs']; rfl)
    refine ⟨h1, h2.trans hdev, by omega, ?_⟩
    rw [h4, heng, Nat.mul_succ]
    simp only [Nat.add_assoc, Nat.add_comm Config.pollInterval]

/-- Settles O33: the poll loop over a device that stands, from the wait's start on. -/
theorem bwaitTimesOutExactly : Obligations.BwaitTimesOutExactly := by
  unfold Obligations.BwaitTimesOutExactly
  intro s x hpc ha he hh hp ht
  have htape : (waitStart s).oracle.tape = List.replicate (2 * (100001 + 1)) 0 := ht
  obtain ⟨hstatus, hdev, htrace, heng⟩ := pollLoop_standing 100001 0 (waitStart s) rfl ha he hh hp htape
  refine ⟨_, exec_bwait hpc, ?_⟩
  rw [bwait_polls (r := .ctrl0) (by rw [ha]; rfl), endOp]
  refine ⟨?_, ?_, ?_⟩
  · rw [State.setRes_dev, hdev]
    rfl
  · rw [State.setRes_trace, htrace]
    rfl
  · have helapsed : (waitStart s).eng.elapsed + Config.pollInterval * 100001 = 2000020 := by simp [waitStart, Config.pollInterval]
    have hreads : Config.maxBusyReads = 100002 := by decide
    rw [State.setRes, hstatus, heng, helapsed, hreads]
    rfl

end Sys2Proof.Machine
end

section
/-! The device agent (45_device_agent.md): its transitions, and what a completed transaction leaves. -/

namespace Sys2Proof.Machine

/-! ### The transitions (R220, R225 to R229) -/

/-- `IDLE` has no transition. -/
theorem deviceMove_idle (p : Params) (n : Nat) {d : Device} (o : Oracle) (h : d.phase = .idle) :
    deviceMove p n d o = (d, o) := by
  simp only [deviceMove, h]

/-- A transaction completes from `RX`, and from `TX` where it has nothing to receive. -/
theorem deviceMove_completes (p : Params) (n : Nat) {d : Device} {x : Txn} (o : Oracle)
    (h : d.phase = .rx x ∨ d.phase = .tx x ∧ x.rx = 0) : deviceMove p n d o = completeTxn p x d o := by
  rcases h with h | ⟨h, h0⟩
  · simp only [deviceMove, h]
  · simp only [deviceMove, h, h0, if_true]

/-- From `TX` with bytes to receive the device goes to `GAP` by an even choice where it is admitted, and to `RX` else. -/
theorem deviceMove_tx (p : Params) (n : Nat) {d : Device} {x : Txn} (o : Oracle) (h : d.phase = .tx x) (hrx : 0 < x.rx) :
    deviceMove p n d o =
      (if p.rxGapAdmitted && n % 2 == 0 then { d with phase := .gap x } else { d with phase := .rx x }, o) := by
  simp only [deviceMove, h, if_neg (Nat.pos_iff_ne_zero.1 hrx)]
  split <;> rfl

/-- Settles O49: the transitions of each phase; an odd choice reaches `RX` and an even one `GAP`. -/
theorem deviceTransitions : Obligations.DeviceTransitions := by
  unfold Obligations.DeviceTransitions
  intro p d o
  have done (x : Txn) (h : d.phase = .rx x ∨ d.phase = .tx x ∧ x.rx = 0) (n : Nat) :
      (deviceMove p n d o).1.phase = .idle := by
    rw [deviceMove_completes p n o h, completeTxn_phase]
  refine ⟨fun h n => deviceMove_idle p n o h, fun x h h0 => done x (.inr ⟨h, h0⟩), fun x h hrx => ⟨fun n => ?either, ?rx,
    fun hgap => ?gap⟩, fun x h n => deviceMove_gap p n o h, fun x h => done x (.inl h)⟩
  case either =>
    rw [deviceMove_tx p n o h hrx]
    rcases hgap : p.rxGapAdmitted with _ | _
    · exact .inl rfl
    · rcases hn : n % 2 == 0 with _ | _
      · exact .inl rfl
      · exact .inr ⟨rfl, rfl⟩
  case rx => exact ⟨1, by decide, by rw [deviceMove_tx p 1 o h hrx]; simp⟩
  case gap => exact ⟨2, by decide, by rw [deviceMove_tx p 2 o h hrx]; simp [hgap]⟩

/-! ### Completion (R230, R231) -/

/-- Settles O50: the move is the completion, which leaves the received bytes and keeps the registers. -/
theorem completionOfATransaction : Obligations.CompletionOfATransaction := by
  unfold Obligations.CompletionOfATransaction
  intro p d o n x hfits hphase
  obtain ⟨rxb, hlen, hcells, hevents⟩ := completeTxn_spec p d o hfits
  obtain ⟨hcs, htrigger, hcleared, hhigh, hctrl0, hopcode⟩ := completeTxn_same p d o x
  refine ⟨rxb, _, by rw [deviceMove_completes p n o hphase], hlen, fun k hk => ?_, hevents, completeTxn_phase p x d o, hcs,
    htrigger, hcleared, completeTxn_havoc p x d o, hhigh, hctrl0, hopcode⟩
  simp only [← hcells, Memory.bytes_getElem]

/-- A draw of bytes gives the free choices that are next, as bytes (R8, D17). -/
theorem Oracle.bytes_tape (l : List Byte) (u : Nat) :
    (Oracle.bytes l.length { tape := l.map BitVec.toNat, used := u }).1 = l := by
  induction l generalizing u with
  | nil => rfl
  | cons b rest ih => simp [Oracle.bytes, Oracle.bits, Oracle.next, ih]

/-- Settles O51: the bytes the target answers are the first free choices of the completion. -/
theorem targetMayAnswerAnyBytes : Obligations.TargetMayAnswerAnyBytes := by
  unfold Obligations.TargetMayAnswerAnyBytes
  intro p d o n x rxb hphase hlen
  refine ⟨rxb.map BitVec.toNat, ?_⟩
  rw [deviceMove_completes p n _ (.inl hphase)]
  simp only [completeTxn, ← hlen, Oracle.bytes_tape]

end Sys2Proof.Machine
end

section
/-! XFER (44_fifo_engine.md): which record a message delivers, with which buffers, and which accesses it makes. -/

namespace Sys2Proof.Machine

/-! ### The two courses of an admitted message -/

/-- An XFER of an admitted message that leads from `s` to `t` and delivers `c`: one without a send segment, which ends after
LOAD (R186), or one with, which comes to FINAL on one of the paths of `Executed` (R188, R189). -/
inductive XferRun (i : BitVec 8) (segs : List Segment) (s : State) : State → Completion → Prop where
  | noSend (len : Nat) (o : Oracle) : firstSend segs = none →
      XferRun i segs s
        (notified { cs := i, segs := segs } .invalidArgument len o
          (finalized (raiseStatus .invalidArgument ((selected i segs s).setRxc (totalLen .recv segs)))))
        { status := .invalidArgument, actualLength := len, segs := segs }
  | send (b : Byte) (tx : List Byte) (st : Status) (m : Message) (u : State) (len : Nat) (o : Oracle) :
      Claim.hasSend segs → sentBytes segs = b :: tx → tx.length + totalLen .recv segs ≤ Config.fifoCapacity →
      Executed b tx.length (totalLen .recv segs) { cs := i, segs := segs }
        (programmed tx.length (totalLen .recv segs) (packed i segs b tx s)) st m u →
      (st = .success → len = tx.length + totalLen .recv segs + 1) →
      XferRun i segs s (notified m st len o (finalized u)) { status := st, actualLength := len, segs := m.segs }

theorem admits_of_not_inadmissible {segs : List Segment} (h : ¬ Claim.inadmissible segs) : admits segs = true := by
  rw [Claim.inadmissible_iff] at h
  simpa using h

/-- An admitted message runs on one of the two courses (R183, R193). -/
theorem exec_xfer_run (i : BitVec 8) {segs : List Segment} {s : State} (hpc : s.eng.pc = .idle)
    (h : ¬ Claim.inadmissible segs) : ∃ t c, exec (.xfer i segs) s = .next t ∧ XferRun i segs s t c := by
  have hadm := admits_of_not_inadmissible h
  rcases hf : firstSend segs with _ | seg0
  · obtain ⟨len, o, e⟩ := xfer_none (i := i) hpc hadm hf
    exact ⟨_, _, e, .noSend len o hf⟩
  · obtain ⟨b, tx, st, m, u, len, o, hsent, hfit, hx, e, hlen⟩ := xfer_some (i := i) hpc hadm hf
    exact ⟨_, _, e, .send b tx st m u len o ((Claim.hasSend_iff segs).2 ⟨seg0, hf⟩) hsent hfit hx hlen⟩

/-- What every XFER of an admitted message leaves: its record, an `IDLE` engine that holds nothing of it, and the host's other
state as it was (R192). -/
structure Delivered (s t : State) (c : Completion) : Prop where
  completions : t.completions = s.completions ++ [c]
  status : t.eng.status = some c.status
  res : t.eng.res = some c.status.code
  pc : t.eng.pc = .idle
  msg : t.eng.msg = none
  opc : t.eng.opc = none
  txc : t.eng.txc = none
  rxc : t.eng.rxc = none
  cur : t.eng.cur = none
  actual : t.eng.actual = none
  params : t.params = s.params
  requests : t.requests = s.requests
  refused : t.refused = s.refused

/-- NOTIFY delivers what FINAL carries (R191, R192). -/
theorem AtFinal.delivered {tx rx : Nat} {s u : State} {st : Status} {m : Message} (h : AtFinal tx rx s st m u) (len : Nat)
    (o : Oracle) :
    Delivered s (notified m st len o (finalized u)) { status := st, actualLength := len, segs := m.segs } := by
  have hk := finalized_keeps u
  exact ⟨congrArg (· ++ [_]) (hk.completions.trans h.completions), hk.status.trans h.status, rfl, rfl, rfl, rfl, rfl, rfl,
    rfl, rfl, hk.params.trans h.params, hk.requests.trans h.requests, hk.refused.trans h.refused⟩

theorem XferRun.delivered {i : BitVec 8} {segs : List Segment} {s t : State} {c : Completion}
    (h : XferRun i segs s t c) : Delivered s t c := by
  cases h with
  | noSend len o hf =>
    have kc := cssel_keeps i (startXfer i segs s)
    have ha : AtFinal 0 0 s .invalidArgument { cs := i, segs := segs }
        (raiseStatus .invalidArgument ((selected i segs s).setRxc (totalLen .recv segs))) :=
      ⟨kc.params, kc.requests, kc.completions, kc.refused, rfl, rfl, kc.msg, fun h => by simp at h⟩
    exact ha.delivered len o
  | send b tx st m u len o _ _ hfit hx _ =>
    obtain ⟨hparams, hrequests, hcompletions, hrefused, hmsg⟩ :=
      programmed_keeps i segs b (totalLen .recv segs) s (tx := tx) (by omega)
    have hf := hx.atFinal hmsg
    have ha : AtFinal tx.length (totalLen .recv segs) s st m u :=
      ⟨hf.params.trans hparams, hf.requests.trans hrequests, hf.completions.trans hcompletions, hf.refused.trans hrefused,
        hf.pc, hf.status, hf.msg, hf.actual⟩
    exact ha.delivered len o

/-- The run of an XFER that has answered a state with a record. -/
theorem xferRun_of_exec {i : BitVec 8} {segs : List Segment} {s t : State} (hadm : ¬ Claim.inadmissible segs)
    (h : exec (.xfer i segs) s = .next t) : ∃ c, XferRun i segs s t c := by
  obtain ⟨t', c, e, hrun⟩ := exec_xfer_run i (exec_next_idle h) hadm
  obtain rfl : t' = t := by simpa using e.symm.trans h
  exact ⟨c, hrun⟩

theorem xferRun_of_record {i : BitVec 8} {segs : List Segment} {s t : State} {c : Completion}
    (hadm : ¬ Claim.inadmissible segs) (h : exec (.xfer i segs) s = .next t)
    (hc : t.completions = s.completions ++ [c]) : XferRun i segs s t c := by
  obtain ⟨c', hrun⟩ := xferRun_of_exec hadm h
  obtain rfl : c' = c := by simpa using hrun.delivered.completions.symm.trans hc
  exact hrun

/-! ### The record -/

/-- Settles O36: a message refused on admission comes to no access. -/
theorem xferRefusesInadmissibleMessages : Obligations.XferRefusesInadmissibleMessages := by
  unfold Obligations.XferRefusesInadmissibleMessages
  intro s i segs hpc h
  exact exec_xfer_refused hpc ((Claim.inadmissible_iff segs).1 h)

/-- Settles O37: both courses of an admitted message end in NOTIFY. -/
theorem xferDeliversExactlyOneRecord : Obligations.XferDeliversExactlyOneRecord := by
  unfold Obligations.XferDeliversExactlyOneRecord
  intro s i segs hpc hadm
  obtain ⟨t, c, e, hrun⟩ := exec_xfer_run i hpc hadm
  have hd := hrun.delivered
  exact ⟨t, c, e, hd.completions, hd.status, hd.pc, hd.msg, hd.opc, hd.txc, hd.rxc, hd.cur, hd.actual, hd.params,
    hd.requests, hd.refused⟩

/-- A message with a send segment ends in UnsupportedVersion exactly on an unknown version tag, and never in InvalidArgument
(R188). -/
theorem Executed.status {b : Byte} {tx rx : Nat} {m m' : Message} {s t : State} {st : Status}
    (h : Executed b tx rx m s st m' t) : st ≠ .invalidArgument ∧ (st = .unsupportedVersion ↔ s.params.version = .other) := by
  cases h with
  | unsupported hv => simp [hv]
  | timeout1 u hv | sent u hv | timeout2 u hv | drained u t segs' hv => simp [hv]

/-- Settles O38: the courses' statuses, by the send segment and the version. -/
theorem xferStatusByCause : Obligations.XferStatusByCause := by
  unfold Obligations.XferStatusByCause
  intro s t i segs c hadm h hc
  cases xferRun_of_record hadm h hc with
  | noSend len o hf =>
    have hno : ¬ Claim.hasSend segs := by
      rw [Claim.hasSend_iff, hf]
      simp
    simp [hno]
  | send b tx st m u len o hsend _ hfit hx _ =>
    obtain ⟨hia, huv⟩ := hx.status
    obtain ⟨hparams, -⟩ := programmed_keeps i segs b (totalLen .recv segs) s (tx := tx) (by omega)
    rw [hparams] at huv
    simp [hsend, hia, huv]

/-- Settles O39: the length counted on the success path. -/
theorem xferActualLength : Obligations.XferActualLength := by
  unfold Obligations.XferActualLength
  intro s t i segs c hadm h hc hst
  cases xferRun_of_record hadm h hc with
  | noSend len o hf => simp at hst
  | send b tx st m u len o _ hsent _ _ hlen =>
    rw [Claim.rxLen_eq, Claim.txLen, hsent]
    exact hlen hst

/-- The buffers keep their frame on every path, and are not written on a path that fails (R46, R194). -/
theorem Executed.buffers {b : Byte} {tx rx : Nat} {m m' : Message} {s t : State} {st : Status}
    (h : Executed b tx rx m s st m' t) : messageFrame m'.segs = messageFrame m.segs ∧ (st ≠ .success → m' = m) := by
  cases h with
  | unsupported | timeout1 | sent | timeout2 => exact ⟨rfl, fun _ => rfl⟩
  | drained u t segs' _ _ _ _ _ _ _ hframe => exact ⟨hframe, fun h => absurd rfl h⟩

/-- Settles O40: only the read-back of the success path rewrites a buffer, and it keeps the segments' form. -/
theorem xferBuffersOnFailure : Obligations.XferBuffersOnFailure := by
  unfold Obligations.XferBuffersOnFailure
  intro s t i segs c hadm h hc
  cases xferRun_of_record hadm h hc with
  | noSend len o hf => exact ⟨rfl, fun _ => rfl⟩
  | send b tx st m u len o _ _ _ hx _ =>
    obtain ⟨hframe, hsame⟩ := hx.buffers
    exact ⟨hframe, fun hst => by rw [hsame hst]⟩

/-- Settles O48: what NOTIFY leaves. -/
theorem xferLeavesItsStatusCode : Obligations.XferLeavesItsStatusCode := by
  unfold Obligations.XferLeavesItsStatusCode
  intro s t i segs c hadm h hc
  rw [(xferRun_of_record hadm h hc).delivered.res]
  cases c.status <;> rfl

/-! ### The accesses -/

/-- From `s` to `t` at most `n` accesses were made, each as `P` says. -/
def Adds (P : Access → Prop) (n : Nat) (s t : State) : Prop :=
  ∃ l, t.trace = s.trace ++ l ∧ l.length ≤ n ∧ ∀ x ∈ l, P x

/-- An access that is no byte read but of CS and TRIGGER, so that it reads no FIFO cell. -/
def ReadsNoCell (x : Access) : Prop := ∀ off v, x = .rd8 off v → off = 0x1D ∨ off = 0x47

theorem Adds.none {P : Access → Prop} {s t : State} (h : t.trace = s.trace) : Adds P 0 s t :=
  ⟨[], by simp [h], Nat.le_refl _, by simp⟩

theorem Adds.of_eq {P : Access → Prop} {s t : State} {l : List Access} (h : t.trace = s.trace ++ l) (hl : ∀ x ∈ l, P x) :
    Adds P l.length s t := ⟨l, h, Nat.le_refl _, hl⟩

theorem Adds.trans {P : Access → Prop} {n m : Nat} {s t u : State} (h : Adds P n s t) (g : Adds P m t u) :
    Adds P (n + m) s u := by
  obtain ⟨l, h1, h2, h3⟩ := h
  obtain ⟨k, g1, g2, g3⟩ := g
  refine ⟨l ++ k, by rw [g1, h1, List.append_assoc], by rw [List.length_append]; omega, fun x hx => ?_⟩
  rcases List.mem_append.1 hx with hx | hx
  · exact h3 x hx
  · exact g3 x hx

theorem Adds.le {P : Access → Prop} {n m : Nat} {s t : State} (h : Adds P n s t) (hn : n ≤ m) : Adds P m s t := by
  obtain ⟨l, h1, h2, h3⟩ := h
  exact ⟨l, h1, h2.trans hn, h3⟩

theorem Adds.imp {P Q : Access → Prop} {n : Nat} {s t : State} (h : Adds P n s t) (hpq : ∀ x, P x → Q x) : Adds Q n s t := by
  obtain ⟨l, h1, h2, h3⟩ := h
  exact ⟨l, h1, h2, fun x hx => hpq x (h3 x hx)⟩

/-- Going to a label makes no access. -/
theorem Adds.goto {P : Access → Prop} {n : Nat} {s t : State} (h : Adds P n s t) (l : Label) : Adds P n s (t.goto l) := h

theorem readsNoCell_write (off : Nat) (v : Byte) : ReadsNoCell (.wr8 off v) := fun _ _ h => by simp at h

theorem readsNoCell_word (off : Nat) (v : Word) : ReadsNoCell (.rd32 off v) ∧ ReadsNoCell (.wr32 off v) :=
  ⟨fun _ _ h => by simp at h, fun _ _ h => by simp at h⟩

/-- SC8 of CS or TRIGGER makes two accesses. -/
theorem sc8_adds {r : Reg8} (hr : r.offset = 0x1D ∨ r.offset = 0x47) (a c : Byte) (s : State) :
    Adds ReadsNoCell 2 s (sc8 r.offset a c s) := by
  obtain ⟨-, -, -, -, htrace⟩ := sc8_spec r a c s
  refine Adds.of_eq htrace fun x hx => ?_
  rcases List.mem_pair.1 hx with rfl | rfl
  · intro off v h
    obtain ⟨rfl, -⟩ : r.offset = off ∧ _ := by simpa using h
    exact hr
  · exact readsNoCell_write _ _

/-- SC32 makes two accesses, neither of a byte. -/
theorem sc32_adds (r : Reg32) (a c : Word) (s : State) : Adds ReadsNoCell 2 s (sc32 r.offset a c s) := by
  obtain ⟨-, -, -, -, htrace⟩ := sc32_spec r a c s
  refine Adds.of_eq htrace fun x hx => ?_
  rcases List.mem_pair.1 hx with rfl | rfl
  · exact (readsNoCell_word _ _).1
  · exact (readsNoCell_word _ _).2

theorem csdesel_adds (s : State) : Adds ReadsNoCell 2 s (csdesel s) := by
  refine Adds.of_eq (l := [.rd8 0x1D (portRead8 .cs s).1, .wr8 0x1D ((portRead8 .cs s).1 &&& ~~~csMask)])
    (List.append_assoc s.trace _ _) fun x hx => ?_
  rcases List.mem_pair.1 hx with rfl | rfl
  · intro off v h
    obtain ⟨rfl, -⟩ : 0x1D = off ∧ _ := by simpa using h
    exact .inl rfl
  · exact readsNoCell_write _ _

theorem finalized_adds (s : State) : Adds ReadsNoCell 2 s (finalized s) := by
  rw [finalized_eq]
  split
  · exact csdesel_adds s
  · exact (Adds.none rfl).le (by omega)

theorem selected_adds (i : BitVec 8) (segs : List Segment) (s : State) : Adds ReadsNoCell 2 s (selected i segs s) :=
  sc8_adds (r := .cs) (.inl rfl) _ _ (startXfer i segs s)

/-- LOAD writes the transmit bytes and PROG the two counts (R185, R187). -/
theorem programmed_adds (i : BitVec 8) (segs : List Segment) (b : Byte) {tx : List Byte} (rx : Nat) (s : State)
    (hfit : tx.length ≤ Config.fifoCapacity) :
    Adds ReadsNoCell (tx.length + 4) s (programmed tx.length rx (packed i segs b tx s)) := by
  have hload := loadWrites_trace 0 tx (selected i segs s) (by omega)
  have hbytes : Adds ReadsNoCell tx.length (selected i segs s) (packed i segs b tx s) := by
    have h := Adds.of_eq (P := ReadsNoCell) (t := packed i segs b tx s) hload fun x hx => by
      obtain ⟨k, hk, rfl⟩ := List.mem_mapIdx.1 hx
      exact readsNoCell_write _ _
    simpa using h
  have hcounts : Adds ReadsNoCell 2 (packed i segs b tx s) (programmed tx.length rx (packed i segs b tx s)) := by
    refine Adds.of_eq (l := [.wr8 0x48 (BitVec.ofNat 8 tx.length), .wr8 0x4B (BitVec.ofNat 8 rx)])
      (List.append_assoc (packed i segs b tx s).trace _ _) fun x hx => ?_
    rcases List.mem_pair.1 hx with rfl | rfl <;> exact readsNoCell_write _ _
  exact (((selected_adds i segs s).trans hbytes).trans hcounts).le (by omega)

theorem setop_adds (b : Byte) (s : State) : Adds ReadsNoCell 2 s (setop b s).2 := by
  rcases hv : s.params.version with _ | _ | _
  · rw [setop_a hv]
    exact sc32_adds .ctrl0 _ _ s
  · rw [setop_b hv]
    exact (Adds.of_eq (l := [.wr8 0x45 b]) rfl (by simp [readsNoCell_write])).le (by simp)
  · rw [setop_other hv]
    exact (Adds.none rfl).le (by omega)

theorem trig_adds (s : State) : Adds ReadsNoCell 2 s (trig s).2 := by
  rcases hv : s.params.version with _ | _ | _
  · rw [trig_a hv]
    exact sc32_adds .ctrl0 _ _ s
  · rw [trig_b hv]
    exact sc8_adds (r := .trigger) (.inr rfl) _ _ s
  · rw [trig_other hv]
    exact (Adds.none rfl).le (by omega)

/-- A wait makes at most 100,003 reads, of a word each (R166). -/
theorem bwait_adds (s : State) : Adds ReadsNoCell 100003 s (bwait s).2 := by
  obtain ⟨l, htrace, hlen, hreads⟩ := bwait_reads s
  refine ⟨l, htrace, hlen, fun x hx => ?_⟩
  obtain ⟨off, v, rfl⟩ := hreads x hx
  exact (readsNoCell_word off v).1

/-- DRAIN makes one access per received byte (R189). -/
theorem drainBytes_adds {txc count k : Nat} {s t : State} (h : drainBytes txc count k s = .ok t) :
    Adds (fun _ => True) count s t := by
  induction count generalizing k s with
  | zero =>
    simp only [drainBytes, Except.ok.injEq] at h
    exact h ▸ Adds.none rfl
  | succ count ih =>
    simp only [drainBytes, bind_ok] at h
    obtain ⟨res, -, s2, hstore, hrest⟩ := h
    obtain ⟨m, rfl⟩ := storeReceived_ok hstore
    have hread : Adds (fun _ => True) 1 s (rd8 (Config.fifoBase + txc + k) s) := by
      unfold rd8
      split
      · exact (Adds.none rfl).le (by omega)
      · exact Adds.of_eq (l := [_]) rfl (by simp)
    exact (Adds.trans (t := (rd8 _ s).setMsg m) hread (ih hrest)).le (by omega)

/-- The accesses from SETOP to FINAL: SETOP, TRIG, up to two waits, and on Success alone one read per received byte
(R188, R189, R194). -/
theorem Executed.adds {P : Access → Prop} {b : Byte} {tx rx : Nat} {m m' : Message} {s t : State} {st : Status}
    (h : Executed b tx rx m s st m' t) (hP : ∀ x, ReadsNoCell x → P x) (hS : st = .success → ∀ x, P x) :
    Adds P (200010 + rx) s t := by
  have hset : Adds P 2 s (setop b s).2 := (setop_adds b s).imp hP
  have htrig (u : State) (hu : u = (trig ((setop b s).2.goto .trig)).2.goto .wait1) : Adds P 4 s u := by
    rw [hu]
    exact ((hset.goto .trig).trans ((trig_adds _).imp hP)).goto .wait1
  have wait {n : Nat} {u : State} (hu : Adds P n s u) (l : Label) : Adds P (n + 100003) s ((bwait u).2.goto l) :=
    (hu.trans ((bwait_adds u).imp hP)).goto l
  cases h with
  | unsupported _ => exact (hset.goto .final).le (by omega)
  | timeout1 u _ hu _ => exact (wait (htrig u hu) .final).le (by omega)
  | sent u _ hu _ _ => exact (wait (htrig u hu) .wait2).le (by omega)
  | timeout2 u _ hu _ _ _ => exact (wait (wait (htrig u hu) .wait2) .final).le (by omega)
  | drained u t segs' _ hu _ _ _ hd _ _ _ =>
    have hdrain := (drainBytes_adds hd).imp (Q := P) fun x _ => hS rfl x
    exact ((wait (wait (htrig u hu) .wait2) .drain).trans hdrain).le (by omega)

/-- The accesses of an admitted message; a FIFO cell is read on Success alone (R197, R318). -/
theorem XferRun.adds {P : Access → Prop} {i : BitVec 8} {segs : List Segment} {s t : State} {c : Completion}
    (h : XferRun i segs s t c) (hP : ∀ x, ReadsNoCell x → P x) (hS : c.status = .success → ∀ x, P x) :
    Adds P 200156 s t := by
  cases h with
  | noSend len o hf =>
    have h : Adds ReadsNoCell (2 + 2) s _ := (selected_adds i segs s).trans
      (finalized_adds (raiseStatus .invalidArgument ((selected i segs s).setRxc (totalLen .recv segs))))
    exact (h.imp hP).le (by omega)
  | send b tx st m u len o _ _ hfit hx _ =>
    have hload := programmed_adds i segs b (totalLen .recv segs) s (tx := tx) (by omega)
    have h := ((hload.imp hP).trans (hx.adds hP hS)).trans ((finalized_adds u).imp hP)
    simp only [Config.fifoCapacity] at hfit
    exact Adds.le h (by omega)

/-- Settles O46: FIFO reads stand in the success path only. -/
theorem xferFailureReadsNoFifoByte : Obligations.XferFailureReadsNoFifoByte := by
  unfold Obligations.XferFailureReadsNoFifoByte
  intro s t i segs c l hadm h hc hl hst off v hmem
  obtain ⟨l', hl', -, hreads⟩ := (xferRun_of_record hadm h hc).adds (P := ReadsNoCell) (fun _ hx => hx)
    (fun hsuccess => absurd hsuccess hst)
  obtain rfl : l' = l := by simpa using hl'.symm.trans hl
  exact hreads _ hmem off v rfl

/-- Settles O47: the accesses of each stage added up. -/
theorem xferAccessBound : Obligations.XferAccessBound := by
  unfold Obligations.XferAccessBound
  intro s i segs hpc hadm
  obtain ⟨t, c, e, hrun⟩ := exec_xfer_run i hpc hadm
  obtain ⟨l, htrace, hlen, -⟩ := hrun.adds (P := fun _ => True) (fun _ _ => trivial) (fun _ _ => trivial)
  exact ⟨t, l, e, htrace, hlen⟩

/-! ### A message that ends before its transaction -/

/-- A message without a send segment, its lengths its buffers', is admitted (R182, D21). -/
theorem not_inadmissible_of_noSend {segs : List Segment} (hno : ¬ Claim.hasSend segs)
    (hlen : ∀ seg ∈ segs, seg.len = seg.buf.length) : ¬ Claim.inadmissible segs := by
  rintro (⟨pre, seg, post, rfl, hsend, -⟩ | ⟨hsend, -⟩ | ⟨seg, hmem, hne⟩)
  · exact hno ⟨seg, by simp, hsend⟩
  · exact hno hsend
  · exact hne (hlen seg hmem)

/-- The course of a message without a send segment on a device at rest: CS selected, and deselected in Variant B (R184,
R186, R191). -/
theorem XferRun.noSend_rest {i : BitVec 8} {segs : List Segment} {s t : State} {c : Completion} (hq : s.quiet)
    (hno : ¬ Claim.hasSend segs) (h : XferRun i segs s t c) :
    ∃ w : Byte, w = setClear s.dev.cs (csIndex i) csMask ∧ c.status = .invalidArgument ∧ c.segs = segs ∧
      (s.params.version = .a → t.dev = { s.dev with cs := w } ∧
        t.trace = s.trace ++ [.rd8 0x1D s.dev.cs, .wr8 0x1D w]) ∧
      (s.params.version = .b → t.dev = { s.dev with cs := w &&& ~~~csMask } ∧
        t.trace = s.trace ++ [.rd8 0x1D s.dev.cs, .wr8 0x1D w, .rd8 0x1D w, .wr8 0x1D (w &&& ~~~csMask)]) := by
  obtain ⟨-, hh, hi, hv⟩ := hq
  cases h with
  | send b tx st m u len o hsend => exact absurd hsend hno
  | noSend len o hf =>
    generalize hu : raiseStatus .invalidArgument ((selected i segs s).setRxc (totalLen .recv segs)) = u
    have hsel := cssel_rest i (s := startXfer i segs s) hh hi hv
    have hdev : u.dev = { s.dev with cs := setClear s.dev.cs (csIndex i) csMask } := by
      rw [← hu]
      exact congrArg State.dev hsel
    have htrace : u.trace =
        s.trace ++ [.rd8 0x1D s.dev.cs, .wr8 0x1D (setClear s.dev.cs (csIndex i) csMask)] := by
      rw [← hu]
      exact congrArg State.trace hsel
    have hparams : u.params = s.params := by
      rw [← hu]
      exact (cssel_keeps i (startXfer i segs s)).params
    rw [finalized_eq, hparams]
    refine ⟨_, rfl, rfl, rfl, fun ha => ?a, fun hb => ?b⟩
    case a =>
      rw [if_neg (by simp [ha])]
      exact ⟨hdev, htrace⟩
    case b =>
      have hrest := csdesel_rest (s := u) (by rw [hdev]; exact hh) (by rw [hdev]; exact hi) (by rw [hparams]; exact hv)
      rw [if_pos hb, hrest, hdev, htrace]
      exact ⟨rfl, List.append_assoc _ _ _⟩

/-- Settles O41: SELECT, and in Variant B the deselection, are all its accesses. -/
theorem xferInvalidArgumentTouchesOnlyCs : Obligations.XferInvalidArgumentTouchesOnlyCs := by
  unfold Obligations.XferInvalidArgumentTouchesOnlyCs
  intro s i segs hq hno hlen
  obtain ⟨t, ⟨status, n, segs'⟩, e, hrun⟩ := exec_xfer_run i hq.1 (not_inadmissible_of_noSend hno hlen)
  obtain ⟨w, hw, rfl, rfl, ha, hb⟩ := hrun.noSend_rest hq hno
  obtain ⟨hlow, hhigh⟩ := select_value s.dev.cs i
  obtain ⟨hlow0, hhigh0⟩ := deselect_value w
  refine ⟨t, n, w, w &&& ~~~csMask, e, hrun.delivered.completions, by rw [hw]; exact hlow, by rw [hw]; exact hhigh, ?_, ha,
    hb⟩
  omega

/-- The state at SETOP with an unknown version tag: the accesses made so far, and havoc (R184 to R187, R267). -/
theorem programmed_other (i : BitVec 8) (segs : List Segment) (b : Byte) {tx : List Byte} (rx : Nat) {s : State}
    (hv : s.params.version = .other) (hfit : tx.length ≤ Config.fifoCapacity) :
    ∃ v, (programmed tx.length rx (packed i segs b tx s)).trace =
        s.trace ++ [.rd8 0x1D v, .wr8 0x1D (setClear v (csIndex i) csMask)] ++
          tx.mapIdx (fun k b => Access.wr8 (0x80 + k) b) ++
          [.wr8 0x48 (BitVec.ofNat 8 tx.length), .wr8 0x4B (BitVec.ofNat 8 rx)] ∧
      (programmed tx.length rx (packed i segs b tx s)).dev.havoc = true := by
  obtain ⟨hparams, -⟩ := programmed_keeps i segs b rx s hfit
  obtain ⟨-, -, -, -, hsel⟩ := sc8_spec .cs (csIndex i) csMask (startXfer i segs s)
  have hload := loadWrites_trace 0 tx (selected i segs s) (by omega)
  refine ⟨(portRead8 .cs (startXfer i segs s)).1, ?trace, ?havoc⟩
  case trace =>
    have hcounts : (programmed tx.length rx (packed i segs b tx s)).trace = (loadWrites 0 tx (selected i segs s)).trace ++
        [.wr8 0x48 (BitVec.ofNat 8 tx.length)] ++ [.wr8 0x4B (BitVec.ofNat 8 rx)] := rfl
    have hselected : (selected i segs s).trace = s.trace ++ [.rd8 0x1D (portRead8 .cs (startXfer i segs s)).1,
        .wr8 0x1D (setClear (portRead8 .cs (startXfer i segs s)).1 (csIndex i) csMask)] := hsel
    rw [hcounts, hload, hselected, List.append_assoc _ [Access.wr8 0x48 _]]
    simp only [Nat.zero_add, List.cons_append, List.nil_append]
  case havoc =>
    have hother : (portWrite8 .txCount (BitVec.ofNat 8 tx.length) (packed i segs b tx s)).params.version = .other :=
      (congrArg Params.version hparams).trans hv
    rw [programmed, State.goto_dev, portWrite8_dev, devWrite8_barred (.inr (.inl hother))]

/-- Settles O42: SETOP ends the message, and FINAL deselects nothing. -/
theorem xferUnknownVersionAccesses : Obligations.XferUnknownVersionAccesses := by
  unfold Obligations.XferUnknownVersionAccesses
  intro s i segs hpc hv hadm hsend
  obtain ⟨t, c, e, hrun⟩ := exec_xfer_run i hpc hadm
  have hdelivered := hrun.delivered.completions
  rw [Claim.rxLen_eq]
  cases hrun with
  | noSend len o hf => exact absurd ((Claim.hasSend_iff segs).1 hsend) (by simp [hf])
  | send b tx st m u len o _ hsent hfit hx _ =>
    have hfit' : tx.length ≤ Config.fifoCapacity := by omega
    obtain ⟨hparams, -⟩ := programmed_keeps i segs b (totalLen .recv segs) s hfit'
    obtain ⟨v, htrace, hhavoc⟩ := programmed_other i segs b (totalLen .recv segs) hv hfit'
    obtain rfl : st = .unsupportedVersion := hx.status.2.2 (by rw [hparams, hv])
    obtain ⟨hlow, hhigh⟩ := select_value v i
    generalize programmed tx.length (totalLen .recv segs) (packed i segs b tx s) = p at *
    cases hx with
    | unsupported hother =>
      have hfinal : finalized (raiseStatus .unsupportedVersion (setop b p).2) =
          raiseStatus .unsupportedVersion (p.setRes 2#32) := by
        rw [setop_other hother, finalized_eq]
        simp [endOp, raiseStatus, hother]
        rfl
      rw [hfinal] at e hdelivered
      exact ⟨_, len, v, _, b, tx, e, hsent, htrace, hlow, hhigh, hdelivered, hhavoc⟩

end Sys2Proof.Machine
end

section
/-! The transaction of a message (44_fifo_engine.md R195 to R198; 45_device_agent.md): from a device at rest through SELECT,
LOAD, PROG and SETOP to the trigger, and what the waits, DRAIN and FINAL leave of it. -/

namespace Sys2Proof.Machine

/-! ### From the start to the trigger -/

/-- The device at SETOP, of a device that was at rest: the chip selected, the transmit bytes in the FIFO, the counts
programmed (R184, R185, R187). -/
structure Loaded (i : BitVec 8) (tx : List Byte) (rx : Nat) (d0 d : Device) : Prop where
  dev : ∃ f : Memory, d = { d0 with
    cs := setClear d0.cs (csIndex i) csMask, fifo := f, txCount := BitVec.ofNat 8 tx.length, rxCount := BitVec.ofNat 8 rx }
  bytes : d.fifo.bytes 0x80 tx.length = tx

theorem programmed_loaded (i : BitVec 8) (segs : List Segment) (b : Byte) {tx : List Byte} (rx : Nat) {s : State}
    (hq : s.quiet) (hf : s.dev.fifo.wf) (hfit : tx.length ≤ Config.fifoCapacity) :
    Loaded i tx rx s.dev (programmed tx.length rx (packed i segs b tx s)).dev := by
  obtain ⟨-, hh, hi, hv⟩ := hq
  have hsel := congrArg State.dev (cssel_rest i (s := startXfer i segs s) hh hi hv)
  have hselp := (cssel_keeps i (startXfer i segs s)).params
  obtain ⟨f, hload, hparams, -, hbytes, -⟩ := loadWrites_rest 0 tx (selected i segs s) (by rw [selected, State.goto_dev, hsel]; exact hh)
    (by rw [selected, State.goto_dev, hsel]; exact hi) (by rw [selected, State.goto_params, hselp]; exact hv)
    (by rw [selected, State.goto_dev, hsel]; exact hf) (by omega)
  rw [selected, State.goto_dev, hsel] at hload
  have hpacked : (packed i segs b tx s).dev =
      { s.dev with cs := setClear s.dev.cs (csIndex i) csMask, fifo := f } := hload
  have hpv : (packed i segs b tx s).params.version ≠ .other := by
    rw [show (packed i segs b tx s).params = s.params from hparams.trans hselp]
    exact hv
  have hprog : (programmed tx.length rx (packed i segs b tx s)).dev =
      { (packed i segs b tx s).dev with txCount := BitVec.ofNat 8 tx.length, rxCount := BitVec.ofNat 8 rx } := by
    rw [programmed, portWrite8_rest (r := .txCount) (by rw [hpacked]; exact hh) (by rw [hpacked]; exact hi),
      devWrite8_stored (r := .txCount) hpv (by rw [hpacked]; exact hh) (by rw [hpacked]; exact hi) (by simp) (by simp)]
    rw [portWrite8_rest (r := .rxCount) (by rw [hpacked]; exact hh) (by rw [hpacked]; exact hi),
      devWrite8_stored (r := .rxCount) hpv (by rw [hpacked]; exact hh) (by rw [hpacked]; exact hi) (by simp) (by simp)]
    rfl
  refine ⟨⟨f, by rw [hprog, hpacked]⟩, ?_⟩
  rw [hprog, hpacked]
  refine List.ext_getElem (Memory.bytes_length _ _ _) fun k h1 h2 => ?_
  rw [Memory.bytes_getElem]
  exact hbytes k h2

/-- The opcode in its place: CTRL0's low byte in Variant A, OPCODE in Variant B (R121, R122). -/
def opcodePlaced (p : Params) (b : Byte) (d : Device) : Device :=
  if p.version = .a then { d with ctrl0 := setClear d.ctrl0 (b.setWidth 32) opcodeMask } else { d with opcode := b }

/-- What SETOP and TRIG make of a device at rest whose CTRL0 holds storage bits only (R188): the opcode placed, and the
transaction started where R222 accepts it. -/
theorem setop_trig_rest {s : State} (hv : s.params.version ≠ .other) (hh : s.dev.havoc = false) (hi : s.dev.phase = .idle)
    (hc : s.dev.ctrl0 &&& ctrl0Storage = s.dev.ctrl0) (b : Byte) :
    (Claim.canTrigger s.dev →
      (trig ((setop b s).2.goto .trig)).2.dev = Claim.triggered (opcodePlaced s.params b s.dev) b) ∧
    (¬ Claim.canTrigger s.dev → (trig ((setop b s).2.goto .trig)).2.dev.havoc = true) := by
  rcases hver : s.params.version with _ | _ | _
  · obtain ⟨-, -, hstore, hlow, -⟩ := opcode_value s.dev.ctrl0 b hc
    rw [setop_rest_a hver hh hi hc]
    obtain ⟨accepted, refused⟩ := trig_rest_a (s := (Claim.afterBoth s
      { s.dev with ctrl0 := setClear s.dev.ctrl0 (b.setWidth 32) opcodeMask } 0#32 _).goto .trig) hver hh hi hstore
    refine ⟨fun h => ?_, fun h => ?_⟩
    · rw [accepted (by exact h), opcodePlaced, if_pos hver]
      exact congrArg (Claim.triggered _) hlow
    · rw [refused (by exact h)]
      rfl
  · rw [setop_rest_b hver hh hi]
    obtain ⟨accepted, refused⟩ := trig_rest_b (s := (Claim.afterBoth s { s.dev with opcode := b } 0#32 _).goto .trig)
      hver hh hi
    refine ⟨fun h => ?_, fun h => ?_⟩
    · rw [accepted (by exact h), opcodePlaced, if_neg (by simp [hver])]
      rfl
    · rw [refused (by exact h)]
      rfl
  · exact absurd hver hv

/-- Placing the opcode changes no register of `SameRegisters` (R121, R122). -/
theorem opcodePlaced_same (p : Params) (b : Byte) (d : Device) : SameRegisters p d (opcodePlaced p b d) := by
  unfold opcodePlaced
  split
  · exact ⟨rfl, rfl, rfl, fun k hk => setOpcode_high d.ctrl0 b k hk, fun hb => by simp_all, fun _ => rfl⟩
  · exact ⟨rfl, rfl, rfl, fun _ _ => rfl, fun _ => rfl, fun ha => absurd ha ‹_›⟩

/-- The transaction of a message: the index modulo 4, the opcode, the transmit bytes and the receive count (R195, R223). -/
def messageTxn (i : BitVec 8) (op : Byte) (tx : List Byte) (rx : Nat) : Txn :=
  { cs := BitVec.ofNat 2 i.toNat, op := op, tx := tx.length, rx := rx, txbytes := tx }

/-- The events of a device that has started the transaction of a message (R231). -/
def startedEvents (d : Device) (i : BitVec 8) (op : Byte) (tx : List Byte) (rx : Nat) : List Event :=
  d.events ++ [.start (BitVec.ofNat 2 i.toNat) op tx rx]

/-- The device with the chip of a message selected (R140). -/
def chipSelected (i : BitVec 8) (d : Device) : Device := { d with cs := setClear d.cs (csIndex i) csMask }

/-- A device that is loaded and triggered is in the message's transaction (R223, R231). -/
theorem triggered_loaded {p : Params} {i : BitVec 8} {op : Byte} {tx : List Byte} {rx : Nat} {d0 d : Device}
    (h : Loaded i tx rx d0 d) (hh : d0.havoc = false) (hfit : tx.length + rx ≤ Config.fifoCapacity) :
    AfterTrigger p (messageTxn i op tx rx) (startedEvents d0 i op tx rx) (chipSelected i d0)
      (Claim.triggered (opcodePlaced p op d) op) := by
  obtain ⟨⟨f, hd⟩, hbytes⟩ := h
  simp only [Config.fifoCapacity] at hfit
  have hcs : BitVec.ofNat 2 (setClear d0.cs (csIndex i) csMask).toNat = BitVec.ofNat 2 i.toNat :=
    BitVec.eq_of_toNat_eq (by simpa using (select_value d0.cs i).1)
  have htx : (BitVec.ofNat 8 tx.length).toNat = tx.length := by rw [BitVec.toNat_ofNat]; omega
  have hrx : (BitVec.ofNat 8 rx).toNat = rx := by rw [BitVec.toNat_ofNat]; omega
  have hread : (List.range tx.length).map (fun j => f.read (0x80 + j)) = tx := by
    rw [← Memory.bytes_eq_map]
    rw [hd] at hbytes
    exact hbytes
  have hfields : (opcodePlaced p op d).cs = d.cs ∧ (opcodePlaced p op d).txCount = d.txCount ∧
      (opcodePlaced p op d).rxCount = d.rxCount ∧ (opcodePlaced p op d).fifo = d.fifo ∧
      (opcodePlaced p op d).events = d.events ∧ (opcodePlaced p op d).havoc = d.havoc := by
    unfold opcodePlaced
    split <;> exact ⟨rfl, rfl, rfl, rfl, rfl, rfl⟩
  obtain ⟨ecs, etx, erx, efifo, eevents, ehavoc⟩ := hfields
  have hsame : SameRegisters p (chipSelected i d0) d := by
    rw [hd]
    exact ⟨rfl, rfl, rfl, fun _ _ => rfl, fun _ => rfl, fun _ => rfl⟩
  have hplaced := hsame.trans (opcodePlaced_same p op d)
  refine ⟨ehavoc.trans (by rw [hd]; exact hh), ⟨hplaced.cs, hplaced.trigger, hplaced.cleared, hplaced.ctrl0High,
    hplaced.ctrl0, hplaced.opcode⟩, .inl ⟨?_, .inl ?_⟩⟩
  · simp only [Claim.triggered, ecs, etx, erx, efifo, eevents]
    simp only [hd, hcs, htx, hrx, hread, startedEvents]
  · simp only [Claim.triggered, ecs, etx, erx, efifo]
    simp only [hd, hcs, htx, hrx, hread, messageTxn]

/-- A message on a device at rest: its trigger starts its transaction after SETUP, and sets havoc before it (R222, R223). -/
theorem message_triggers (i : BitVec 8) (segs : List Segment) (b : Byte) {tx : List Byte} {rx : Nat} {s : State}
    (hq : s.quiet) (hok : s.dev.Ok s.params) (hfit : tx.length + rx ≤ Config.fifoCapacity) {v : Device}
    (hvdev : v = (trig ((setop b (programmed tx.length rx (packed i segs b tx s))).2.goto .trig)).2.dev) :
    (s.dev.fifoPtrCleared = true →
      AfterTrigger s.params (messageTxn i b tx rx) (startedEvents s.dev i b tx rx) (chipSelected i s.dev) v) ∧
    (s.dev.fifoPtrCleared = false → v.havoc = true) := by
  have hloaded := programmed_loaded i segs b rx hq hok.fifo_wf (tx := tx) (by omega)
  obtain ⟨hparams, -⟩ := programmed_keeps i segs b rx s (tx := tx) (by omega)
  obtain ⟨-, hh, hi, hv⟩ := hq
  obtain ⟨f, hd⟩ := hloaded.dev
  have htx : (BitVec.ofNat 8 tx.length).toNat = tx.length := by
    rw [BitVec.toNat_ofNat]; simp only [Config.fifoCapacity] at hfit; omega
  have hrx : (BitVec.ofNat 8 rx).toNat = rx := by
    rw [BitVec.toNat_ofNat]; simp only [Config.fifoCapacity] at hfit; omega
  obtain ⟨accepted, refused⟩ := setop_trig_rest (s := programmed tx.length rx (packed i segs b tx s))
    (by rw [hparams]; exact hv) (by rw [hd]; exact hh) (by rw [hd]; exact hi) (by rw [hd]; exact hok.ctrl0_storage) b
  rw [hvdev]
  refine ⟨fun hptr => ?_, fun hptr => ?_⟩
  · rw [accepted ⟨by rw [hd]; exact hptr, by rw [hd]; simp only [htx, hrx]; exact hfit⟩, hparams]
    exact triggered_loaded hloaded hh hfit
  · refine refused fun hcan => ?_
    rw [hd] at hcan
    simp [Claim.canTrigger, hptr] at hcan

/-! ### From the trigger to the end of the message -/

theorem messageTxn_fits {i : BitVec 8} {op : Byte} {tx : List Byte} {rx : Nat}
    (h : tx.length + rx ≤ Config.fifoCapacity) : (messageTxn i op tx rx).fits := ⟨rfl, h⟩

/-- What FINAL leaves of a transaction, where it leaves no havoc: in Variant B CS is deselected, at a write that finds the
device `IDLE` (R128, R191). -/
theorem finalized_afterTrigger {x : Txn} {ev : List Event} {d0 : Device} {u : State} (hx : x.fits)
    (hv : u.params.version ≠ .other) (h : AfterTrigger u.params x ev d0 u.dev) (hh : (finalized u).dev.havoc = false) :
    ∃ d, AfterTrigger u.params x ev d0 d ∧
      (finalized u).dev = { d with cs := if u.params.version = .b then d0.cs &&& ~~~csMask else d0.cs } := by
  rw [finalized_eq] at hh ⊢
  by_cases hb : u.params.version = .b
  · rw [if_pos hb] at hh ⊢
    have hread : csdesel u = csUpdate (fun y => y &&& ~~~csMask) u := rfl
    rw [hread] at hh ⊢
    have hd : AfterTrigger u.params x ev d0 (portRead8 .cs u).2.turn.dev :=
      deviceTurn_afterTrigger hx (deviceTurn_afterTrigger hx h u.oracle) _
    have hidle : (portRead8 .cs u).2.turn.dev.phase = .idle := by
      by_contra hbusy
      rw [csUpdate_barred (.inl hbusy)] at hh
      simp at hh
    refine ⟨_, hd, ?_⟩
    rw [(csUpdate_idle hv h.noHavoc hidle _).1, if_pos hb, h.same.cs]
  · rw [if_neg hb, if_neg hb, ← h.same.cs]
    exact ⟨u.dev, h, rfl⟩

/-- A message with a send segment on a device at rest that ends without havoc: SETUP had been made, and the device is
somewhere after the trigger of the message's transaction, CS deselected in Variant B (R191, R195). -/
theorem Executed.exchange {i : BitVec 8} {segs : List Segment} {b : Byte} {tx : List Byte} {rx : Nat} {s u : State}
    {st : Status} {m : Message} (hq : s.quiet) (hok : s.dev.Ok s.params) (hfit : tx.length + rx ≤ Config.fifoCapacity)
    (hx : Executed b tx.length rx { cs := i, segs := segs } (programmed tx.length rx (packed i segs b tx s)) st m u)
    (hh : (finalized u).dev.havoc = false) :
    s.dev.fifoPtrCleared = true ∧
    ∃ d, AfterTrigger s.params (messageTxn i b tx rx) (startedEvents s.dev i b tx rx) (chipSelected i s.dev) d ∧
      (finalized u).dev =
        { d with cs := if s.params.version = .b then (chipSelected i s.dev).cs &&& ~~~csMask else (chipSelected i s.dev).cs } := by
  obtain ⟨cleared, uncleared⟩ := message_triggers i segs b hq hok hfit rfl
  obtain ⟨hparams, -, -, -, hmsg⟩ := programmed_keeps i segs b rx s (tx := tx) (by omega)
  have hup : u.params = s.params := (hx.atFinal hmsg).params.trans hparams
  have hv : s.params.version ≠ .other := hq.2.2.2
  rcases hptr : s.dev.fifoPtrCleared with _ | _
  · have hhavoc : u.dev.havoc = true := hx.keeps_dev (fun d => d.havoc = true) (fun d o h => (deviceTurn_havoc _ d o).trans h)
      (by rw [hparams]; exact hv) (uncleared hptr)
    have := (trail_later (finalized_trail u)).1 hhavoc
    rw [hh] at this
    simp at this
  · have hu := hx.keeps_dev (AfterTrigger s.params _ _ _)
      (fun d o h => by rw [hparams]; exact deviceTurn_afterTrigger (messageTxn_fits hfit) h o) (by rw [hparams]; exact hv)
      (cleared hptr)
    rw [← hup] at hu hv ⊢
    exact ⟨rfl, finalized_afterTrigger (messageTxn_fits hfit) hv hu hh⟩

/-- Settles O43: the events of a device somewhere after the trigger. -/
theorem xferRecordsOneTransaction : Obligations.XferRecordsOneTransaction := by
  unfold Obligations.XferRecordsOneTransaction
  intro s t i segs op tx hq hok hptr hadm hsent h hh
  obtain ⟨c, hrun⟩ := xferRun_of_exec hadm h
  rw [Claim.rxLen_eq]
  cases hrun with
  | noSend len o hf =>
    have := totalLen_send_sent (admits_lengths (admits_of_not_inadmissible hadm))
    rw [totalLen_send_zero hf, hsent] at this
    simp at this
  | send b tx' st m u len o _ hsent' hfit hx _ =>
    obtain ⟨rfl, rfl⟩ : b = op ∧ tx' = tx := by simpa [hsent] using hsent'.symm
    obtain ⟨-, d, hd, hdev⟩ := hx.exchange hq hok hfit hh
    have hevents : (finalized u).dev.events = d.events := by rw [hdev]
    change ∃ rest, (finalized u).dev.events = _ ∧ _
    rw [hevents]
    rcases hd.progress with ⟨he, -⟩ | ⟨-, rxb, hlen, he, -⟩
    · exact ⟨[], he, .inl rfl⟩
    · exact ⟨[_], he.trans (List.append_assoc _ _ _), .inr ⟨rxb, hlen, rfl⟩⟩

/-! ### The other registers (R196, R311) -/

/-- CS after a message: the index modulo 4 in its field in Variant A, 0 in Variant B (R191, R196). -/
def finalCs (p : Params) (i : BitVec 8) (d : Device) : Byte :=
  if p.version = .b then (chipSelected i d).cs &&& ~~~csMask else (chipSelected i d).cs

/-- The registers after a message on a device at rest that ends without havoc, on both courses. -/
theorem XferRun.registers {i : BitVec 8} {segs : List Segment} {s t : State} {c : Completion} (hq : s.quiet)
    (hok : s.dev.Ok s.params) (h : XferRun i segs s t c) (hh : t.dev.havoc = false) :
    ∃ d, SameRegisters s.params (chipSelected i s.dev) d ∧ t.dev = { d with cs := finalCs s.params i s.dev } := by
  by_cases hsend : Claim.hasSend segs
  · cases h with
    | noSend len o hf => exact absurd ((Claim.hasSend_iff segs).1 hsend) (by simp [hf])
    | send b tx st m u len o _ _ hfit hx _ =>
      obtain ⟨-, d, hd, hdev⟩ := hx.exchange hq hok hfit hh
      exact ⟨d, hd.same, hdev⟩
  · obtain ⟨w, rfl, -, -, ha, hb⟩ := h.noSend_rest hq hsend
    refine ⟨_, .refl _ _, ?_⟩
    rcases hver : s.params.version with _ | _ | _
    · rw [(ha hver).1, finalCs, if_neg (by simp [hver])]
      rfl
    · rw [(hb hver).1, finalCs, if_pos hver]
      rfl
    · exact absurd hver hq.2.2.2

/-- Settles O45: CS is `finalCs`, and the other registers are as at the start. -/
theorem xferLeavesTheOtherRegisters : Obligations.XferLeavesTheOtherRegisters := by
  unfold Obligations.XferLeavesTheOtherRegisters
  intro s t i segs hq hok hadm h hh
  obtain ⟨c, hrun⟩ := xferRun_of_exec hadm h
  obtain ⟨d, ⟨-, htrigger, hcleared, hhigh, hctrl0, hopcode⟩, hdev⟩ := hrun.registers hq hok hh
  obtain ⟨hlow, hkept⟩ := select_value s.dev.cs i
  obtain ⟨hlow0, hkept0⟩ := deselect_value (setClear s.dev.cs (csIndex i) csMask)
  rw [hdev]
  refine ⟨?_, htrigger, hcleared, hhigh, fun ha => ⟨?_, hopcode ha⟩, fun hb => ⟨?_, hctrl0 hb⟩⟩
  · simp only [finalCs]
    split
    · exact hkept0.trans hkept
    · exact hkept
  · simp only [finalCs, if_neg (show s.params.version ≠ .b by simp [ha])]
    exact hlow
  · simp only [finalCs, if_pos hb]
    exact hlow0

/-! ### The bytes received (R189, R190, R306) -/

/-- Without a gap a device after its trigger that is not busy has completed (R41, R306). -/
theorem AfterTrigger.idle {p : Params} {x : Txn} {ev : List Event} {d0 d : Device} (h : AfterTrigger p x ev d0 d)
    (hgap : p.rxGapAdmitted = false) (hb : d.phase.busy = false) : d.phase = .idle := by
  rcases h.progress with ⟨-, hp | ⟨-, hg⟩ | hp⟩ | ⟨hp, -⟩
  · rw [hp] at hb
    simp [Phase.busy] at hb
  · rw [hgap] at hg
    simp at hg
  · rw [hp] at hb
    simp [Phase.busy] at hb
  · exact hp

/-- A wait that succeeds without a gap leaves a device after its trigger completed. -/
theorem bwait_completes {x : Txn} {ev : List Event} {d0 : Device} {s : State} (hx : x.fits)
    (hv : s.params.version ≠ .other) (hgap : s.params.rxGapAdmitted = false) (h : AfterTrigger s.params x ev d0 s.dev)
    (hb : (bwait s).1 = .success) :
    AfterTrigger s.params x ev d0 (bwait s).2.dev ∧ (bwait s).2.dev.phase = .idle := by
  have hd := bwait_keeps_dev (AfterTrigger s.params x ev d0) s (fun d o h => deviceTurn_afterTrigger hx h o) h
  exact ⟨hd, hd.idle hgap (bwait_success hv h.noHavoc hb)⟩

/-- On Success without a gap the transaction has completed before DRAIN, whose reads are the received bytes in order
(R189, R190, R306). -/
theorem Executed.received {b : Byte} {tx rx : Nat} {m m' : Message} {s u : State} {x : Txn} {ev : List Event} {d0 : Device}
    (h : Executed b tx rx m s .success m' u) (hx : x.fits) (hgap : s.params.rxGapAdmitted = false)
    (hd : AfterTrigger s.params x ev d0 (trig ((setop b s).2.goto .trig)).2.dev) (hmsg : s.eng.msg = some m)
    (hlen : ∀ seg ∈ m.segs, seg.len = seg.buf.length) (hrx : rx = totalLen .recv m.segs)
    (hfit : tx + rx ≤ Config.fifoCapacity) :
    AfterTrigger s.params x ev d0 u.dev ∧ u.dev.phase = .idle ∧
      receivedBytes m'.segs = u.dev.fifo.bytes (Config.fifoBase + tx) rx := by
  have ks := (setop_spec b s).2
  have kt := (trig_spec ((setop b s).2.goto .trig)).2
  generalize hw : (trig ((setop b s).2.goto .trig)).2.goto .wait1 = w at *
  have hwp : w.params = s.params := by rw [← hw]; exact kt.params.trans ks.params
  have hwm : w.eng.msg = some m := by rw [← hw]; exact (kt.msg.trans ks.msg).trans hmsg
  have hwd : AfterTrigger s.params x ev d0 w.dev := by rw [← hw]; exact hd
  have kw := (bwait_spec w).2.2
  have completes {v : State} (hvp : v.params = s.params) (hv : s.params.version ≠ .other)
      (hvd : AfterTrigger s.params x ev d0 v.dev) (hb : (bwait v).1 = .success) :
      AfterTrigger s.params x ev d0 (bwait v).2.dev ∧ (bwait v).2.dev.phase = .idle := by
    rw [← hvp] at hv hgap hvd ⊢
    exact bwait_completes hx hv hgap hvd hb
  cases h with
  | sent w' hv hw' hb hr0 =>
    obtain rfl : w = w' := (hw'.trans hw).symm
    obtain ⟨hdone, hidle⟩ := completes hwp hv hwd hb
    refine ⟨hdone, hidle, ?_⟩
    rw [hr0]
    refine List.eq_nil_of_length_eq_zero ?_
    rw [totalLen_recv_received hlen, ← hrx, hr0]
  | drained w' _ segs' hv hw' hb _ hb2 hdrain hmsg' _ _ =>
    obtain rfl : w = w' := (hw'.trans hw).symm
    obtain ⟨hd1, -⟩ := completes hwp hv hwd hb
    generalize hw2 : (bwait w).2.goto .wait2 = w2 at *
    have hw2p : w2.params = s.params := by rw [← hw2]; exact kw.params.trans hwp
    have hw2m : w2.eng.msg = some m := by rw [← hw2]; exact kw.msg.trans hwm
    have kw2 := (bwait_spec w2).2.2
    obtain ⟨hdone, hidle⟩ := completes hw2p hv (by rw [← hw2]; exact hd1) hb2
    obtain ⟨t, segs'', -, hrun, htm, -, -, -, -, -, hrest⟩ := drainBytes_spec tx rx 0 m ((bwait w2).2.goto .drain)
      (kw2.msg.trans hw2m) hlen (by omega) (by omega)
    obtain rfl : t = _ := Except.ok.inj (hrun.symm.trans hdrain)
    obtain rfl : segs'' = segs' := by simpa using htm.symm.trans hmsg'
    obtain ⟨hdev, hbytes⟩ := hrest hdone.noHavoc hidle (by rw [State.goto_params, kw2.params, hw2p]; exact hv)
    have hdev' : (succeeded tx rx t).dev = (bwait w2).2.dev := hdev
    rw [hdev', hbytes, List.drop_of_length_le (by rw [totalLen_recv_received hlen]; omega)]
    exact ⟨hdone, hidle, by simp⟩

/-- What FINAL leaves of a device at rest: CS may be deselected, and nothing else changes. -/
theorem finalized_rest {u : State} (hh : u.dev.havoc = false) (hi : u.dev.phase = .idle) (hv : u.params.version ≠ .other) :
    ∃ y, (finalized u).dev = { u.dev with cs := y } := by
  rw [finalized_eq]
  split
  · exact ⟨_, by rw [csdesel_rest hh hi hv]⟩
  · exact ⟨u.dev.cs, rfl⟩

/-- Settles O44: the device has completed before the end of the message, and FINAL moves CS alone. -/
theorem xferReceivesTheTargetsBytes : Obligations.XferReceivesTheTargetsBytes := by
  unfold Obligations.XferReceivesTheTargetsBytes
  intro s t i segs op tx c hq hok hptr hgap hadm hsent h hc hst
  have hlens := admits_lengths (admits_of_not_inadmissible hadm)
  have hv : s.params.version ≠ .other := hq.2.2.2
  rw [Claim.rxLen_eq]
  cases xferRun_of_record hadm h hc with
  | noSend len o hf => simp at hst
  | send b tx' st m u len o _ hsent' hfit hx _ =>
    obtain ⟨rfl, rfl⟩ : b = op ∧ tx' = tx := by simpa [hsent] using hsent'.symm
    obtain rfl : st = .success := hst
    obtain ⟨hparams, -, -, -, hmsg⟩ := programmed_keeps i segs b (totalLen .recv segs) s (tx := tx') (by omega)
    have hup : u.params = s.params := (hx.atFinal hmsg).params.trans hparams
    have hd := (message_triggers i segs b hq hok hfit rfl).1 hptr
    obtain ⟨hu, hidle, hbytes⟩ := hx.received (messageTxn_fits hfit) (by rw [hparams]; exact hgap)
      (by rw [hparams]; exact hd) hmsg hlens rfl hfit
    obtain ⟨y, hdev⟩ := finalized_rest hu.noHavoc hidle (by rw [hup]; exact hv)
    have htdev : (notified m .success len o (finalized u)).dev = { u.dev with cs := y } := hdev
    rw [htdev]
    refine ⟨hu.noHavoc, hidle, ?_⟩
    rcases hu.progress with ⟨-, hbusy | ⟨hbusy, -⟩ | hbusy⟩ | ⟨-, rxb, -, hevents, hcells⟩
    · simp [hidle] at hbusy
    · simp [hidle] at hbusy
    · simp [hidle] at hbusy
    · have hreceived : receivedBytes m.segs = rxb := hbytes.trans hcells
      rw [hreceived]
      exact hevents.trans (List.append_assoc _ _ _)

end Sys2Proof.Machine
end
